-- ==== Sys2Proof/Word.lean ====
section
/-! DEFINITION. The words the HCE works on (00_scope.md R5, R6): every value is an unsigned bit string with bit 0 the
least significant. Names for the widths of R5 and for the index NULL. -/

namespace Sys2Proof

/-- A register, command or output word: WORD = 32 bits (R5). -/
abbrev Word := BitVec 32

/-- A byte as a byte-addressed host bus carries it (20_memory.md R50). -/
abbrev Byte := BitVec 8

/-- A symbol 0..255: SYMW = 8 bits (R5). -/
abbrev Symbol := BitVec 8

/-- A node index: NIDXW = 9 bits (R5). -/
abbrev NodeIdx := BitVec 9

/-- A stored code value: CVALW = 255 bits (R5). -/
abbrev CodeVal := BitVec 255

/-- The node index that means "no child" or "no node"; it is never allocated (R5). -/
abbrev NULL : NodeIdx := 0x1FF#9

end Sys2Proof
end

