-- ==== Sys2Proof/Config.lean ====
section
/-! DEFINITION. What is fixed for one HCE (00_scope.md R5; 10_state.md R21, R42, R43): the constants, the parameter
FIFO_DEPTH as plain data, and the open parameter HOST_BYTE_LANES, an opaque constant about which nothing is known. -/

namespace Sys2Proof

/-- NSYM (R5). -/
abbrev Config.nsym : Nat := 256

/-- NNODE: entries of the node memory (R5). -/
abbrev Config.nnode : Nat := 511

/-- MAXLEN: the longest code (R5). -/
abbrev Config.maxLen : Nat := 255

/-- SYMW (R5). -/
abbrev Config.symw : Nat := 8

/-- ID_VALUE (10_state.md R42). -/
abbrev Config.idValue : Word := 0x48434531#32

/-- The parameters of one HCE (R5, R21). No step writes them: they stand in State so that a statement about every state
is a statement about every FIFO_DEPTH (log 1). -/
structure Config.Params where
  /-- FIFO_DEPTH, an integer ≥ 16 (R5); the bound is `Config.Params.legal`. -/
  fifoDepth : Nat
  deriving DecidableEq, Repr

/-- R5's default FIFO_DEPTH. DESIGN CHOICE (log 1): State.reset is an HCE of this depth. -/
def Config.defaultParams : Config.Params := ⟨16⟩

/-- R5: FIFO_DEPTH ≥ 16. -/
abbrev Config.Params.legal (p : Config.Params) : Prop := 16 ≤ p.fifoDepth

/-- HOST_BYTE_LANES (R5, 92_eei_decisions.md D31), OPEN: which byte of the 32 data bits each byte lane of a byte-addressed
host bus carries. It has no body; no rule of the HCE depends on it (log 12). -/
opaque Config.hostByteLanes : Equiv.Perm (Fin 4)

end Sys2Proof
end

