-- ==== Sys2Proof/Syntax.lean ====
section
/-! DEFINITION. The commands of the HCE: one constructor per row of spec/opcode_table.json (30_encoding.md R81, R83), with
the operand fields of its format as R82 assembles them. -/

namespace Sys2Proof

/-- A command with its operands. -/
inductive Instr where
  /-- NOP, format Z (40_control.md R100). -/
  | nop
  /-- CLEAR, format Z (40_control.md R101). -/
  | clear
  /-- COUNT sym, format S (41_frequency.md R120). -/
  | count (sym : Symbol)
  /-- BUILD, format Z (42_tree_builder.md R143). -/
  | build
  /-- GEN, format Z (43_code_table.md R160). -/
  | gen
  /-- ENCODE sym, format S (44_encoder.md R181). -/
  | encode (sym : Symbol)
  /-- FLUSH, format Z (44_encoder.md R182). -/
  | flush
  /-- DECODE n, bits, format D (45_decoder.md R200); only 1 ≤ n ≤ 16 is a command (R84, R85). -/
  | decode (n : BitVec 5) (bits : BitVec 16)
  /-- DECEND, format Z (45_decoder.md R201). -/
  | decend
  /-- LOADCODE sym, len, format L (43_code_table.md R163). -/
  | loadcode (sym : Symbol) (len : BitVec 8)
  /-- READCODE sym, format S (46_readback.md R220). -/
  | readcode (sym : Symbol)
  /-- READFREQ sym, format S (46_readback.md R221). -/
  | readfreq (sym : Symbol)
  /-- READNODE idx, format I (46_readback.md R222). -/
  | readnode (idx : NodeIdx)
  /-- ACKERR, format Z (40_control.md R102). -/
  | ackerr
  deriving DecidableEq, Repr

end Sys2Proof
end

