-- ==== Sys2Proof/WellFormed.lean ====
section
/-! DEFINITION. Which commands a word can spell (30_encoding.md R82, R84, R85): the field widths are in the types, so the
one check left is DECODE's bit count. A LOADCODE with len = 0 is well formed: it is a legal word that LOADCODE itself
refuses (43_code_table.md R163). -/

namespace Sys2Proof

/-- R84: for DECODE, 1 ≤ n ≤ 16 must hold; every other field may take each of its values. -/
def Instr.wellFormed : Instr → Bool
  | .nop => true
  | .clear => true
  | .count _ => true
  | .build => true
  | .gen => true
  | .encode _ => true
  | .flush => true
  | .decode n _ => decide (1 ≤ n.toNat) && decide (n.toNat ≤ 16)
  | .decend => true
  | .loadcode _ _ => true
  | .readcode _ => true
  | .readfreq _ => true
  | .readnode _ => true
  | .ackerr => true

end Sys2Proof
end

