-- ==== Sys2Proof/Decode.lean ====
section
/-! DEFINITION. Command words (30_encoding.md R80 to R89): the decoder, total on every word and refusing by name (R85), and
after it the encoder, the spec's assembler statements, and the opcode table as rows of a mask and a match (R84). -/

namespace Sys2Proof

/-- Why a word is illegal (R85 (a), (b), (c)). -/
inductive DecodeError where
  /-- (a) opcode 0x0E..0xFF. -/
  | reservedOpcode
  /-- (b) a 1 under the opcode's reserved operand mask. -/
  | reservedOperandBits
  /-- (c) a DECODE with n = 0 or n ≥ 17. -/
  | decodeCount
  deriving DecidableEq, Repr

/-- The opcode, w[31:24] (R80). -/
def opcodeOf (w : Word) : BitVec 8 := w.extractLsb' 24 8

/-- The operand a, w[23:0] (R80). -/
def operandOf (w : Word) : BitVec 24 := w.extractLsb' 0 24

/-- sym = a[7:0] (R82). -/
def symField (a : BitVec 24) : Symbol := a.extractLsb' 0 8

/-- len = a[15:8] (R82). -/
def lenField (a : BitVec 24) : BitVec 8 := a.extractLsb' 8 8

/-- n = a[20:16] (R82). -/
def nField (a : BitVec 24) : BitVec 5 := a.extractLsb' 16 5

/-- bits = a[15:0] (R82). -/
def bitsField (a : BitVec 24) : BitVec 16 := a.extractLsb' 0 16

/-- idx = a[8:0] (R82). -/
def idxField (a : BitVec 24) : NodeIdx := a.extractLsb' 0 9

/-- R85 (b): the command `i` if no reserved operand bit is 1. -/
def unlessReserved (mask a : BitVec 24) (i : Instr) : Except DecodeError Instr :=
  if a &&& mask = 0#24 then .ok i else .error .reservedOperandBits

/-- The command a word spells, or why it is illegal (R83, R84, R85). -/
def decode (w : Word) : Except DecodeError Instr :=
  let a := operandOf w
  match (opcodeOf w).toNat with
  | 0x00 => unlessReserved 0xFFFFFF#24 a .nop
  | 0x01 => unlessReserved 0xFFFFFF#24 a .clear
  | 0x02 => unlessReserved 0xFFFF00#24 a (.count (symField a))
  | 0x03 => unlessReserved 0xFFFFFF#24 a .build
  | 0x04 => unlessReserved 0xFFFFFF#24 a .gen
  | 0x05 => unlessReserved 0xFFFF00#24 a (.encode (symField a))
  | 0x06 => unlessReserved 0xFFFFFF#24 a .flush
  | 0x07 =>
    if a &&& 0xE00000#24 = 0#24 then
      if 1 ≤ (nField a).toNat ∧ (nField a).toNat ≤ 16 then .ok (.decode (nField a) (bitsField a))
      else .error .decodeCount
    else .error .reservedOperandBits
  | 0x08 => unlessReserved 0xFFFFFF#24 a .decend
  | 0x09 => unlessReserved 0xFF0000#24 a (.loadcode (symField a) (lenField a))
  | 0x0A => unlessReserved 0xFFFF00#24 a (.readcode (symField a))
  | 0x0B => unlessReserved 0xFFFF00#24 a (.readfreq (symField a))
  | 0x0C => unlessReserved 0xFFFE00#24 a (.readnode (idxField a))
  | 0x0D => unlessReserved 0xFFFFFF#24 a .ackerr
  | _ => .error .reservedOpcode

/-- The decoder on an instruction given by its `nbits` lowest bits, as spec/opcode_table.json numbers them: every command is
one 32-bit word (R80, R88), and bits at or above `nbits` are 0. -/
def decodeTableWord (nbits w : Nat) : Option Instr :=
  (decode (BitVec.ofNat 32 (w % 2 ^ nbits))).toOption

/-- The opcode of each command (R83). -/
def Instr.opcode : Instr → BitVec 8
  | .nop => 0x00#8
  | .clear => 0x01#8
  | .count _ => 0x02#8
  | .build => 0x03#8
  | .gen => 0x04#8
  | .encode _ => 0x05#8
  | .flush => 0x06#8
  | .decode _ _ => 0x07#8
  | .decend => 0x08#8
  | .loadcode _ _ => 0x09#8
  | .readcode _ => 0x0A#8
  | .readfreq _ => 0x0B#8
  | .readnode _ => 0x0C#8
  | .ackerr => 0x0D#8

/-- The 24-bit operand of each command in its format Z, S, D, L or I, reserved bits 0 (R81). -/
def Instr.operand : Instr → BitVec 24
  | .nop => 0#24
  | .clear => 0#24
  | .count sym => 0#16 ++ sym
  | .build => 0#24
  | .gen => 0#24
  | .encode sym => 0#16 ++ sym
  | .flush => 0#24
  | .decode n bits => 0#3 ++ n ++ bits
  | .decend => 0#24
  | .loadcode sym len => 0#8 ++ len ++ sym
  | .readcode sym => 0#16 ++ sym
  | .readfreq sym => 0#16 ++ sym
  | .readnode idx => 0#15 ++ idx
  | .ackerr => 0#24

/-- The word of a command: {opcode, operand} (R80, R81, R89). -/
def encode (i : Instr) : Word := i.opcode ++ i.operand

/-- A row of the opcode table (R84): the words of a mnemonic are those with `(w & mask) = value`. -/
structure OpcodeRow where
  mnemonic : String
  value : Word
  mask : Word
  deriving DecidableEq, Repr

/-- The opcode table (R84, spec/opcode_table.json). For DECODE, 1 ≤ w[20:16] ≤ 16 must also hold. -/
def opcodeRows : List OpcodeRow :=
  [⟨"NOP", 0x00000000#32, 0xFFFFFFFF#32⟩,
   ⟨"CLEAR", 0x01000000#32, 0xFFFFFFFF#32⟩,
   ⟨"COUNT", 0x02000000#32, 0xFFFFFF00#32⟩,
   ⟨"BUILD", 0x03000000#32, 0xFFFFFFFF#32⟩,
   ⟨"GEN", 0x04000000#32, 0xFFFFFFFF#32⟩,
   ⟨"ENCODE", 0x05000000#32, 0xFFFFFF00#32⟩,
   ⟨"FLUSH", 0x06000000#32, 0xFFFFFFFF#32⟩,
   ⟨"DECODE", 0x07000000#32, 0xFFE00000#32⟩,
   ⟨"DECEND", 0x08000000#32, 0xFFFFFFFF#32⟩,
   ⟨"LOADCODE", 0x09000000#32, 0xFFFF0000#32⟩,
   ⟨"READCODE", 0x0A000000#32, 0xFFFFFF00#32⟩,
   ⟨"READFREQ", 0x0B000000#32, 0xFFFFFF00#32⟩,
   ⟨"READNODE", 0x0C000000#32, 0xFFFFFE00#32⟩,
   ⟨"ACKERR", 0x0D000000#32, 0xFFFFFFFF#32⟩]

/-- R84: a word spells a row when its masked bits are the row's, and for DECODE n is in 1..16. -/
def OpcodeRow.spelledBy (r : OpcodeRow) (w : Word) : Bool :=
  decide (w &&& r.mask = r.value) &&
    (decide (r.mnemonic ≠ "DECODE") ||
      (decide (1 ≤ (nField (operandOf w)).toNat) && decide ((nField (operandOf w)).toNat ≤ 16)))

/-- The mnemonic of each command, as the table spells it (R83). -/
def Instr.mnemonic : Instr → String
  | .nop => "NOP"
  | .clear => "CLEAR"
  | .count _ => "COUNT"
  | .build => "BUILD"
  | .gen => "GEN"
  | .encode _ => "ENCODE"
  | .flush => "FLUSH"
  | .decode _ _ => "DECODE"
  | .decend => "DECEND"
  | .loadcode _ _ => "LOADCODE"
  | .readcode _ => "READCODE"
  | .readfreq _ => "READFREQ"
  | .readnode _ => "READNODE"
  | .ackerr => "ACKERR"

/-- The operands of a command in the order R89's statements write them. -/
def Instr.asmOperands : Instr → List Nat
  | .nop => []
  | .clear => []
  | .count sym => [sym.toNat]
  | .build => []
  | .gen => []
  | .encode sym => [sym.toNat]
  | .flush => []
  | .decode n bits => [n.toNat, bits.toNat]
  | .decend => []
  | .loadcode sym len => [sym.toNat, len.toNat]
  | .readcode sym => [sym.toNat]
  | .readfreq sym => [sym.toNat]
  | .readnode idx => [idx.toNat]
  | .ackerr => []

/-- R89's assembly statement of a command, its numbers in decimal. -/
def Instr.asm (i : Instr) : String :=
  match i.asmOperands with
  | [] => i.mnemonic
  | x :: rest => i.mnemonic ++ " " ++ rest.foldl (fun t y => t ++ ", " ++ toString y) (toString x)

end Sys2Proof
end

