-- ==== Sys2Proof/Machine/State.lean ====
section
/-! DEFINITION. Everything the spec gives the HCE to hold (10_state.md R20, R24 to R37), the outside events still to come
(00_scope.md R8), the reasons a step can stop, and the state right after reset (10_state.md R48, 70_reset_and_hazards.md
R270). -/

namespace Sys2Proof.Machine

/-- PHASE (10_state.md R25). The values 5..7 are never held, so there is no constructor for them (log 13). -/
inductive Phase where
  | empty
  | counting
  | built
  | ready
  | loaded
  deriving DecidableEq, Repr

/-- ERR (10_state.md R26): the codes 0..9 of 60_exceptions.md R241. 10..15 are never raised (log 13). -/
inductive ErrCode where
  | noError
  | emptyInput
  | missingSymbol
  | truncatedStream
  | corruptTree
  | corruptTable
  | countOverflow
  | illegalCommand
  | sequenceError
  | nodeOverflow
  deriving DecidableEq, Repr

/-- The kind of a node (10_state.md R29): 1 LEAF, 2 INTERNAL; 0 and 3 are never stored. -/
inductive NodeKind where
  | leaf
  | internal
  deriving DecidableEq, Repr

/-- A node record (10_state.md R29). -/
structure Node where
  kind : NodeKind
  weight : Word
  sym : Symbol
  left : NodeIdx
  right : NodeIdx
  deriving DecidableEq, Repr

/-- An internal memory (20_memory.md R62): (index, value) pairs in one canonical form, `Memory.wf` (log 20). -/
abbrev Memory (α : Type) := List (Nat × α)

/-- The node memory and its allocation pointer (10_state.md R29, R30), as one Engine step works on them. -/
structure Arena where
  node : Memory Node
  next : BitVec 10
  deriving DecidableEq, Repr

/-- The code table (10_state.md R31), as one Engine step works on it. -/
structure CodeTable where
  cvalid : Memory Bool
  clen : Memory (BitVec 8)
  cval : Memory CodeVal
  deriving DecidableEq, Repr

/-- The bit packer and the FIFO it pushes to (10_state.md R33, R34, R35), as one Engine step works on them. -/
structure Packer where
  out : List Word
  packbuf : Word
  packcnt : BitVec 5
  bitcnt : BitVec 64
  deriving DecidableEq, Repr

/-- What DECODE's walk has reached (45_decoder.md R200): the cursor, the FIFO and, where a NULL child stopped it, the
24-bit detail of CorruptTree. -/
structure DecodeRun where
  cursor : NodeIdx
  out : List Word
  corrupt : Option (BitVec 24)
  deriving DecidableEq, Repr

/-- The registers of the map of 10_state.md R40. -/
inductive Reg where
  | id
  | config
  | cmd
  | status
  | errinfo
  | ndist
  | total
  | root
  | next
  | cursor
  | result0
  | result1
  | outData
  | outCount
  | packcnt
  | packbuf
  | bitcntLo
  | bitcntHi
  | costLo
  | costHi
  | codew (k : Fin 8)
  | reserved
  deriving DecidableEq, Repr

/-- What may happen next from outside the Engine, or the Engine's own turn (00_scope.md R8; log 2). -/
inductive Event where
  /-- The Engine has the turn (20_memory.md R57). -/
  | engine
  /-- RegRead(idx) (20_memory.md R51). -/
  | read (idx : BitVec 6)
  /-- RegWrite(idx, v) (20_memory.md R52). -/
  | write (idx : BitVec 6) (v : Word)
  /-- A read through a byte-addressed bridge, at a byte offset from the block's base (20_memory.md R50, R56). -/
  | busRead (off : BitVec 32)
  /-- A write through a byte-addressed bridge. -/
  | busWrite (off : BitVec 32) (v : Word)
  /-- The reset input is asserted (70_reset_and_hazards.md R270). -/
  | reset
  deriving DecidableEq, Repr

/-- The state. Each field carries the spec's name of it; the last three are the model's own. -/
structure State where
  /-- The command latched and not yet completed (10_state.md R24). -/
  pending : Option Word
  phase : Phase
  err : ErrCode
  errinfo : Word
  overrun : Bool
  underflow : Bool
  /-- FREQ[0..255] (R28). -/
  freq : Memory Word
  total : Word
  ndist : BitVec 9
  /-- NODE[0..510] (R29). -/
  node : Memory Node
  next : BitVec 10
  root : NodeIdx
  /-- CVALID, CLEN, CVAL [0..255] (R31). -/
  cvalid : Memory Bool
  clen : Memory (BitVec 8)
  cval : Memory CodeVal
  cursor : NodeIdx
  /-- OUT, its head (the oldest word) first (R33). -/
  out : List Word
  packbuf : Word
  packcnt : BitVec 5
  bitcnt : BitVec 64
  cost : BitVec 64
  result0 : Word
  result1 : Word
  /-- CODEW[0..7] (R37). -/
  codew : Vector Word 8
  /-- FIFO_DEPTH (00_scope.md R5), which no step writes (log 1). -/
  params : Config.Params
  /-- The model's own: the events still to come, next first (log 2). -/
  schedule : List Event
  /-- The model's own: what RegRead has returned to the Host, oldest first, with the word index (log 3). -/
  hostReads : List (BitVec 6 × Word)
  deriving DecidableEq, Repr

/-- Why the machine stops. No command raises one: an HCE error is a recorded status (60_exceptions.md R240, R247). -/
inductive Fault where
  /-- Raised by a `busRead` or `busWrite` whose byte offset is a multiple of 4 past the 64 words (20_memory.md R50, R63): the
  access does not reach the block. Safe: the model stops where the spec gives the access no meaning (log 11). -/
  | outsideRegisterMap
  deriving DecidableEq, Repr

/-- Why the model gives a step no meaning. -/
inductive Refusal where
  /-- Raised by an arm of `exec` for a command without a meaning; no arm does. Safe. -/
  | notModelled (mnemonic : String)
  /-- Raised by a `busRead` or `busWrite` whose byte offset is not a multiple of 4: "a model refuses it" (20_memory.md
  R56). Safe. -/
  | misalignedOffset
  deriving DecidableEq, Repr

/-- The machine right after reset (10_state.md R48, 70_reset_and_hazards.md R270, R271): the internal CLEAR is pending. NODE,
CLEN and CVAL list nothing (DESIGN CHOICE, log 7); FIFO_DEPTH is the default 16 (DESIGN CHOICE, log 1); no outside event is
scheduled and nothing has been read (DESIGN CHOICE, log 2, log 3). -/
def State.reset : State where
  pending := some 0x01000000#32
  phase := .empty
  err := .noError
  errinfo := 0#32
  overrun := false
  underflow := false
  freq := []
  total := 0#32
  ndist := 0#9
  node := []
  next := 0#10
  root := NULL
  cvalid := []
  clen := []
  cval := []
  cursor := NULL
  out := []
  packbuf := 0#32
  packcnt := 0#5
  bitcnt := 0#64
  cost := 0#64
  result0 := 0#32
  result1 := 0#32
  codew := Vector.replicate 8 0#32
  params := Config.defaultParams
  schedule := []
  hostReads := []

end Sys2Proof.Machine
end

