-- ==== Sys2Proof/Machine/Flags.lean ====
section
/-! DEFINITION. The codes and flags the HCE shows or tests: PHASE and ERR as numbers (10_state.md R25, 60_exceptions.md
R241), BUSY and AT_ROOT, the STATUS word (10_state.md R41), which commands the error state keeps (60_exceptions.md R243) and
in which phases a command may run (30_encoding.md R86). -/

namespace Sys2Proof.Machine

/-- PHASE as its 3-bit value (10_state.md R25). -/
def Phase.code : Phase → BitVec 3
  | .empty => 0#3
  | .counting => 1#3
  | .built => 2#3
  | .ready => 3#3
  | .loaded => 4#3

/-- ERR as its 4-bit value (60_exceptions.md R241). -/
def ErrCode.code : ErrCode → BitVec 4
  | .noError => 0#4
  | .emptyInput => 1#4
  | .missingSymbol => 2#4
  | .truncatedStream => 3#4
  | .corruptTree => 4#4
  | .corruptTable => 5#4
  | .countOverflow => 6#4
  | .illegalCommand => 7#4
  | .sequenceError => 8#4
  | .nodeOverflow => 9#4

/-- The kind of a node as its 2-bit value (10_state.md R29). -/
def NodeKind.code : NodeKind → BitVec 2
  | .leaf => 1#2
  | .internal => 2#2

/-- BUSY: PENDING ≠ none (10_state.md R24). -/
def State.busy (s : State) : Bool := s.pending.isSome

/-- AT_ROOT: ROOT ≠ NULL and CURSOR = ROOT (10_state.md R41). -/
def State.atRoot (s : State) : Bool := decide (s.root ≠ NULL) && decide (s.cursor = s.root)

/-- The STATUS word (10_state.md R41): reserved [31:11], AT_ROOT 10, UNDERFLOW 9, OVERRUN 8, ERR [7:4], PHASE [3:1],
BUSY 0. -/
def State.status (s : State) : Word :=
  0#21 ++ BitVec.ofBool s.atRoot ++ BitVec.ofBool s.underflow ++ BitVec.ofBool s.overrun ++ s.err.code ++ s.phase.code
    ++ BitVec.ofBool s.busy

/-- The commands that run while ERR ≠ 0: NOP, CLEAR, READCODE, READFREQ, READNODE, ACKERR, by opcode (30_encoding.md R90,
60_exceptions.md R243). -/
def keptInError (op : BitVec 8) : Bool :=
  [0x00#8, 0x01#8, 0x0A#8, 0x0B#8, 0x0C#8, 0x0D#8].contains op

/-- The phases a command may run in (30_encoding.md R86). -/
def legalIn : Instr → Phase → Bool
  | .nop, _ => true
  | .clear, _ => true
  | .ackerr, _ => true
  | .readcode _, _ => true
  | .readfreq _, _ => true
  | .readnode _, _ => true
  | .count _, p => [Phase.empty, Phase.counting].contains p
  | .build, p => [Phase.empty, Phase.counting].contains p
  | .gen, p => [Phase.built].contains p
  | .encode _, p => [Phase.ready, Phase.loaded].contains p
  | .flush, p => [Phase.ready, Phase.loaded].contains p
  | .decode _ _, p => [Phase.built, Phase.ready, Phase.loaded].contains p
  | .decend, p => [Phase.built, Phase.ready, Phase.loaded].contains p
  | .loadcode _ _, p => [Phase.empty, Phase.loaded].contains p

end Sys2Proof.Machine
end

