-- ==== Sys2Proof/Machine/Operands.lean ====
section
/-! DEFINITION. What a command reads besides its fields and what an error records of them: the code value in CW
(10_state.md R37, 30_encoding.md R82), the bits of a DECODE operand, the 24-bit details of 60_exceptions.md R241, and
need(w) (20_memory.md R57). -/

namespace Sys2Proof.Machine

/-- CW = {CODEW[7], …, CODEW[0]} (10_state.md R37). -/
def State.cw (s : State) : BitVec 256 :=
  s.codew[7] ++ s.codew[6] ++ s.codew[5] ++ s.codew[4] ++ s.codew[3] ++ s.codew[2] ++ s.codew[1] ++ s.codew[0]

/-- The registers CODEW[0..7] that hold CW: CODEW[k] = CW[32k+31:32k] (10_state.md R37). -/
def codewOf (cw : BitVec 256) : Vector Word 8 := Vector.ofFn fun k => cw.extractLsb' (32 * k) 32

/-- CW[255:len] ≠ 0: the staged code value has bits beyond len (43_code_table.md R163, reason 3). -/
def bitsBeyond (cw : BitVec 256) (len : BitVec 8) : Bool := decide (cw >>> len.toNat ≠ 0#256)

/-- CW[len−1:0] as a stored code value (43_code_table.md R163): the bits at or above len are 0 (10_state.md R31). -/
def codeOperand (cw : BitVec 256) (len : BitVec 8) : CodeVal :=
  (cw &&& ~~~(BitVec.allOnes 256 <<< len.toNat)).setWidth 255

/-- v[k], the bit of a code value at position k (43_code_table.md R161). -/
def codeBit (v : CodeVal) (k : Nat) : Bool := v.getLsbD k

/-- bits[15 − j], the j-th bit DECODE consumes (45_decoder.md R200). -/
def streamBit (bits : BitVec 16) (j : Nat) : Bool := bits.getLsbD (15 - j)

/-- zext_24(sym) (60_exceptions.md R241). -/
def symDetail (sym : Symbol) : BitVec 24 := sym.setWidth 24

/-- zext_24(CURSOR), TruncatedStream's detail (60_exceptions.md R241). -/
def cursorDetail (cursor : NodeIdx) : BitVec 24 := cursor.setWidth 24

/-- CorruptTree's detail: j at [14:10], b at [9], CURSOR at [8:0] (60_exceptions.md R241). -/
def treeDetail (j : Nat) (b : Bool) (cursor : NodeIdx) : BitVec 24 :=
  0#9 ++ BitVec.ofNat 5 j ++ BitVec.ofBool b ++ cursor

/-- CorruptTable's detail: reason at [11:8], sym at [7:0] (60_exceptions.md R241). -/
def tableDetail (reason : BitVec 4) (sym : Symbol) : BitVec 24 := 0#12 ++ reason ++ sym

/-- need(w): how many free FIFO entries the word w waits for (20_memory.md R57). -/
def need (w : Word) : Nat :=
  match (opcodeOf w).toNat with
  | 0x05 => 8
  | 0x06 => 1
  | 0x07 =>
    let n := (nField (operandOf w)).toNat
    if 1 ≤ n ∧ n ≤ 16 then n else 0
  | _ => 0

end Sys2Proof.Machine
end

