-- ==== Sys2Proof/Machine/Ops.lean ====
section
/-! DEFINITION. The operations the commands share: reading and writing an internal memory (20_memory.md R62, 00_scope.md R7),
allocating a node (42_tree_builder.md R142), recording an error and returning from one (60_exceptions.md R241, R242, R248),
and the checks every command passes first (30_encoding.md R90). -/

namespace Sys2Proof.Machine

/-! ### An internal memory -/

/-- The value at index `a`; an unlisted index reads `d`. -/
def Memory.read {α : Type} (d : α) : Memory α → Nat → α
  | [], _ => d
  | c :: t, a => if c.1 = a then c.2 else Memory.read d t a

/-- The memory without an entry for `a`. -/
def Memory.erase {α : Type} (m : Memory α) (a : Nat) : Memory α := m.filter fun c => decide (c.1 ≠ a)

/-- The memory with the entry (a, v) put before the first larger index. -/
def Memory.insert {α : Type} : Memory α → Nat → α → Memory α
  | [], a, v => [(a, v)]
  | c :: t, a, v => if a < c.1 then (a, v) :: c :: t else c :: Memory.insert t a v

/-- `x[a] <- v` (00_scope.md R7), keeping the canonical form: a write of `d` leaves `a` unlisted. -/
def Memory.write {α : Type} [DecidableEq α] (d : α) (m : Memory α) (a : Nat) (v : α) : Memory α :=
  if v = d then Memory.erase m a else Memory.insert (Memory.erase m a) a v

/-- The canonical form: indices strictly rising and below `size`, and no entry equal to what an unlisted index reads. -/
abbrev Memory.wf {α : Type} (d : α) (size : Nat) (m : Memory α) : Prop :=
  m.Pairwise (fun c c' => c.1 < c'.1) ∧ ∀ c ∈ m, c.1 < size ∧ c.2 ≠ d

/-- What an unlisted entry of NODE reads as. DESIGN CHOICE (log 7): no rule reaches one (10_state.md R47). -/
def Node.unlisted : Node := ⟨.internal, 0#32, 0#8, NULL, NULL⟩

/-- NODE[n] (10_state.md R29). -/
def nodeAt (m : Memory Node) (n : NodeIdx) : Node := Memory.read Node.unlisted m n.toNat

/-- FREQ[sym] (10_state.md R28). -/
def State.freqAt (s : State) (sym : Symbol) : Word := Memory.read 0#32 s.freq sym.toNat

/-- CVALID[sym] (10_state.md R31). -/
def State.cvalidAt (s : State) (sym : Symbol) : Bool := Memory.read false s.cvalid sym.toNat

/-- CLEN[sym] (10_state.md R31). -/
def State.clenAt (s : State) (sym : Symbol) : BitVec 8 := Memory.read 0#8 s.clen sym.toNat

/-- CVAL[sym] (10_state.md R31). -/
def State.cvalAt (s : State) (sym : Symbol) : CodeVal := Memory.read 0#255 s.cval sym.toNat

/-- child(n, b): NODE[n].left for 0, NODE[n].right for 1 (00_scope.md R7). -/
def child (m : Memory Node) (n : NodeIdx) (b : Bool) : NodeIdx := if b then (nodeAt m n).right else (nodeAt m n).left

/-- The record with its child on side `b` replaced. -/
def Node.withChild (r : Node) (b : Bool) (c : NodeIdx) : Node := if b then { r with right := c } else { r with left := c }

/-- A new LEAF: no children (10_state.md R29). -/
def Node.leafOf (weight : Word) (sym : Symbol) : Node := ⟨.leaf, weight, sym, NULL, NULL⟩

/-- A new INTERNAL node: sym 0 (10_state.md R29). -/
def Node.internalOf (weight : Word) (left right : NodeIdx) : Node := ⟨.internal, weight, 0#8, left, right⟩

/-! ### The parts of the state a command works on -/

/-- NODE and NEXT. -/
def State.arena (s : State) : Arena := ⟨s.node, s.next⟩

/-- The state with NODE and NEXT replaced. -/
def State.withArena (s : State) (ar : Arena) : State := { s with node := ar.node, next := ar.next }

/-- CVALID, CLEN and CVAL. -/
def State.table (s : State) : CodeTable := ⟨s.cvalid, s.clen, s.cval⟩

/-- The state with the code table replaced. -/
def State.withTable (s : State) (t : CodeTable) : State := { s with cvalid := t.cvalid, clen := t.clen, cval := t.cval }

/-- The packer's registers and OUT. -/
def State.packer (s : State) : Packer := ⟨s.out, s.packbuf, s.packcnt, s.bitcnt⟩

/-- The state with the packer's registers and OUT replaced. -/
def State.withPacker (s : State) (p : Packer) : State :=
  { s with out := p.out, packbuf := p.packbuf, packcnt := p.packcnt, bitcnt := p.bitcnt }

/-- NODE[n] <- r. -/
def Arena.put (ar : Arena) (n : NodeIdx) (r : Node) : Arena :=
  { ar with node := Memory.write Node.unlisted ar.node n.toNat r }

/-- alloc(r): the index handed out, and the arena with the record written there and NEXT incremented (42_tree_builder.md
R142, 10_state.md R30). With NEXT ≥ 511, which no rule allows, see log 10. -/
def Arena.alloc (ar : Arena) (r : Node) : NodeIdx × Arena :=
  let n : NodeIdx := ar.next.setWidth 9
  (n, { ar.put n r with next := ar.next + 1#10 })

/-- CVALID[s] <- 1 ; CLEN[s] <- l ; CVAL[s] <- v (43_code_table.md R160, R163). -/
def CodeTable.assign (t : CodeTable) (sym : Symbol) (len : BitVec 8) (v : CodeVal) : CodeTable :=
  ⟨Memory.write false t.cvalid sym.toNat true, Memory.write 0#8 t.clen sym.toNat len,
    Memory.write 0#255 t.cval sym.toNat v⟩

/-! ### Errors, and the checks before a command -/

/-- `raise e(detail)` by a command of opcode `op` (60_exceptions.md R241): the error is recorded only if none is. This is
all an error saves or changes (R242, R247). -/
def raise (op : BitVec 8) (e : ErrCode) (detail : BitVec 24) (s : State) : State :=
  if s.err = .noError then { s with err := e, errinfo := op ++ detail } else s

/-- The return from an error that keeps the job, ACKERR's effect (40_control.md R102, 60_exceptions.md R248). -/
def acknowledge (s : State) : State :=
  { s with err := .noError, errinfo := 0#32, overrun := false, underflow := false, cursor := s.root }

/-- Whether the Engine drops a command of opcode `op` (30_encoding.md R90, 60_exceptions.md R243). -/
def State.drops (s : State) (op : BitVec 8) : Bool := decide (s.err ≠ .noError) && !keptInError op

/-- The dispatch of 30_encoding.md R90 around the rule of a command: dropped in the error state, then the legality check
(a DECODE whose n no word spells is illegal too, log 18), then the phase check, then the command's effect. The first that
applies decides (60_exceptions.md R244). -/
def command (i : Instr) (effect : State → State) (s : State) : Host.Outcome State Fault Refusal :=
  if s.drops i.opcode then .next s
  else if !i.wellFormed then .next (raise i.opcode .illegalCommand i.operand s)
  else if !legalIn i s.phase then .next (raise i.opcode .sequenceError (s.phase.code.setWidth 24) s)
  else .next (effect s)

end Sys2Proof.Machine
end

