-- ==== Sys2Proof/Machine/CodeTable.lean ====
section
/-! DEFINITION. The code table generator GEN (43_code_table.md R160, R161) and the code loader LOADCODE (R163). -/

namespace Sys2Proof.Machine

/-! ### GEN -/

/-- Visit(n, v, l) (R160): the path of each leaf below `n` written into the table, left first. The first argument bounds the
depth; NNODE suffices in every tree BUILD makes, where a child's index is below its parent's (42_tree_builder.md R146 (e)). -/
def visit (m : Memory Node) : Nat → NodeIdx → CodeVal → Nat → CodeTable → CodeTable
  | 0, _, _, _, t => t
  | depth + 1, n, v, l, t =>
    match (nodeAt m n).kind with
    | .leaf => t.assign (nodeAt m n).sym (BitVec.ofNat 8 l) v
    | .internal =>
      let t₁ := if (nodeAt m n).left = NULL then t else visit m depth (nodeAt m n).left (2 * v) (l + 1) t
      if (nodeAt m n).right = NULL then t₁ else visit m depth (nodeAt m n).right (2 * v + 1) (l + 1) t₁

/-- Σ FREQ[s]·CLEN[s] over the symbols with a code, exact (R160). -/
def encodedLength (freq : Memory Word) (t : CodeTable) : Nat :=
  ((List.range Config.nsym).map fun a =>
    if Memory.read false t.cvalid a then (Memory.read 0#32 freq a).toNat * (Memory.read 0#8 t.clen a).toNat else 0).sum

/-- The code table GEN writes (R160). -/
def generatedTable (s : State) : CodeTable := visit s.node Config.nnode s.root 0#255 0 s.table

/-- GEN's effect (R160): the code table, COST in 64 bits, and PHASE. -/
def genEffect (s : State) : State :=
  let t := generatedTable s
  { s.withTable t with cost := BitVec.ofNat 64 (encodedLength s.freq t), phase := .ready }

/-- GEN (R160). -/
def execGen (s : State) : Host.Outcome State Fault Refusal := command .gen genEffect s

/-! ### LOADCODE -/

/-- How LOADCODE's walk ends (R163). -/
inductive LoadWalk where
  /-- At a NULL child of node `n`, with the code bits at positions k, …, 0 still to place. -/
  | stopped (n : NodeIdx) (k : Nat)
  /-- Reason 4: an existing code is a prefix of the new one. -/
  | oldPrefixesNew
  /-- Reason 5: the new code is a prefix of an existing one. -/
  | newPrefixesOld
  deriving DecidableEq, Repr

/-- The walk from node `n` with the bit at position `k` next (R163; k = len − i, so i = len is k = 0). It writes nothing. -/
def loadWalk (m : Memory Node) (v : CodeVal) : Nat → NodeIdx → LoadWalk
  | k, n =>
    let c := child m n (codeBit v k)
    if c = NULL then .stopped n k
    else if (nodeAt m c).kind = .leaf then .oldPrefixesNew
    else
      match k with
      | 0 => .newPrefixesOld
      | k' + 1 => loadWalk m v k' c

/-- The new node for the bit at position `k`: the LEAF for the last bit, else an INTERNAL node; weight 0 (R163). -/
def pathNode (sym : Symbol) (k : Nat) : Node := if k = 0 then Node.leafOf 0#32 sym else Node.internalOf 0#32 NULL NULL

/-- One step of the commit loop (R163): allocate the next path node and make it the child of `n` on the bit's side. -/
def placeNode (sym : Symbol) (v : CodeVal) (k : Nat) (n : NodeIdx) (ar : Arena) : NodeIdx × Arena :=
  let got := ar.alloc (pathNode sym k)
  (got.1, got.2.put n ((nodeAt got.2.node n).withChild (codeBit v k) got.1))

/-- The commit loop over the bits at positions k, …, 0 below node `n` (R163). -/
def placePath (sym : Symbol) (v : CodeVal) : Nat → NodeIdx → Arena → Arena
  | 0, n, ar => (placeNode sym v 0 n ar).2
  | k + 1, n, ar => placePath sym v k (placeNode sym v (k + 1) n ar).1 (placeNode sym v (k + 1) n ar).2

/-- The tree LOADCODE walks and extends (R163): in EMPTY a new tree of one INTERNAL root at index 0, committed only if the
command succeeds; else the tree at ROOT. -/
def loadTree (s : State) : NodeIdx × Arena :=
  if s.phase = .empty then (0#9, ⟨(s.arena.put 0#9 (Node.internalOf 0#32 NULL NULL)).node, 1#10⟩) else (s.root, s.arena)

/-- The commit of a code of length `len` for `sym`: the path placed, the table entry, NDIST and PHASE; on a new tree also ROOT
and CURSOR (R163). -/
def loadCommit (sym : Symbol) (len : BitVec 8) (v : CodeVal) (n : NodeIdx) (k : Nat) (s : State) : State :=
  let s₁ := (s.withArena (placePath sym v k n (loadTree s).2)).withTable (s.table.assign sym len v)
  { s₁ with
    root := (loadTree s).1
    cursor := if s.phase = .empty then 0#9 else s.cursor
    ndist := s.ndist + 1#9
    phase := .loaded }

/-- LOADCODE's effect (R163): the checks in their order, and then the commit. -/
def loadcodeEffect (sym : Symbol) (len : BitVec 8) (s : State) : State :=
  let refuse := fun (e : ErrCode) (detail : BitVec 24) => raise (Instr.loadcode sym len).opcode e detail s
  if len = 0#8 then refuse .corruptTable (tableDetail 1#4 sym)
  else if s.cvalidAt sym then refuse .corruptTable (tableDetail 2#4 sym)
  else if bitsBeyond s.cw len then refuse .corruptTable (tableDetail 3#4 sym)
  else
    let v := codeOperand s.cw len
    match loadWalk (loadTree s).2.node v (len.toNat - 1) (loadTree s).1 with
    | .oldPrefixesNew => refuse .corruptTable (tableDetail 4#4 sym)
    | .newPrefixesOld => refuse .corruptTable (tableDetail 5#4 sym)
    | .stopped n k =>
      if Config.nnode < (loadTree s).2.next.toNat + (k + 1) then refuse .nodeOverflow (symDetail sym)
      else loadCommit sym len v n k s

/-- LOADCODE sym, len (R163). -/
def execLoadcode (sym : Symbol) (len : BitVec 8) (s : State) : Host.Outcome State Fault Refusal :=
  command (.loadcode sym len) (loadcodeEffect sym len) s

end Sys2Proof.Machine
end

