-- ==== Sys2Proof/Machine/Control.lean ====
section
/-! DEFINITION. The control commands NOP, CLEAR and ACKERR (40_control.md R100, R101, R102). -/

namespace Sys2Proof.Machine

/-- NOP (R100): no state changes. -/
def execNop (s : State) : Host.Outcome State Fault Refusal := command .nop id s

/-- CLEAR's effect (R101, 10_state.md R48): a new job. OVERRUN and UNDERFLOW stay; NODE, CLEN and CVAL are not written, since
the rule writes none of them (DESIGN CHOICE, log 8). -/
def clearEffect (s : State) : State :=
  { s with
    phase := .empty, err := .noError, errinfo := 0#32
    freq := [], total := 0#32, ndist := 0#9
    next := 0#10, root := NULL, cvalid := [], cursor := NULL
    out := [], packbuf := 0#32, packcnt := 0#5, bitcnt := 0#64, cost := 0#64
    result0 := 0#32, result1 := 0#32, codew := Vector.replicate 8 0#32 }

/-- CLEAR (R101). -/
def execClear (s : State) : Host.Outcome State Fault Refusal := command .clear clearEffect s

/-- ACKERR (R102): ERR, ERRINFO, OVERRUN and UNDERFLOW become 0 and CURSOR becomes ROOT. -/
def execAckerr (s : State) : Host.Outcome State Fault Refusal := command .ackerr acknowledge s

end Sys2Proof.Machine
end

