-- ==== Sys2Proof/Machine/Decoder.lean ====
section
/-! DEFINITION. The bitstream decoder DECODE and DECEND (45_decoder.md R200, R201). -/

namespace Sys2Proof.Machine

/-- DECODE's loop (R200) over the bits j, j+1, …, as many as the first argument says. A NULL child ends it with CorruptTree's
detail; what the bits before it did is kept (60_exceptions.md R242). -/
def decodeLoop (m : Memory Node) (root : NodeIdx) (bits : BitVec 16) : Nat → Nat → NodeIdx → List Word → DecodeRun
  | 0, _, cursor, out => ⟨cursor, out, none⟩
  | left + 1, j, cursor, out =>
    let b := streamBit bits j
    let c := child m cursor b
    if c = NULL then ⟨cursor, out, some (treeDetail j b cursor)⟩
    else if (nodeAt m c).kind = .leaf then
      decodeLoop m root bits left (j + 1) root (out ++ [(nodeAt m c).sym.setWidth 32])
    else decodeLoop m root bits left (j + 1) c out

/-- What DECODE's walk reaches from this state (R200). -/
def decodeRun (n : BitVec 5) (bits : BitVec 16) (s : State) : DecodeRun :=
  decodeLoop s.node s.root bits n.toNat 0 s.cursor s.out

/-- DECODE's effect (R200): CURSOR and OUT as the walk leaves them, and CorruptTree where it met a NULL child. -/
def decodeEffect (n : BitVec 5) (bits : BitVec 16) (s : State) : State :=
  let run := decodeRun n bits s
  let moved := { s with cursor := run.cursor, out := run.out }
  match run.corrupt with
  | none => moved
  | some detail => raise (Instr.decode n bits).opcode .corruptTree detail moved

/-- DECODE n, bits (R200). -/
def execDecode (n : BitVec 5) (bits : BitVec 16) (s : State) : Host.Outcome State Fault Refusal :=
  command (.decode n bits) (decodeEffect n bits) s

/-- DECEND's effect (R201): TruncatedStream unless the cursor rests at the root; nothing else. -/
def decendEffect (s : State) : State :=
  if s.cursor = s.root then s else raise Instr.decend.opcode .truncatedStream (cursorDetail s.cursor) s

/-- DECEND (R201). -/
def execDecend (s : State) : Host.Outcome State Fault Refusal := command .decend decendEffect s

end Sys2Proof.Machine
end

