-- ==== Sys2Proof/Machine/Encoder.lean ====
section
/-! DEFINITION. The bit packer, ENCODE and FLUSH (44_encoder.md R180, R181, R182). -/

namespace Sys2Proof.Machine

/-- PACKBUF[31 − cnt] <- b (R180). -/
def setPackBit (buf : Word) (cnt : Nat) (b : Bool) : Word :=
  let at31 : Word := 0x80000000#32 >>> cnt
  if b then buf ||| at31 else buf &&& ~~~at31

/-- PutBit(b) (R180): the bit placed and counted; a full word is pushed at once. -/
def putBit (b : Bool) (p : Packer) : Packer :=
  let buf := setPackBit p.packbuf p.packcnt.toNat b
  if p.packcnt.toNat + 1 = 32 then
    { out := p.out ++ [buf], packbuf := 0#32, packcnt := 0#5, bitcnt := p.bitcnt + 1#64 }
  else
    { out := p.out, packbuf := buf, packcnt := p.packcnt + 1#5, bitcnt := p.bitcnt + 1#64 }

/-- PutBit of v[j] for j = L−1, …, 0 in that order (R181). -/
def putCode (v : CodeVal) : Nat → Packer → Packer
  | 0, p => p
  | j + 1, p => putCode v j (putBit (codeBit v j) p)

/-- ENCODE's effect (R181): MissingSymbol when `sym` has no code, else its bits appended, first code bit first. -/
def encodeEffect (sym : Symbol) (s : State) : State :=
  if s.cvalidAt sym then s.withPacker (putCode (s.cvalAt sym) (s.clenAt sym).toNat s.packer)
  else raise (Instr.encode sym).opcode .missingSymbol (symDetail sym) s

/-- ENCODE sym (R181). -/
def execEncode (sym : Symbol) (s : State) : Host.Outcome State Fault Refusal :=
  command (.encode sym) (encodeEffect sym) s

/-- FLUSH's effect (R182): the partly filled word, if any, is pushed; BITCNT stays. -/
def flushEffect (s : State) : State :=
  if s.packcnt = 0#5 then s else { s with out := s.out ++ [s.packbuf], packbuf := 0#32, packcnt := 0#5 }

/-- FLUSH (R182). -/
def execFlush (s : State) : Host.Outcome State Fault Refusal := command .flush flushEffect s

end Sys2Proof.Machine
end

