-- ==== Sys2Proof/Machine/Frequency.lean ====
section
/-! DEFINITION. The frequency counter COUNT (41_frequency.md R120). -/

namespace Sys2Proof.Machine

/-- One occurrence of `sym` counted: FREQ[sym], TOTAL, NDIST when FREQ[sym] was 0, and PHASE (R120). -/
def countSymbol (sym : Symbol) (s : State) : State :=
  { s with
    freq := Memory.write 0#32 s.freq sym.toNat (s.freqAt sym + 1#32)
    total := s.total + 1#32
    ndist := if s.freqAt sym = 0#32 then s.ndist + 1#9 else s.ndist
    phase := .counting }

/-- COUNT's effect (R120): CountOverflow when TOTAL is 2^32 − 1, and then nothing is counted. -/
def countEffect (sym : Symbol) (s : State) : State :=
  if s.total = 0xFFFFFFFF#32 then raise (Instr.count sym).opcode .countOverflow (symDetail sym) s
  else countSymbol sym s

/-- COUNT sym (R120). -/
def execCount (sym : Symbol) (s : State) : Host.Outcome State Fault Refusal := command (.count sym) (countEffect sym) s

end Sys2Proof.Machine
end

