-- ==== Sys2Proof/Machine/Readback.lean ====
section
/-! DEFINITION. The read-back commands READCODE, READFREQ and READNODE (46_readback.md R220, R221, R222). -/

namespace Sys2Proof.Machine

/-- READCODE's effect (R220): the valid flag and length in RESULT0, the code value in CW, RESULT1 0. -/
def readcodeEffect (sym : Symbol) (s : State) : State :=
  if s.cvalidAt sym then
    { s with
      result0 := 1#1 ++ 0#23 ++ s.clenAt sym, result1 := 0#32
      codew := codewOf ((s.cvalAt sym).setWidth 256) }
  else { s with result0 := 0#32, result1 := 0#32, codew := codewOf 0#256 }

/-- READCODE sym (R220). -/
def execReadcode (sym : Symbol) (s : State) : Host.Outcome State Fault Refusal :=
  command (.readcode sym) (readcodeEffect sym) s

/-- READFREQ's effect (R221). -/
def readfreqEffect (sym : Symbol) (s : State) : State := { s with result0 := s.freqAt sym, result1 := 0#32 }

/-- READFREQ sym (R221). -/
def execReadfreq (sym : Symbol) (s : State) : Host.Outcome State Fault Refusal :=
  command (.readfreq sym) (readfreqEffect sym) s

/-- A node as READNODE shows it in RESULT0 (R222). -/
def nodeWord (r : Node) : Word :=
  match r.kind with
  | .leaf => r.kind.code ++ 0#22 ++ r.sym
  | .internal => r.kind.code ++ 0#12 ++ r.right ++ r.left

/-- READNODE's effect (R222): an index that is not allocated answers 0, 0 without a read of NODE. -/
def readnodeEffect (idx : NodeIdx) (s : State) : State :=
  if idx.toNat < s.next.toNat then { s with result0 := nodeWord (nodeAt s.node idx), result1 := (nodeAt s.node idx).weight }
  else { s with result0 := 0#32, result1 := 0#32 }

/-- READNODE idx (R222). -/
def execReadnode (idx : NodeIdx) (s : State) : Host.Outcome State Fault Refusal :=
  command (.readnode idx) (readnodeEffect idx) s

end Sys2Proof.Machine
end

