-- ==== Sys2Proof/Machine/TreeBuilder.lean ====
section
/-! DEFINITION. The priority queue and the tree builder BUILD (42_tree_builder.md R140 to R145). The queue PQ is a local list
of node indices: only its contents as a set matter (R141, 10_state.md R38; log 14). -/

namespace Sys2Proof.Machine

/-- The key order (weight, index), lexicographic (R140). -/
def keyBefore (m : Memory Node) (i j : NodeIdx) : Bool :=
  decide ((nodeAt m i).weight < (nodeAt m j).weight) ||
    (decide ((nodeAt m i).weight = (nodeAt m j).weight) && decide (i < j))

/-- The index of least key among `i` and a list (R141). -/
def leastKey (m : Memory Node) : NodeIdx → List NodeIdx → NodeIdx
  | i, [] => i
  | i, j :: rest => leastKey m (if keyBefore m j i then j else i) rest

/-- pop_min (R141): the index of least key and the queue without it; none on the empty queue. -/
def popMin (m : Memory Node) : List NodeIdx → Option (NodeIdx × List NodeIdx)
  | [] => none
  | i :: rest => some (leastKey m i rest, (i :: rest).erase (leastKey m i rest))

/-- One LEAF per symbol with FREQ ≠ 0, in the order of the list of symbols, each inserted into PQ (R142, R143). -/
def addLeaves (freq : Memory Word) : List Nat → Arena → List NodeIdx → Arena × List NodeIdx
  | [], ar, pq => (ar, pq)
  | a :: rest, ar, pq =>
    let f := Memory.read 0#32 freq a
    if f = 0#32 then addLeaves freq rest ar pq
    else
      let got := ar.alloc (Node.leafOf f (BitVec.ofNat 8 a))
      addLeaves freq rest got.2 (got.1 :: pq)

/-- One merge (R143, R144): the node popped first becomes the left child, the second the right. -/
def mergeNode (m : Memory Node) (a b : NodeIdx) : Node :=
  Node.internalOf ((nodeAt m a).weight + (nodeAt m b).weight) a b

/-- The merge loop (R143): while PQ holds two, pop two and insert their parent; then the root is the one left. The first
argument bounds the number of rounds; |PQ| of them suffice, since each merge shortens PQ by one. -/
def mergeLoop : Nat → Arena → List NodeIdx → NodeIdx × Arena
  | 0, ar, _ => (NULL, ar)
  | rounds + 1, ar, pq =>
    match popMin ar.node pq with
    | none => (NULL, ar)
    | some (a, pq₁) =>
      match popMin ar.node pq₁ with
      | none => (a, ar)
      | some (b, pq₂) =>
        let got := ar.alloc (mergeNode ar.node a b)
        mergeLoop rounds got.2 (got.1 :: pq₂)

/-- The tree of a table with one symbol (R145): an INTERNAL root over the leaf at index 0, its right child NULL. -/
def singleRoot (ar : Arena) : NodeIdx × Arena :=
  ar.alloc (Node.internalOf (nodeAt ar.node 0#9).weight 0#9 NULL)

/-- The tree BUILD makes of the frequency table: its root, and the arena with its nodes (R143). -/
def buildTree (s : State) : NodeIdx × Arena :=
  let leaves := addLeaves s.freq (List.range Config.nsym) s.arena []
  if s.ndist = 1#9 then singleRoot leaves.1 else mergeLoop leaves.2.length leaves.1 leaves.2

/-- BUILD's effect (R143): EmptyInput when no symbol is counted; else the tree, ROOT, CURSOR and PHASE. -/
def buildEffect (s : State) : State :=
  if s.ndist = 0#9 then raise Instr.build.opcode .emptyInput 0#24 s
  else
    let t := buildTree s
    { s.withArena t.2 with root := t.1, cursor := t.1, phase := .built }

/-- BUILD (R143). -/
def execBuild (s : State) : Host.Outcome State Fault Refusal := command .build buildEffect s

end Sys2Proof.Machine
end

