-- ==== Sys2Proof/Machine/Dispatch.lean ====
section
/-! DEFINITION. The meaning of every command (30_encoding.md R83, R90): one arm per constructor, each one call. -/

namespace Sys2Proof.Machine

def exec (i : Instr) (s : State) : Host.Outcome State Fault Refusal :=
  match i with
  | .nop => Sys2Proof.Machine.execNop s
  | .clear => Sys2Proof.Machine.execClear s
  | .count sym => Sys2Proof.Machine.execCount sym s
  | .build => Sys2Proof.Machine.execBuild s
  | .gen => Sys2Proof.Machine.execGen s
  | .encode sym => Sys2Proof.Machine.execEncode sym s
  | .flush => Sys2Proof.Machine.execFlush s
  | .decode n bits => Sys2Proof.Machine.execDecode n bits s
  | .decend => Sys2Proof.Machine.execDecend s
  | .loadcode sym len => Sys2Proof.Machine.execLoadcode sym len s
  | .readcode sym => Sys2Proof.Machine.execReadcode sym s
  | .readfreq sym => Sys2Proof.Machine.execReadfreq sym s
  | .readnode idx => Sys2Proof.Machine.execReadnode idx s
  | .ackerr => Sys2Proof.Machine.execAckerr s

end Sys2Proof.Machine
end

