-- ==== Sys2Proof/Machine/HostPort.lean ====
section
/-! DEFINITION. The host port (10_state.md R40 to R45, 20_memory.md R50 to R56): the register map, RegRead, RegWrite, the pop
of OUT_DATA, the same through a byte-addressed bridge, and the reset input (70_reset_and_hazards.md R270). -/

namespace Sys2Proof.Machine

/-- The register at a word index (10_state.md R40). -/
def Reg.ofIdx (idx : BitVec 6) : Reg :=
  match idx.toNat with
  | 0 => .id
  | 1 => .config
  | 2 => .cmd
  | 3 => .status
  | 4 => .errinfo
  | 5 => .ndist
  | 6 => .total
  | 7 => .root
  | 8 => .next
  | 9 => .cursor
  | 10 => .result0
  | 11 => .result1
  | 12 => .outData
  | 13 => .outCount
  | 14 => .packcnt
  | 15 => .packbuf
  | 16 => .bitcntLo
  | 17 => .bitcntHi
  | 18 => .costLo
  | 19 => .costHi
  | k => if h : 20 ≤ k ∧ k ≤ 27 then .codew ⟨k - 20, by omega⟩ else .reserved

/-- The word index of a register, idx(name) of R89; reserved stands for the first reserved word. -/
def Reg.idx : Reg → BitVec 6
  | .id => 0#6
  | .config => 1#6
  | .cmd => 2#6
  | .status => 3#6
  | .errinfo => 4#6
  | .ndist => 5#6
  | .total => 6#6
  | .root => 7#6
  | .next => 8#6
  | .cursor => 9#6
  | .result0 => 10#6
  | .result1 => 11#6
  | .outData => 12#6
  | .outCount => 13#6
  | .packcnt => 14#6
  | .packbuf => 15#6
  | .bitcntLo => 16#6
  | .bitcntHi => 17#6
  | .costLo => 18#6
  | .costHi => 19#6
  | .codew k => BitVec.ofNat 6 (20 + k.val)
  | .reserved => 28#6

/-- CONFIG = {FIFO_DEPTH[15:0], MAXLEN, SYMW} (10_state.md R43). -/
def configWord (p : Config.Params) : Word :=
  BitVec.ofNat 16 p.fifoDepth ++ BitVec.ofNat 8 Config.maxLen ++ BitVec.ofNat 8 Config.symw

/-- The value a read of a register returns (20_memory.md R51); OUT_DATA returns the head of OUT, or 0 (R53). -/
def State.regValue (s : State) : Reg → Word
  | .id => Config.idValue
  | .config => configWord s.params
  | .cmd => 0#32
  | .status => s.status
  | .errinfo => s.errinfo
  | .ndist => s.ndist.setWidth 32
  | .total => s.total
  | .root => s.root.setWidth 32
  | .next => s.next.setWidth 32
  | .cursor => s.cursor.setWidth 32
  | .result0 => s.result0
  | .result1 => s.result1
  | .outData => s.out.headD 0#32
  | .outCount => BitVec.ofNat 32 s.out.length
  | .packcnt => s.packcnt.setWidth 32
  | .packbuf => s.packbuf
  | .bitcntLo => s.bitcnt.extractLsb' 0 32
  | .bitcntHi => s.bitcnt.extractLsb' 32 32
  | .costLo => s.cost.extractLsb' 0 32
  | .costHi => s.cost.extractLsb' 32 32
  | .codew k => s.codew[k.val]
  | .reserved => 0#32

/-- What a read of OUT_DATA does (20_memory.md R53): the head is removed; on an empty OUT, UNDERFLOW is set. -/
def popOut (s : State) : State :=
  match s.out with
  | [] => { s with underflow := true }
  | _ :: rest => { s with out := rest }

/-- RegRead(idx) (20_memory.md R51): the value returned, and the state after. Only OUT_DATA has a side effect (R54). -/
def regRead (idx : BitVec 6) (s : State) : Word × State :=
  match Reg.ofIdx idx with
  | .outData => (s.regValue .outData, popOut s)
  | r => (s.regValue r, s)

/-- RegWrite(idx, v) (20_memory.md R52): CMD latches a command and CODEW a word, or OVERRUN is set while BUSY; a write
anywhere else has no effect. -/
def regWrite (idx : BitVec 6) (v : Word) (s : State) : State :=
  match Reg.ofIdx idx with
  | .cmd => if s.busy then { s with overrun := true } else { s with pending := some v }
  | .codew k => if s.busy then { s with overrun := true } else { s with codew := s.codew.set k.val v }
  | _ => s

/-- A Host step that reads (20_memory.md R51): the returned value is handed to the Host (log 3). -/
def hostRead (idx : BitVec 6) (s : State) : State :=
  let got := regRead idx s
  { got.2 with hostReads := got.2.hostReads ++ [(idx, got.1)] }

/-- An access at a byte offset from the block's base: word idx stands at offset 4·idx (20_memory.md R50); an offset that is
not a multiple of 4, wherever it lies, has no meaning and is refused (R56); an aligned offset past the 64 words is not in the
block (R63; log 11). -/
def busAccess (off : BitVec 32) (access : BitVec 6 → State → State) (s : State) : Host.Outcome State Fault Refusal :=
  if off.toNat % 4 ≠ 0 then .refused .misalignedOffset
  else if 256 ≤ off.toNat then .fault .outsideRegisterMap
  else .next (access (BitVec.ofNat 6 (off.toNat / 4)) s)

/-- The byte that byte lane `lane` of a byte-addressed bus carries of a data word (20_memory.md R50, 92_eei_decisions.md D31;
log 12). -/
def busByte (v : Word) (lane : Fin 4) : Byte := v.extractLsb' (8 * (Config.hostByteLanes lane).val) 8

/-- Reset (70_reset_and_hazards.md R270): any pending command is abandoned and every state element holds its value of
10_state.md R48. The parameters, the events still to come and what the Host has read are not the HCE's state (log 9). -/
def resetInput (s : State) : State :=
  { State.reset with params := s.params, schedule := s.schedule, hostReads := s.hostReads }

end Sys2Proof.Machine
end

