-- ==== Sys2Proof/Machine/Engine.lean ====
section
/-! DEFINITION. The Engine's step and its hold (20_memory.md R57, R58, 30_encoding.md R90), and what each event does. -/

namespace Sys2Proof.Machine

/-- Whether the Engine's step for the word `w` may run: |OUT| + need(w) ≤ FIFO_DEPTH (20_memory.md R57). -/
def State.roomFor (s : State) (w : Word) : Bool := decide (s.out.length + need w ≤ s.params.fifoDepth)

/-- The Engine's step is enabled (20_memory.md R57). -/
def State.engineEnabled (s : State) : Bool :=
  match s.pending with
  | none => false
  | some w => s.roomFor w

/-- An illegal word executed (30_encoding.md R85, R90): dropped in the error state unless its opcode is kept, else
IllegalCommand with the whole operand as its detail. -/
def illegalWord (w : Word) (s : State) : State :=
  if s.drops (opcodeOf w) then s else raise (opcodeOf w) .illegalCommand (operandOf w) s

/-- EngineStep on the pending word `w` (30_encoding.md R90): PENDING becomes none and the word's command runs. -/
def engineStep (w : Word) (s : State) : Host.Outcome State Fault Refusal :=
  match decode w with
  | .ok i => exec i { s with pending := none }
  | .error _ => .next (illegalWord w { s with pending := none })

/-- The Engine's turn: its step if enabled; else nothing of the command happens and it waits, or there is none (20_memory.md
R57, 70_reset_and_hazards.md R277; log 4). -/
def engineTurn (s : State) : Host.Outcome State Fault Refusal :=
  match s.pending with
  | none => .next s
  | some w => if s.roomFor w then engineStep w s else .next s

/-- What an event does. -/
def happen (e : Event) (s : State) : Host.Outcome State Fault Refusal :=
  match e with
  | .engine => engineTurn s
  | .read idx => .next (hostRead idx s)
  | .write idx v => .next (regWrite idx v s)
  | .busRead off => busAccess off hostRead s
  | .busWrite off v => busAccess off (fun idx => regWrite idx v) s
  | .reset => .next (resetInput s)

end Sys2Proof.Machine
end

