-- ==== Sys2Proof/Machine/Step.lean ====
section
/-! DEFINITION. One step of the machine: the next event of the schedule happens; with none left the Engine has the turn
(00_scope.md R8, 20_memory.md R59; log 2). -/

namespace Sys2Proof.Machine

/-- One step. -/
def step (s : State) : Host.Outcome State Fault Refusal :=
  match s.schedule with
  | [] => engineTurn s
  | e :: rest => happen e { s with schedule := rest }

/-- The state in which the word given by its `nbits` lowest bits is the command pending and the Engine has the next turn: what
an accepted CMD write and that turn give (20_memory.md R52, R57; log 6). -/
def State.withFetchWord (s : State) (nbits w : Nat) : State :=
  { s with pending := some (BitVec.ofNat 32 (w % 2 ^ nbits)), schedule := .engine :: s.schedule }

end Sys2Proof.Machine
end

