-- ==== Sys2Proof/Machine/HostMacros.lean ====
section
/-! DEFINITION. The host's side of 30_encoding.md R89 and R91: bare commands, register accesses and the pseudo-instructions
ISSUE, POLL, DRAIN, LDCODE, DECW, DECTAIL, ENCODE_MSG and DECODE_MSG, as a host program over the register port. None is a
command word. While the Host polls, the Engine has one turn in each round of the loop (DESIGN CHOICE, log 15). -/

namespace Sys2Proof.Machine

/-- What follows a next state; a fault or a refusal ends the run. -/
def andThen (o : Host.Outcome State Fault Refusal) (f : State → Host.Outcome State Fault Refusal) :
    Host.Outcome State Fault Refusal :=
  match o with
  | .next s => f s
  | .fault r => .fault r
  | .refused r => .refused r

/-- One round of POLL while BUSY: RD OUT_COUNT, RD OUT_DATA if it is not 0, and then the Engine's turn (R91). -/
def pollRound (s : State) : Host.Outcome State Fault Refusal :=
  let counted := hostRead (Reg.outCount).idx s
  engineTurn (if counted.out.isEmpty then counted else hostRead (Reg.outData).idx counted)

/-- POLL (R91), for at most as many rounds as the first argument says: RD STATUS, and done when bit 0 is 0. -/
def poll : Nat → State → Host.Outcome State Fault Refusal
  | 0, s => .next s
  | rounds + 1, s =>
    let seen := hostRead (Reg.status).idx s
    if s.busy then andThen (pollRound seen) (poll rounds) else .next seen

/-- DRAIN (R91): RD OUT_DATA while RD OUT_COUNT is not 0, for at most as many rounds as the first argument says. -/
def drain : Nat → State → State
  | 0, s => s
  | rounds + 1, s =>
    let counted := hostRead (Reg.outCount).idx s
    if counted.out.isEmpty then counted else drain rounds (hostRead (Reg.outData).idx counted)

/-- ISSUE w (R91): WR CMD, w ; POLL. Every round of POLL takes a word out of OUT or runs the command, so this many rounds
end it. -/
def issue (w : Word) (s : State) : Host.Outcome State Fault Refusal :=
  poll (s.out.length + 2) (regWrite (Reg.cmd).idx w s)

/-- A line of a host program (R89, R91). -/
inductive HostLine where
  /-- A bare command line: ISSUE its word. -/
  | issue (i : Instr)
  /-- WR name, v. -/
  | wr (r : Reg) (v : Word)
  /-- RD name. -/
  | rd (r : Reg)
  /-- DRAIN. -/
  | drain
  deriving DecidableEq, Repr

/-- One line run. -/
def runLine (l : HostLine) (s : State) : Host.Outcome State Fault Refusal :=
  match l with
  | .issue i => issue (encode i) s
  | .wr r v => .next (regWrite r.idx v s)
  | .rd r => .next (hostRead r.idx s)
  | .drain => .next (drain (s.out.length + 1) s)

/-- A host program run line by line, to its last line. DESIGN CHOICE (log 21): R91 has the Host check STATUS.ERR after each
command and does not say what it does where ERR ≠ 0 (60_exceptions.md R243 leaves it CLEAR or ACKERR): here it goes on to the
next line. The STATUS it would check is the last one POLL read, kept in hostReads. -/
def runHost : List HostLine → State → Host.Outcome State Fault Refusal
  | [], s => .next s
  | l :: rest, s => andThen (runLine l s) (runHost rest)

/-- LDCODE sym, len, v (R91): v staged in CODEW0..CODEW7, then LOADCODE. -/
def ldcode (sym : Symbol) (len : BitVec 8) (v : BitVec 256) : List HostLine :=
  (List.finRange 8).map (fun k => HostLine.wr (.codew k) (v.extractLsb' (32 * k.val) 32)) ++ [.issue (.loadcode sym len)]

/-- DECW w (R91): the 32 bits of a full word. -/
def decw (w : Word) : List Instr := [.decode 16#5 (w.extractLsb' 16 16), .decode 16#5 (w.extractLsb' 0 16)]

/-- DECTAIL w, k (R91): the first k bits of a word, 1 ≤ k ≤ 32. -/
def dectail (w : Word) (k : Nat) : List Instr :=
  if k ≤ 16 then [.decode (BitVec.ofNat 5 k) (w.extractLsb' 16 16)]
  else [.decode 16#5 (w.extractLsb' 16 16), .decode (BitVec.ofNat 5 (k - 16)) (w.extractLsb' 0 16)]

/-- The commands of DECODE_MSG that feed the words of B, of whose last word k bits are valid (R91). -/
def feed : List Word → Nat → List Instr
  | [], _ => []
  | [w], k => dectail w k
  | w :: rest, k => decw w ++ feed rest k

/-- How many bits of the last word of a bitstream are valid: BITCNT mod 32, or 32 when that is 0 (R91). -/
def tailBits (bitcnt : Nat) : Nat := if bitcnt % 32 = 0 then 32 else bitcnt % 32

/-- The symbols of a message, each once, in ascending order. DESIGN CHOICE (log 19): R91 gives "for every s with CVALID" no
order, and the last READCODE decides what RESULT0 and CODEW hold at the end. -/
def symbolsOf (msg : List Symbol) : List Symbol :=
  ((List.range Config.nsym).map (BitVec.ofNat 8)).filter fun s => msg.contains s

/-- ENCODE_MSG S (R91): §6's encode(). The symbols that have a code after GEN are those of S (43_code_table.md R162); they
are read back in ascending order (DESIGN CHOICE, log 19), and an error ends nothing (DESIGN CHOICE, log 21). -/
def encodeMsg (msg : List Symbol) : List HostLine :=
  [.issue .clear] ++ msg.map (fun s => .issue (.count s)) ++ [.issue .build, .issue .gen]
    ++ msg.map (fun s => .issue (.encode s)) ++ [.issue .flush, .drain]
    ++ (symbolsOf msg).map (fun s => .issue (.readcode s))

/-- DECODE_MSG B, T (R91): §6's decode(), from the table T of (symbol, length, code value). An error ends nothing (DESIGN
CHOICE, log 21). -/
def decodeMsg (words : List Word) (k : Nat) (table : List (Symbol × BitVec 8 × BitVec 256)) : List HostLine :=
  [.issue .clear] ++ (table.map fun t => ldcode t.1 t.2.1 t.2.2).flatten
    ++ (feed words k).map .issue ++ [.issue .decend, .drain]

/-- The program's output: the words POLL and DRAIN popped and kept, oldest first (R91). -/
def State.keptWords (s : State) : List Word :=
  (s.hostReads.filter fun r => decide (r.1 = (Reg.outData).idx)).map Prod.snd

end Sys2Proof.Machine
end

