-- ==== Sys2Proof/Safety.lean ====
section
/-! DEFINITION. The terms claims are stated in: what a good state is (10_state.md R32 to R34, R46; 41_frequency.md R121;
42_tree_builder.md R146; 43_code_table.md R162, R164), the codes and the bitstream as lists of bits (44_encoder.md R180,
R183), and the tree walk on a list of bits (45_decoder.md R200, R202). -/

namespace Sys2Proof.Machine

/-! ### Sums and counts over the tables -/

/-- Σ_s FREQ[s] (41_frequency.md R121). -/
def State.freqSum (s : State) : Nat := ((List.range Config.nsym).map fun a => (Memory.read 0#32 s.freq a).toNat).sum

/-- |{s : FREQ[s] ≠ 0}| (41_frequency.md R121). -/
def State.freqCount (s : State) : Nat :=
  ((List.range Config.nsym).filter fun a => decide (Memory.read 0#32 s.freq a ≠ 0#32)).length

/-- The number of symbols with CVALID = 1 (10_state.md R46). -/
def State.validCount (s : State) : Nat := ((List.range Config.nsym).filter fun a => Memory.read false s.cvalid a).length

/-! ### Codes, streams and paths as lists of bits -/

/-- The code "v[len−1] … v[0]", first bit first (10_state.md R31). -/
def codeBits (v : CodeVal) : Nat → List Bool
  | 0 => []
  | j + 1 => codeBit v j :: codeBits v j

/-- The code of a symbol. -/
def State.code (s : State) (sym : Symbol) : List Bool := codeBits (s.cvalAt sym) (s.clenAt sym).toNat

/-- The first `n` bits of a word, most significant first (44_encoder.md R180). -/
def wordBits (w : Word) (n : Nat) : List Bool := (List.range n).map fun j => w.getLsbD (31 - j)

/-- The bits of the bitstream still in the block: the words of OUT, and then the bits pending in PACKBUF (10_state.md R33,
R34, 44_encoder.md R180). -/
def Packer.stream (p : Packer) : List Bool :=
  (p.out.map fun w => wordBits w 32).flatten ++ wordBits p.packbuf p.packcnt.toNat

/-- The node a path leads to from node `n`: left on false, right on true; none where it leaves a leaf or meets NULL. -/
def follow (m : Memory Node) : NodeIdx → List Bool → Option NodeIdx
  | n, [] => some n
  | n, b :: rest =>
    if (nodeAt m n).kind = .leaf then none
    else if child m n b = NULL then none
    else follow m (child m n b) rest

/-- The tree walk of 45_decoder.md R200 over a whole list of bits: where it ends and the symbols it recovers; none where it
meets a NULL child. -/
def walkBits (m : Memory Node) (root : NodeIdx) : List Bool → NodeIdx → Option (NodeIdx × List Symbol)
  | [], cursor => some (cursor, [])
  | b :: rest, cursor =>
    let c := child m cursor b
    if c = NULL then none
    else if (nodeAt m c).kind = .leaf then
      (walkBits m root rest root).map fun got => (got.1, (nodeAt m c).sym :: got.2)
    else walkBits m root rest c

/-- The bits a DECODE consumes, in order (45_decoder.md R200). -/
def operandBits (n : BitVec 5) (bits : BitVec 16) : List Bool := (List.range n.toNat).map (streamBit bits)

/-! ### What holds of the registers and memories themselves -/

/-- The structure of a good state. -/
structure Inv (s : State) : Prop where
  /-- FIFO_DEPTH ≥ 16 (00_scope.md R5). -/
  depth : s.params.legal
  /-- OUT holds at most FIFO_DEPTH entries (10_state.md R33). -/
  fifo : s.out.length ≤ s.params.fifoDepth
  /-- ERRINFO is 0 while ERR is 0 (10_state.md R26). -/
  errinfo : s.err = .noError → s.errinfo = 0#32
  /-- PACKBUF[31−PACKCNT:0] is 0 (10_state.md R34). -/
  packer : s.packbuf <<< s.packcnt.toNat = 0#32
  /-- The internal memories are in canonical form, within their index spaces (20_memory.md R63; log 20). -/
  freq : Memory.wf 0#32 Config.nsym s.freq
  node : Memory.wf Node.unlisted (2 ^ 9) s.node
  cvalid : Memory.wf false Config.nsym s.cvalid
  clen : Memory.wf 0#8 Config.nsym s.clen
  cval : Memory.wf 0#255 Config.nsym s.cval

/-! ### What holds of the tree -/

/-- A tree a walk can stand in: the root and CURSOR are allocated INTERNAL nodes, and a child that is not NULL is allocated
(10_state.md R30, R32, 20_memory.md R62). -/
structure WalkableTree (s : State) : Prop where
  bound : s.next.toNat ≤ Config.nnode
  root : s.root.toNat < s.next.toNat ∧ (nodeAt s.node s.root).kind = .internal
  cursor : s.cursor.toNat < s.next.toNat ∧ (nodeAt s.node s.cursor).kind = .internal
  children : ∀ (n : NodeIdx) (b : Bool), n.toNat < s.next.toNat → (nodeAt s.node n).kind = .internal →
    child s.node n b ≠ NULL → (child s.node n b).toNat < s.next.toNat

/-- NODE[n].weight, with NULL counting as 0 (42_tree_builder.md R146 (b)). -/
def weightOf (m : Memory Node) (n : NodeIdx) : Nat := if n = NULL then 0 else (nodeAt m n).weight.toNat

/-- The tree BUILD makes, with N = NDIST leaves (42_tree_builder.md R142, R145, R146). -/
structure BuiltTree (s : State) : Prop where
  /-- R146 (a). -/
  size : s.next.toNat = (if s.ndist = 1#9 then 2 else 2 * s.ndist.toNat - 1) ∧ s.root.toNat + 1 = s.next.toNat
  /-- R142, R146 (d): the indices below N are the leaves, one per counted symbol, with its count as weight … -/
  leaf : ∀ n : NodeIdx, n.toNat < s.ndist.toNat →
    nodeAt s.node n = Node.leafOf (s.freqAt (nodeAt s.node n).sym) (nodeAt s.node n).sym ∧
      s.freqAt (nodeAt s.node n).sym ≠ 0#32
  /-- … in ascending symbol order … -/
  ascending : ∀ n n' : NodeIdx, n.toNat < n'.toNat → n'.toNat < s.ndist.toNat →
    (nodeAt s.node n).sym < (nodeAt s.node n').sym
  /-- … and every counted symbol has one. -/
  counted : ∀ sym : Symbol, s.freqAt sym ≠ 0#32 → ∃ n : NodeIdx, n.toNat < s.ndist.toNat ∧ (nodeAt s.node n).sym = sym
  /-- R142: the other indices are INTERNAL nodes. -/
  internal : ∀ n : NodeIdx, s.ndist.toNat ≤ n.toNat → n.toNat < s.next.toNat → (nodeAt s.node n).kind = .internal
  /-- R146 (b). -/
  weight : ∀ n : NodeIdx, s.ndist.toNat ≤ n.toNat → n.toNat < s.next.toNat →
    (nodeAt s.node n).weight.toNat = weightOf s.node (nodeAt s.node n).left + weightOf s.node (nodeAt s.node n).right
  /-- R146 (c), R145: both children are there, but for the right child of the root when N = 1. -/
  strict : ∀ (n : NodeIdx) (b : Bool), s.ndist.toNat ≤ n.toNat → n.toNat < s.next.toNat →
    (child s.node n b = NULL ↔ s.ndist = 1#9 ∧ b = true)
  /-- R146 (e): a child's index is below its parent's. -/
  below : ∀ (n : NodeIdx) (b : Bool), s.ndist.toNat ≤ n.toNat → n.toNat < s.next.toNat → child s.node n b ≠ NULL →
    (child s.node n b).toNat < n.toNat
  /-- R146 (c): each index below ROOT is the child of exactly one node, on one side. -/
  parent : ∀ c : NodeIdx, c.toNat < s.root.toNat → ∃! p : NodeIdx × Bool,
    s.ndist.toNat ≤ p.1.toNat ∧ p.1.toNat < s.next.toNat ∧ child s.node p.1 p.2 = c

/-- Each code is the root-to-leaf path of the LEAF of its symbol (43_code_table.md R160, R164). -/
def TableMatchesTree (s : State) : Prop :=
  ∀ sym : Symbol, s.cvalidAt sym = true → ∃ n : NodeIdx, follow s.node s.root (s.code sym) = some n ∧
    (nodeAt s.node n).kind = .leaf ∧ (nodeAt s.node n).sym = sym

/-- Every leaf the root reaches bears a symbol whose code is its path, and every node it reaches has a leaf below it
(43_code_table.md R164). -/
structure LeavesAreCodes (s : State) : Prop where
  code : ∀ (path : List Bool) (n : NodeIdx), follow s.node s.root path = some n → (nodeAt s.node n).kind = .leaf →
    s.cvalidAt (nodeAt s.node n).sym = true ∧ s.code (nodeAt s.node n).sym = path
  below : ∀ (path : List Bool) (n : NodeIdx), follow s.node s.root path = some n →
    ∃ (rest : List Bool) (n' : NodeIdx), follow s.node n rest = some n' ∧ (nodeAt s.node n').kind = .leaf

/-- No code is a prefix of another symbol's code (43_code_table.md R162 (c), R164). -/
def PrefixFree (s : State) : Prop :=
  ∀ sym sym' : Symbol, s.cvalidAt sym = true → s.cvalidAt sym' = true → s.code sym <+: s.code sym' → sym = sym'

/-! ### What holds in each phase -/

/-- No tree and no code: what EMPTY and COUNTING share (10_state.md R46, R32, R35). -/
structure NoTree (s : State) : Prop where
  next : s.next = 0#10
  root : s.root = NULL
  cursor : s.cursor = NULL
  codes : ∀ sym, s.cvalidAt sym = false
  cost : s.cost = 0#64

/-- TOTAL and NDIST are what they count (41_frequency.md R121). -/
structure Counted (s : State) : Prop where
  total : s.total.toNat = s.freqSum
  ndist : s.ndist.toNat = s.freqCount

/-- The phase invariant of 10_state.md R46, with what R32, R121, R146, R162 and R164 add. -/
def PhaseInv (s : State) : Prop :=
  match s.phase with
  | .empty => NoTree s ∧ Counted s ∧ s.total = 0#32 ∧ s.ndist = 0#9
  | .counting => NoTree s ∧ Counted s ∧ 1 ≤ s.total.toNat ∧ 1 ≤ s.ndist.toNat
  | .built => WalkableTree s ∧ BuiltTree s ∧ Counted s ∧ 1 ≤ s.ndist.toNat ∧
      (nodeAt s.node s.root).weight = s.total ∧ (∀ sym, s.cvalidAt sym = false) ∧ s.cost = 0#64
  | .ready => WalkableTree s ∧ BuiltTree s ∧ Counted s ∧ 1 ≤ s.ndist.toNat ∧
      (nodeAt s.node s.root).weight = s.total ∧ TableMatchesTree s ∧ LeavesAreCodes s ∧
      (∀ sym, s.cvalidAt sym = true ↔ s.freqAt sym ≠ 0#32)
  | .loaded => WalkableTree s ∧ TableMatchesTree s ∧ LeavesAreCodes s ∧ (∀ sym, s.freqAt sym = 0#32) ∧ s.total = 0#32 ∧ s.root = 0#9 ∧
      s.ndist.toNat = s.validCount ∧ 1 ≤ s.ndist.toNat ∧ 2 ≤ s.next.toNat ∧ s.cost = 0#64

/-! ### The tables and error lines the rules of the commands share -/

/-- The phase table of 30_encoding.md R86. -/
def phaseTable : List (String × List Phase) :=
  [("NOP", [.empty, .counting, .built, .ready, .loaded]), ("CLEAR", [.empty, .counting, .built, .ready, .loaded]),
   ("ACKERR", [.empty, .counting, .built, .ready, .loaded]), ("READCODE", [.empty, .counting, .built, .ready, .loaded]),
   ("READFREQ", [.empty, .counting, .built, .ready, .loaded]), ("READNODE", [.empty, .counting, .built, .ready, .loaded]),
   ("COUNT", [.empty, .counting]), ("BUILD", [.empty, .counting]), ("GEN", [.built]), ("ENCODE", [.ready, .loaded]),
   ("FLUSH", [.ready, .loaded]), ("DECODE", [.built, .ready, .loaded]), ("DECEND", [.built, .ready, .loaded]),
   ("LOADCODE", [.empty, .loaded])]

/-- The commands the error state keeps (60_exceptions.md R243). -/
def keptCommands : List String := ["NOP", "CLEAR", "ACKERR", "READCODE", "READFREQ", "READNODE"]

/-- The SequenceError line of a command's rule: outside its phases, with no error recorded, only the error is. -/
def RaisesOutside (i : Instr) (phases : List Phase) : Prop :=
  ∀ s : State, s.err = .noError → s.phase ∉ phases →
    exec i s = .next { s with err := .sequenceError, errinfo := i.opcode ++ s.phase.code.setWidth 24 }

/-- The IllegalCommand line of a command's rule: a word of this opcode with a 1 under its reserved mask, executed with no
error recorded, completes with the error and changes nothing else; with an error recorded it changes nothing. -/
def RaisesOnReserved (op : BitVec 8) (mask : BitVec 24) : Prop :=
  ∀ (s : State) (a : BitVec 24), a &&& mask ≠ 0#24 →
    (s.err = .noError →
      engineStep (op ++ a) s = .next { s with pending := none, err := .illegalCommand, errinfo := op ++ a }) ∧
    (s.err ≠ .noError → engineStep (op ++ a) s = .next { s with pending := none })

/-- The Engine has the next turn. -/
def State.engineNext (s : State) : Prop := s.schedule.head? = none ∨ s.schedule.head? = some .engine

/-- The next step runs this command: the Engine has the turn, the pending word spells it, and OUT has room for it. -/
def State.runsNext (s : State) (i : Instr) : Prop :=
  s.engineNext ∧ ∃ w, s.pending = some w ∧ decode w = .ok i ∧ s.roomFor w = true

/-- Commands executed one after another. -/
def runCommands : List Instr → State → Host.Outcome State Fault Refusal
  | [], s => .next s
  | i :: rest, s => andThen (exec i s) (runCommands rest)

/-- The nodes not yet merged when node `n` is made: below `n` and no child of a node below `n` (42_tree_builder.md R141). -/
def Unmerged (s : State) (n k : NodeIdx) : Prop :=
  k.toNat < n.toNat ∧ ∀ (p : NodeIdx) (b : Bool), s.ndist.toNat ≤ p.toNat → p.toNat < n.toNat → child s.node p b ≠ k

/-- The walk of 43_code_table.md R163 along a code stops at node `n` before bit `k`: the first k bits lead from the root to the
INTERNAL node `n`, whose child on bit k is NULL. -/
def StopsAt (m : Memory Node) (root : NodeIdx) (code : List Bool) (k : Nat) (n : NodeIdx) : Prop :=
  k < code.length ∧ follow m root (code.take k) = some n ∧ (nodeAt m n).kind = .internal ∧
    child m n (code.getD k false) = NULL

/-- The commit loop of 43_code_table.md R163: what it leaves in NODE and NEXT, where the walk along `code` stopped at `n`
before bit `k`. -/
structure PathPlaced (sym : Symbol) (code : List Bool) (k : Nat) (n : NodeIdx) (old new : Arena) : Prop where
  /-- One node is allocated for each bit from k on. -/
  next : new.next.toNat = old.next.toNat + (code.length - k)
  /-- The nodes already allocated stay as they are, … -/
  kept : ∀ j : NodeIdx, j.toNat < old.next.toNat → j ≠ n → nodeAt new.node j = nodeAt old.node j
  /-- … but for the child of `n` on bit k, which is the first new node. -/
  stop : nodeAt new.node n = (nodeAt old.node n).withChild (code.getD k false) (BitVec.ofNat 9 old.next.toNat)
  /-- The new nodes, weight 0: the last is the LEAF, each other an INTERNAL node whose one child is the next. -/
  placed : ∀ j, k ≤ j → j < code.length → nodeAt new.node (BitVec.ofNat 9 (old.next.toNat + (j - k))) =
    if j + 1 = code.length then Node.leafOf 0#32 sym
    else (Node.internalOf 0#32 NULL NULL).withChild (code.getD (j + 1) false)
      (BitVec.ofNat 9 (old.next.toNat + (j + 1 - k)))

/-- A job in good order: the structure and the phase invariant together. -/
structure GoodJob (s : State) : Prop where
  structural : Inv s
  phased : PhaseInv s

end Sys2Proof.Machine
end

