-- ==== Sys2Proof/Certificates/Slice0/Obligations.lean ====
section
/-! DEFINITION. The statements for the provers: what the numbered rules of spec/ say the commands, the host port and the whole
machine do. A statement about every state holds in states no run reaches; where one could fail only there, an invariant of
Sys2Proof/Safety.lean stands as its premise. -/

open Sys2Proof Sys2Proof.Machine

/-! ### Command words -/

/-- 30_encoding.md R80 to R84, R89: the word of a well-formed command decodes back to it, with every operand. -/
def Obligations.EncodedCommandDecodesBack : Prop :=
  ∀ i : Instr, i.wellFormed = true → decode (encode i) = .ok i

/-- 30_encoding.md R80 to R85: what a word decodes to is well formed and spells that very word: no bit of a legal word is
ignored. -/
def Obligations.DecodedCommandEncodesBack : Prop :=
  ∀ (w : Word) (i : Instr), decode w = .ok i → i.wellFormed = true ∧ encode i = w

/-- 30_encoding.md R84: "A word w spells opcode row r exactly when …": the decoder accepts a word as a command of a row's
mnemonic exactly when the word spells the row, the rows are those of the table, and no word spells two. -/
def Obligations.WordSpellsItsTableRow : Prop :=
  (∀ r ∈ opcodeRows, ∀ w : Word, r.spelledBy w = true ↔ ∃ i, decode w = .ok i ∧ i.mnemonic = r.mnemonic) ∧
  (∀ i : Instr, ∃ r ∈ opcodeRows, r.mnemonic = i.mnemonic) ∧
  (∀ w : Word, ∀ r ∈ opcodeRows, ∀ r' ∈ opcodeRows, r.spelledBy w = true → r'.spelledBy w = true → r = r')

/-- 30_encoding.md R85: which words are illegal, under the name of each case, and what executing one does while ERR = 0. -/
def Obligations.IllegalWordRaisesIllegalCommand : Prop :=
  ∀ w : Word,
    (decode w = .error .reservedOpcode ↔ 0x0E ≤ (opcodeOf w).toNat) ∧
    (decode w = .error .reservedOperandBits ↔
      ∃ r ∈ opcodeRows, opcodeOf w = opcodeOf r.value ∧ operandOf w &&& operandOf r.mask ≠ 0#24) ∧
    (decode w = .error .decodeCount ↔
      opcodeOf w = 0x07#8 ∧ operandOf w &&& 0xE00000#24 = 0#24 ∧
        ((nField (operandOf w)).toNat = 0 ∨ 17 ≤ (nField (operandOf w)).toNat)) ∧
    ∀ (e : DecodeError) (s : State), decode w = .error e → s.err = .noError →
      engineStep w s = .next { s with
        pending := none, err := .illegalCommand, errinfo := (w.extractLsb' 24 8 ++ w.extractLsb' 0 24 : BitVec 32) }

/-- 30_encoding.md R81, R83, R89: words written out from the table, one for each operand format and more. -/
def Obligations.WordsOfTheTableDecode : Prop :=
  decode 0x00000000#32 = .ok .nop ∧ decode 0x01000000#32 = .ok .clear ∧ decode 0x02000041#32 = .ok (.count 0x41#8) ∧
  decode 0x0710AAA8#32 = .ok (.decode 16#5 0xAAA8#16) ∧ decode 0x09000342#32 = .ok (.loadcode 0x42#8 3#8) ∧
  decode 0x0C0001FF#32 = .ok (.readnode 511#9) ∧ decode 0x0D000000#32 = .ok .ackerr ∧
  decode 0x07110000#32 = .error .decodeCount ∧ decode 0x0C000200#32 = .error .reservedOperandBits ∧
  decode 0x0E000000#32 = .error .reservedOpcode

/-! ### Dispatch -/

/-- 20_memory.md R57, 30_encoding.md R90: with the Engine's turn next and room in OUT, a step runs the command the pending
word spells, from the state in which PENDING is none and the event is used up, or executes the illegal word; without room it
leaves the command waiting. The schedule is the model's (log 2). -/
def Obligations.StepRunsThePendingCommand : Prop :=
  ∀ (s : State) (w : Word), s.pending = some w →
    (s.out.length + need w ≤ s.params.fifoDepth →
      (∀ i, decode w = .ok i →
        (s.schedule = [] → step s = exec i { s with pending := none }) ∧
        ∀ rest, s.schedule = .engine :: rest → step s = exec i { s with pending := none, schedule := rest }) ∧
      ∀ e, decode w = .error e →
        (s.schedule = [] → step s = engineStep w s) ∧
        ∀ rest, s.schedule = .engine :: rest → step s = engineStep w { s with schedule := rest }) ∧
    (s.params.fifoDepth < s.out.length + need w →
      (s.schedule = [] → step s = .next s) ∧
      ∀ rest, s.schedule = .engine :: rest → step s = .next { s with schedule := rest })

/-- 20_memory.md R57: need(w), when the Engine's step is enabled, that a command which is not waits with nothing of it done
(the waiting turn answers the same state, log 4), that one which is completes, and R57's own inference from 00_scope.md R5:
"Because FIFO_DEPTH ≥ 16 ≥ need(w) for every w, a command is always enabled when OUT is empty". -/
def Obligations.CommandWaitsForRoom : Prop :=
  (∀ w : Word, need w =
    if opcodeOf w = 0x05#8 then 8
    else if opcodeOf w = 0x06#8 then 1
    else if opcodeOf w = 0x07#8 ∧ 1 ≤ (nField (operandOf w)).toNat ∧ (nField (operandOf w)).toNat ≤ 16 then
      (nField (operandOf w)).toNat
    else 0) ∧
  (∀ s : State, s.engineEnabled = true ↔ ∃ w, s.pending = some w ∧ s.out.length + need w ≤ s.params.fifoDepth) ∧
  (∀ s : State, s.pending ≠ none → s.engineEnabled = false → engineTurn s = .next s) ∧
  (∀ (s : State) (w : Word), s.pending = some w → s.engineEnabled = true →
    engineTurn s = engineStep w s ∧ ∃ t, engineStep w s = .next t ∧ t.pending = none) ∧
  (∀ s : State, s.params.legal → s.out = [] → s.pending ≠ none → s.engineEnabled = true)

/-- 60_exceptions.md R243, 30_encoding.md R90: in the error state every command but six is dropped with nothing changed, an
illegal word of any opcode too; the read-back commands and NOP do what they do without an error, and CLEAR and ACKERR too. -/
def Obligations.ErrorStateDropsCommands : Prop :=
  ∀ s : State, s.err ≠ .noError →
    (∀ i : Instr, i.mnemonic ∉ keptCommands → exec i s = .next s) ∧
    (∀ (w : Word) (e : DecodeError), decode w = .error e → engineStep w s = .next { s with pending := none }) ∧
    ∀ i : Instr, i.mnemonic ∈ keptCommands → ∃ t, exec i { s with err := .noError, errinfo := 0#32 } = .next t ∧
      exec i s = .next (if i = .clear ∨ i = .ackerr then t else { t with err := s.err, errinfo := s.errinfo })

/-- 30_encoding.md R86: a legal command in a phase outside its set raises SequenceError with the phase as its detail; in a
phase of its set it does not. -/
def Obligations.OutOfPhaseRaisesSequenceError : Prop :=
  ∀ row ∈ phaseTable, ∀ (i : Instr) (s : State), i.mnemonic = row.1 → i.wellFormed = true → s.err = .noError →
    (s.phase ∉ row.2 →
      exec i s = .next { s with err := .sequenceError, errinfo := i.opcode ++ s.phase.code.setWidth 24 }) ∧
    (s.phase ∈ row.2 → ∃ t, exec i s = .next t ∧ t.err ≠ .sequenceError)

/-- 60_exceptions.md R242: a command that raises changes ERR and ERRINFO only; DECODE keeps what the bits before the failing
one did, so CURSOR stays at the node whose child was NULL; no error changes PHASE. -/
def Obligations.RaisingCommandChangesOnlyTheErrorRecord : Prop :=
  ∀ (i : Instr) (s t : State), exec i s = .next t → s.err = .noError → t.err ≠ .noError →
    t.phase = s.phase ∧
    ((∀ n bits, i ≠ .decode n bits) → t = { s with err := t.err, errinfo := t.errinfo }) ∧
    ∀ n bits, i = .decode n bits →
      t = { s with err := t.err, errinfo := t.errinfo, cursor := t.cursor, out := t.out } ∧
      (t.err = .corruptTree → ∃ (j : Nat) (syms : List Symbol), j < n.toNat ∧
        walkBits s.node s.root ((operandBits n bits).take j) s.cursor = some (t.cursor, syms) ∧
        t.out = s.out ++ syms.map (·.setWidth 32) ∧ child s.node t.cursor (streamBit bits j) = NULL) ∧
      (t.err ≠ .corruptTree → t.cursor = s.cursor ∧ t.out = s.out)

/-- 60_exceptions.md R241, R243, R248: a recorded error and its ERRINFO stand through every step but a CLEAR, an ACKERR and a
reset. The schedule of events and turns is the model's (log 2). -/
def Obligations.ErrorStandsUntilTheHostActs : Prop :=
  ∀ s t : State, step s = .next t → s.err ≠ .noError →
    (t.err = s.err ∧ t.errinfo = s.errinfo) ∨ s.runsNext .clear ∨ s.runsNext .ackerr ∨ s.schedule.head? = some .reset

/-- 60_exceptions.md R240, R247, 20_memory.md R56: no command, register access or reset stops the machine; a step stops only at
a bus access whose offset is misaligned, a refusal, or aligned and past the register map, a fault (the model's choice, log
11). -/
def Obligations.OnlyTheBusStopsTheMachine : Prop :=
  ∀ s : State, (∃ t, step s = .next t) ∨
    ∃ off rest, (s.schedule = .busRead off :: rest ∨ ∃ v, s.schedule = .busWrite off v :: rest) ∧
      ((off.toNat % 4 ≠ 0 ∧ step s = .refused .misalignedOffset) ∨
        (off.toNat % 4 = 0 ∧ 256 ≤ off.toNat ∧ step s = .fault .outsideRegisterMap))

/-! ### Control -/

/-- 40_control.md R100. -/
def Obligations.NopChangesNothing : Prop :=
  encode .nop = 0x00000000#32 ∧ (∀ s : State, exec .nop s = .next s) ∧ RaisesOnReserved 0x00#8 0xFFFFFF#24 ∧
  need (encode .nop) = 0

/-- 40_control.md R101: a new job, from every state; OVERRUN and UNDERFLOW, and what is no part of the job, stay. -/
def Obligations.ClearStartsANewJob : Prop :=
  encode .clear = 0x01000000#32 ∧
  (∀ s : State, ∃ t, exec .clear s = .next t ∧
    (∀ sym, t.freqAt sym = 0#32 ∧ t.cvalidAt sym = false) ∧ t.total = 0#32 ∧ t.ndist = 0#9 ∧
    t.next = 0#10 ∧ t.root = NULL ∧ t.cursor = NULL ∧ t.out = [] ∧ t.packbuf = 0#32 ∧ t.packcnt = 0#5 ∧
    t.bitcnt = 0#64 ∧ t.cost = 0#64 ∧ t.result0 = 0#32 ∧ t.result1 = 0#32 ∧ (∀ k : Fin 8, t.codew[k] = 0#32) ∧
    t.err = .noError ∧ t.errinfo = 0#32 ∧ t.phase = .empty ∧ t.atRoot = false ∧
    t.overrun = s.overrun ∧ t.underflow = s.underflow ∧ t.pending = s.pending ∧ t.params = s.params ∧
    t.schedule = s.schedule ∧ t.hostReads = s.hostReads) ∧
  RaisesOnReserved 0x01#8 0xFFFFFF#24

/-- 40_control.md R102: the return from an error that keeps the job, in every state. -/
def Obligations.AckerrReturnsFromTheError : Prop :=
  encode .ackerr = 0x0D000000#32 ∧
  (∀ s : State, ∃ t, exec .ackerr s = .next t ∧
    t = { s with err := .noError, errinfo := 0#32, overrun := false, underflow := false, cursor := s.root } ∧
    (s.root ≠ NULL → t.atRoot = true)) ∧
  RaisesOnReserved 0x0D#8 0xFFFFFF#24

/-! ### Frequency counter -/

/-- 41_frequency.md R120. -/
def Obligations.CountAddsOneOccurrence : Prop :=
  (∀ sym, encode (.count sym) = 0x02000000#32 ||| sym.setWidth 32) ∧
  (∀ (sym : Symbol) (s : State), s.err = .noError → s.phase = .empty ∨ s.phase = .counting →
    (s.total ≠ 0xFFFFFFFF#32 → ∃ t, exec (.count sym) s = .next t ∧
      t.freqAt sym = s.freqAt sym + 1#32 ∧ (∀ other, other ≠ sym → t.freqAt other = s.freqAt other) ∧
      t.total = s.total + 1#32 ∧ t.ndist = (if s.freqAt sym = 0#32 then s.ndist + 1#9 else s.ndist) ∧
      t = { s with freq := t.freq, total := t.total, ndist := t.ndist, phase := .counting }) ∧
    (s.total = 0xFFFFFFFF#32 →
      exec (.count sym) s = .next { s with err := .countOverflow, errinfo := 0x02#8 ++ (0#16 ++ sym : BitVec 24) })) ∧
  (∀ sym, RaisesOutside (.count sym) [.empty, .counting]) ∧ RaisesOnReserved 0x02#8 0xFFFF00#24

/-- 41_frequency.md R120 (corner case), R121: in a good job a COUNT wraps no counter: FREQ, TOTAL and NDIST each grow by what
was counted, as numbers. -/
def Obligations.CountWrapsNoCounter : Prop :=
  ∀ (sym : Symbol) (s t : State), GoodJob s → s.phase = .empty ∨ s.phase = .counting → exec (.count sym) s = .next t →
    t.err = .noError → s.err = .noError →
    (t.freqAt sym).toNat = (s.freqAt sym).toNat + 1 ∧ t.total.toNat = s.total.toNat + 1 ∧
    (t.freqAt sym).toNat ≤ t.total.toNat ∧
    t.ndist.toNat = s.ndist.toNat + (if s.freqAt sym = 0#32 then 1 else 0) ∧ t.ndist.toNat ≤ 256

/-! ### Priority queue and tree builder -/

/-- 42_tree_builder.md R140, R141: pop_min gives the node of least key (weight, index) and leaves the others. -/
def Obligations.PopMinTakesTheLeastKey : Prop :=
  ∀ (m : Memory Node) (pq : List NodeIdx),
    (popMin m pq = none ↔ pq = []) ∧
    ∀ a rest, popMin m pq = some (a, rest) → (a :: rest).Perm pq ∧
      ∀ j ∈ rest, (nodeAt m a).weight < (nodeAt m j).weight ∨
        ((nodeAt m a).weight = (nodeAt m j).weight ∧ a.toNat ≤ j.toNat)

/-- 42_tree_builder.md R143: BUILD with no symbol counted raises EmptyInput and changes nothing else; out of phase and with a
nonzero operand it raises the dispatch's errors. -/
def Obligations.BuildOfNothingRaisesEmptyInput : Prop :=
  encode .build = 0x03000000#32 ∧
  (∀ s : State, s.err = .noError → s.phase = .empty ∨ s.phase = .counting → s.ndist = 0#9 →
    exec .build s = .next { s with err := .emptyInput, errinfo := 0x03000000#32 }) ∧
  RaisesOutside .build [.empty, .counting] ∧ RaisesOnReserved 0x03#8 0xFFFFFF#24

/-- 42_tree_builder.md R142, R143, R145, R146: BUILD of a good COUNTING job completes, without an error, in phase BUILT with
CURSOR at ROOT and the tree of R146, and changes nothing but NODE, NEXT, ROOT, CURSOR and PHASE. -/
def Obligations.BuildMakesAStrictTree : Prop :=
  ∀ s : State, GoodJob s → s.phase = .counting → s.err = .noError → ∃ t, exec .build s = .next t ∧
    t.phase = .built ∧ t.cursor = t.root ∧ t.atRoot = true ∧ BuiltTree t ∧ WalkableTree t ∧
    (nodeAt t.node t.root).weight = s.total ∧
    t = { s with node := t.node, next := t.next, root := t.root, cursor := t.cursor, phase := .built }

/-- 42_tree_builder.md R140, R141, R143, R144: in a tree of N ≥ 2 symbols, the left child of each INTERNAL node is the node of
least key among those not yet merged when it is made, and the right child the least of the others. -/
def Obligations.BuildMergesTheTwoLeastNodes : Prop :=
  ∀ s t : State, GoodJob s → s.phase = .counting → s.err = .noError → 2 ≤ s.ndist.toNat → exec .build s = .next t →
    ∀ n : NodeIdx, t.ndist.toNat ≤ n.toNat → n.toNat < t.next.toNat →
      Unmerged t n (nodeAt t.node n).left ∧ Unmerged t n (nodeAt t.node n).right ∧
      (nodeAt t.node n).left ≠ (nodeAt t.node n).right ∧
      (∀ k, Unmerged t n k → k ≠ (nodeAt t.node n).left → keyBefore t.node (nodeAt t.node n).left k = true) ∧
      ∀ k, Unmerged t n k → k ≠ (nodeAt t.node n).left → k ≠ (nodeAt t.node n).right →
        keyBefore t.node (nodeAt t.node n).right k = true

/-- 42_tree_builder.md R147 (Determinism): BUILD depends only on FREQ: two good COUNTING jobs with the same frequency table
give the same tree, whatever else they hold. -/
def Obligations.BuildDependsOnlyOnFrequencies : Prop :=
  ∀ s s' : State, GoodJob s → GoodJob s' → s.phase = .counting → s'.phase = .counting → s.err = .noError →
    s'.err = .noError → (∀ sym, s.freqAt sym = s'.freqAt sym) →
    ∃ t t', exec .build s = .next t ∧ exec .build s' = .next t' ∧ t.root = t'.root ∧ t.next = t'.next ∧
      ∀ n : NodeIdx, n.toNat < t.next.toNat → nodeAt t.node n = nodeAt t'.node n

/-! ### Code table -/

/-- 43_code_table.md R160, R162: GEN of a good BUILT job completes in phase READY; the symbols with a code are the counted
ones, each code is the path of its leaf (so none is a prefix of another) of length 1 to max(1, N − 1); COST is the exact sum;
nothing else changes. -/
def Obligations.GenWritesTheTreePaths : Prop :=
  encode .gen = 0x04000000#32 ∧
  (∀ s : State, GoodJob s → s.phase = .built → s.err = .noError → ∃ t, exec .gen s = .next t ∧
    (∀ sym, t.cvalidAt sym = true ↔ s.freqAt sym ≠ 0#32) ∧ TableMatchesTree t ∧ PrefixFree t ∧
    (∀ sym, t.cvalidAt sym = true →
      1 ≤ (t.clenAt sym).toNat ∧ (t.clenAt sym).toNat ≤ max 1 (s.ndist.toNat - 1) ∧
        (t.cvalAt sym).toNat < 2 ^ (t.clenAt sym).toNat) ∧
    t.cost.toNat = ((List.range 256).map fun a =>
      if t.cvalidAt (BitVec.ofNat 8 a) then
        (s.freqAt (BitVec.ofNat 8 a)).toNat * (t.clenAt (BitVec.ofNat 8 a)).toNat else 0).sum ∧
    t = { s with cvalid := t.cvalid, clen := t.clen, cval := t.cval, cost := t.cost, phase := .ready }) ∧
  RaisesOutside .gen [.built] ∧ RaisesOnReserved 0x04#8 0xFFFFFF#24

/-- 43_code_table.md R163, 60_exceptions.md R244: LOADCODE's first three refusals, in their order, each recording
{reason, sym} and changing nothing else; and the dispatch's errors. -/
def Obligations.LoadcodeRefusesABadEntry : Prop :=
  (∀ sym len, encode (.loadcode sym len) = 0x09000000#32 ||| (len.setWidth 32 <<< 8) ||| sym.setWidth 32) ∧
  (∀ (sym : Symbol) (len : BitVec 8) (s : State), s.err = .noError → s.phase = .empty ∨ s.phase = .loaded →
    let refused := fun reason : BitVec 4 =>
      { s with err := .corruptTable, errinfo := 0x09#8 ++ (0#12 ++ reason ++ sym : BitVec 24) }
    (len = 0#8 → exec (.loadcode sym len) s = .next (refused 1#4)) ∧
    (len ≠ 0#8 → s.cvalidAt sym = true → exec (.loadcode sym len) s = .next (refused 2#4)) ∧
    (len ≠ 0#8 → s.cvalidAt sym = false → 2 ^ len.toNat ≤ s.cw.toNat →
      exec (.loadcode sym len) s = .next (refused 3#4))) ∧
  (∀ sym len, RaisesOutside (.loadcode sym len) [.empty, .loaded]) ∧ RaisesOnReserved 0x09#8 0xFF0000#24

/-- 43_code_table.md R163: in a good LOADED job, a code that extends a loaded one is refused with reason 4, and one that a
loaded code extends with reason 5; nothing else changes. -/
def Obligations.LoadcodeKeepsTheTablePrefixFree : Prop :=
  ∀ (sym sym' : Symbol) (len : BitVec 8) (s : State), GoodJob s → s.phase = .loaded → s.err = .noError →
    len ≠ 0#8 → s.cvalidAt sym = false → s.cw.toNat < 2 ^ len.toNat → s.cvalidAt sym' = true →
    let new := codeBits (codeOperand s.cw len) len.toNat
    (s.code sym' <+: new → exec (.loadcode sym len) s =
      .next { s with err := .corruptTable, errinfo := 0x09#8 ++ (0#12 ++ 4#4 ++ sym : BitVec 24) }) ∧
    (new <+: s.code sym' → new ≠ s.code sym' → exec (.loadcode sym len) s =
      .next { s with err := .corruptTable, errinfo := 0x09#8 ++ (0#12 ++ 5#4 ++ sym : BitVec 24) })

/-- 43_code_table.md R163, R164: in a good job, the walk along a code that no loaded code extends or is extended by stops at
some node n before some bit k, and where the len − k nodes still needed fit, the code is added: the table entry is
CW[len−1:0], the other codes stay, its path leads to its leaf, NDIST counts it, and the table stays prefix-free; NEXT grows by
len − k, the nodes already there stay but for n's child on bit k, and the new ones are the rest of the path, with weight 0;
nothing but NODE, NEXT, ROOT, CURSOR, the code table, NDIST and PHASE changes. The tree walked is the job's own, and in EMPTY
a lone INTERNAL root at index 0. -/
def Obligations.LoadcodeAddsTheCode : Prop :=
  ∀ (sym : Symbol) (len : BitVec 8) (s : State), GoodJob s → s.phase = .empty ∨ s.phase = .loaded → s.err = .noError →
    len ≠ 0#8 → s.cvalidAt sym = false → s.cw.toNat < 2 ^ len.toNat →
    let code := codeBits (codeOperand s.cw len) len.toNat
    let root := (loadTree s).1
    let old := (loadTree s).2
    (∀ sym', s.cvalidAt sym' = true → ¬ s.code sym' <+: code ∧ ¬ code <+: s.code sym') →
    (s.phase = .empty → root = 0#9 ∧ old.next = 1#10 ∧ nodeAt old.node 0#9 = Node.internalOf 0#32 NULL NULL) ∧
    (s.phase = .loaded → root = s.root ∧ old = s.arena) ∧
    (∃ k n, StopsAt old.node root code k n) ∧
    ∀ k n, StopsAt old.node root code k n → old.next.toNat + (len.toNat - k) ≤ 511 →
      ∃ t, exec (.loadcode sym len) s = .next t ∧ t.err = .noError ∧
        t.cvalidAt sym = true ∧ t.clenAt sym = len ∧ (t.cvalAt sym).toNat = s.cw.toNat ∧
        (∀ other, other ≠ sym → t.cvalidAt other = s.cvalidAt other ∧ t.clenAt other = s.clenAt other ∧
          t.cvalAt other = s.cvalAt other) ∧
        PathPlaced sym code k n old t.arena ∧
        TableMatchesTree t ∧ PrefixFree t ∧ t.ndist = s.ndist + 1#9 ∧ t.root = 0#9 ∧
        t.cursor = (if s.phase = .empty then 0#9 else s.cursor) ∧
        t = { s with
          node := t.node, next := t.next, root := t.root, cursor := t.cursor, cvalid := t.cvalid, clen := t.clen,
          cval := t.cval, ndist := t.ndist, phase := .loaded }

/-- 43_code_table.md R163: the first code loaded, of any length 1 to 255, always fits: len new nodes below a new root at
index 0, where CURSOR is set. -/
def Obligations.FirstLoadcodeMakesTheTree : Prop :=
  ∀ (sym : Symbol) (len : BitVec 8) (s : State), GoodJob s → s.phase = .empty → s.err = .noError → len ≠ 0#8 →
    s.cw.toNat < 2 ^ len.toNat → ∃ t, exec (.loadcode sym len) s = .next t ∧ t.phase = .loaded ∧ t.err = .noError ∧
      t.root = 0#9 ∧ t.cursor = 0#9 ∧ t.atRoot = true ∧ t.next.toNat = len.toNat + 1 ∧ t.ndist = 1#9 ∧
      (nodeAt t.node 0#9).kind = .internal ∧
      follow t.node 0#9 (codeBits (codeOperand s.cw len) len.toNat) = some (BitVec.ofNat 9 len.toNat) ∧
      nodeAt t.node (BitVec.ofNat 9 len.toNat) = Node.leafOf 0#32 sym

/-- 43_code_table.md R163: a code whose path needs more new nodes than remain is refused with NodeOverflow, and nothing else
changes: the first m bits of it lead to a node whose child on the next bit is NULL, and len − m nodes do not fit. -/
def Obligations.LoadcodeRefusesWhenNodesRunOut : Prop :=
  ∀ (sym : Symbol) (len : BitVec 8) (s : State) (m : Nat) (n : NodeIdx), s.phase = .loaded → s.err = .noError →
    len ≠ 0#8 → s.cvalidAt sym = false → s.cw.toNat < 2 ^ len.toNat → m < len.toNat →
    (nodeAt s.node s.root).kind = .internal → (nodeAt s.node n).kind = .internal →
    follow s.node s.root ((codeBits (codeOperand s.cw len) len.toNat).take m) = some n →
    child s.node n (codeBit (codeOperand s.cw len) (len.toNat - 1 - m)) = NULL →
    511 < s.next.toNat + (len.toNat - m) →
    exec (.loadcode sym len) s =
      .next { s with err := .nodeOverflow, errinfo := 0x09#8 ++ (0#16 ++ sym : BitVec 24) }

/-! ### Encoder -/

/-- 44_encoder.md R180, R181: ENCODE appends the bits of the code, first code bit first, to the bitstream held in OUT and
PACKBUF, and counts them; or raises MissingSymbol with nothing appended. It changes no other register. The bits of PACKBUF
below the pending ones stay 0 (10_state.md R34), and OUT grows by at most 8 words, R181's own inference: "One ENCODE pushes at
most ⌊(31 + 255)/32⌋ = 8 words, which is need(ENCODE)". -/
def Obligations.EncodeAppendsTheCode : Prop :=
  (∀ sym, encode (.encode sym) = 0x05000000#32 ||| sym.setWidth 32) ∧
  (∀ (sym : Symbol) (s : State), s.err = .noError → s.phase = .ready ∨ s.phase = .loaded →
    (s.cvalidAt sym = true → ∃ t, exec (.encode sym) s = .next t ∧
      t.packer.stream = s.packer.stream ++ s.code sym ∧ t.bitcnt = s.bitcnt + (s.clenAt sym).setWidth 64 ∧
      (s.packbuf <<< s.packcnt.toNat = 0#32 → t.packbuf <<< t.packcnt.toNat = 0#32) ∧
      s.out <+: t.out ∧ t.out.length ≤ s.out.length + 8 ∧
      t = { s with out := t.out, packbuf := t.packbuf, packcnt := t.packcnt, bitcnt := t.bitcnt }) ∧
    (s.cvalidAt sym = false →
      exec (.encode sym) s =
        .next { s with err := .missingSymbol, errinfo := 0x05#8 ++ (0#16 ++ sym : BitVec 24) })) ∧
  (∀ sym, RaisesOutside (.encode sym) [.ready, .loaded]) ∧ RaisesOnReserved 0x05#8 0xFFFF00#24

/-- 44_encoder.md R180 (its inference from R180 and R182), R183: where the ENCODEs of a message put its bits: from an empty OUT
and packer, bit k of the concatenated codes stands at bit 31 − (k mod 32) of word ⌊k/32⌋ of OUT with PACKBUF behind it, and,
once FLUSH has run, of OUT alone. -/
def Obligations.StreamBitStandsInItsWord : Prop :=
  ∀ (msg : List Symbol) (s : State), s.err = .noError → s.phase = .ready ∨ s.phase = .loaded →
    (∀ sym ∈ msg, s.cvalidAt sym = true) → s.out = [] → s.packcnt = 0#5 →
    let bits := (msg.map s.code).flatten
    ∃ t, runCommands (msg.map Instr.encode) s = .next t ∧ 32 * t.out.length + t.packcnt.toNat = bits.length ∧
      (∀ k, k < bits.length →
        bits[k]? = some (((t.out ++ [t.packbuf]).getD (k / 32) 0#32).getLsbD (31 - k % 32))) ∧
      ∃ u, exec .flush t = .next u ∧ u.out.length = (bits.length + 31) / 32 ∧
        ∀ k, k < bits.length → bits[k]? = some ((u.out.getD (k / 32) 0#32).getLsbD (31 - k % 32))

/-- 44_encoder.md R182: FLUSH pushes the partly filled word, if there is one, and empties the packer; BITCNT stays. -/
def Obligations.FlushPushesThePartialWord : Prop :=
  encode .flush = 0x06000000#32 ∧
  (∀ s : State, s.err = .noError → s.phase = .ready ∨ s.phase = .loaded →
    (s.packcnt = 0#5 → exec .flush s = .next s) ∧
    (s.packcnt ≠ 0#5 →
      exec .flush s = .next { s with out := s.out ++ [s.packbuf], packbuf := 0#32, packcnt := 0#5 })) ∧
  RaisesOutside .flush [.ready, .loaded] ∧ RaisesOnReserved 0x06#8 0xFFFFFF#24

/-- 44_encoder.md R183: a message of symbols that have codes, encoded symbol by symbol from a state with an empty packer and
OUT, leaves in OUT and PACKBUF exactly the codes in order, and BITCNT grows by their length. -/
def Obligations.EncodedMessageIsItsCodes : Prop :=
  ∀ (msg : List Symbol) (s : State), s.err = .noError → s.phase = .ready ∨ s.phase = .loaded →
    (∀ sym ∈ msg, s.cvalidAt sym = true) → s.out = [] → s.packcnt = 0#5 →
    ∃ t, runCommands (msg.map Instr.encode) s = .next t ∧ t.packer.stream = (msg.map s.code).flatten ∧
      t.bitcnt = s.bitcnt + BitVec.ofNat 64 (msg.map s.code).flatten.length

/-! ### Decoder -/

/-- 45_decoder.md R200, 60_exceptions.md R242: DECODE walks its n bits in order from CURSOR and pushes each symbol recovered;
at a NULL child it stops with CorruptTree, keeping what the bits before did. It changes nothing else. -/
def Obligations.DecodeWalksItsBits : Prop :=
  (∀ n bits, encode (.decode n bits) = 0x07000000#32 ||| (n.setWidth 32 <<< 16) ||| bits.setWidth 32) ∧
  (∀ (n : BitVec 5) (bits : BitVec 16) (s : State), s.err = .noError →
    s.phase = .built ∨ s.phase = .ready ∨ s.phase = .loaded → 1 ≤ n.toNat → n.toNat ≤ 16 →
    (∀ c syms, walkBits s.node s.root (operandBits n bits) s.cursor = some (c, syms) →
      exec (.decode n bits) s = .next { s with cursor := c, out := s.out ++ syms.map (·.setWidth 32) }) ∧
    (∀ j c syms, j < n.toNat → walkBits s.node s.root ((operandBits n bits).take j) s.cursor = some (c, syms) →
      child s.node c (bits.getLsbD (15 - j)) = NULL →
      exec (.decode n bits) s = .next { s with
        cursor := c, out := s.out ++ syms.map (·.setWidth 32), err := .corruptTree
        errinfo := 0x07#8 ++ (0#9 ++ BitVec.ofNat 5 j ++ BitVec.ofBool (bits.getLsbD (15 - j)) ++ c : BitVec 24) })) ∧
  (∀ n bits, 1 ≤ n.toNat → n.toNat ≤ 16 → RaisesOutside (.decode n bits) [.built, .ready, .loaded]) ∧
  RaisesOnReserved 0x07#8 0xE00000#24 ∧
  (∀ (n : BitVec 5) (bits : BitVec 16) (s : State), n.toNat = 0 ∨ 17 ≤ n.toNat → s.err = .noError →
    engineStep (0x07#8 ++ (0#3 ++ n ++ bits : BitVec 24)) s =
      .next { s with
        pending := none, err := .illegalCommand, errinfo := 0x07#8 ++ (0#3 ++ n ++ bits : BitVec 24) })

/-- 45_decoder.md R200 (corner case): a code may span several DECODE commands: a DECODE of a + b bits does what a DECODE of
the first a bits and then one of the other b do, where both succeed. -/
def Obligations.DecodeInPiecesIsDecodeAtOnce : Prop :=
  ∀ (a b : BitVec 5) (bits : BitVec 16) (s t u : State), 1 ≤ a.toNat → 1 ≤ b.toNat → a.toNat + b.toNat ≤ 16 →
    s.err = .noError → s.phase = .built ∨ s.phase = .ready ∨ s.phase = .loaded →
    exec (.decode a bits) s = .next t → t.err = .noError →
    exec (.decode b (bits <<< a.toNat)) t = .next u → u.err = .noError →
    exec (.decode (a + b) bits) s = .next u

/-- 45_decoder.md R201. -/
def Obligations.DecendChecksTheCursor : Prop :=
  encode .decend = 0x08000000#32 ∧
  (∀ s : State, s.err = .noError → s.phase = .built ∨ s.phase = .ready ∨ s.phase = .loaded →
    (s.cursor = s.root → exec .decend s = .next s) ∧
    (s.cursor ≠ s.root →
      exec .decend s = .next { s with err := .truncatedStream, errinfo := 0x08#8 ++ (0#15 ++ s.cursor : BitVec 24) })) ∧
  RaisesOutside .decend [.built, .ready, .loaded] ∧ RaisesOnReserved 0x08#8 0xFFFFFF#24

/-- 45_decoder.md R202, 43_code_table.md R164: wherever each code is the path of its symbol's leaf (READY and LOADED), the
walk of the concatenated codes of a message from the root recovers the message and ends at the root. -/
def Obligations.DecodingInvertsEncoding : Prop :=
  ∀ (msg : List Symbol) (s : State), GoodJob s → s.phase = .ready ∨ s.phase = .loaded →
    (∀ sym ∈ msg, s.cvalidAt sym = true) →
    walkBits s.node s.root (msg.map s.code).flatten s.root = some (s.root, msg)

/-- 45_decoder.md R202 for one symbol whose code fits one DECODE: the code's bits, left-aligned, give the symbol back, with
the cursor at the root, and DECEND then succeeds. -/
def Obligations.DecodeOfOneCodeRecoversItsSymbol : Prop :=
  ∀ (sym : Symbol) (s : State), GoodJob s → s.err = .noError → s.phase = .ready ∨ s.phase = .loaded →
    s.cvalidAt sym = true → s.cursor = s.root → (s.clenAt sym).toNat ≤ 16 →
    let n := (s.clenAt sym).setWidth 5
    let bits : BitVec 16 := (s.cvalAt sym).setWidth 16 <<< (16 - (s.clenAt sym).toNat)
    ∃ t, exec (.decode n bits) s = .next t ∧ t = { s with out := s.out ++ [sym.setWidth 32] } ∧
      exec .decend t = .next t

/-- 45_decoder.md R202, 30_encoding.md R91: the round trip in one job: a message encoded and flushed, and its words fed back
by DECW and DECTAIL with the valid bits of the last word, comes out of OUT symbol by symbol, the cursor ends at the root and
DECEND succeeds. The Host is taken to have emptied OUT in between. -/
def Obligations.RoundTripInOneJob : Prop :=
  ∀ (msg : List Symbol) (s : State), GoodJob s → s.err = .noError → s.phase = .ready ∨ s.phase = .loaded → msg ≠ [] →
    (∀ sym ∈ msg, s.cvalidAt sym = true) → s.cursor = s.root → s.out = [] → s.packcnt = 0#5 →
    ∃ t, runCommands (msg.map Instr.encode ++ [.flush]) s = .next t ∧
      ∃ u, runCommands (feed t.out (tailBits (msg.map s.code).flatten.length) ++ [.decend]) { t with out := [] } = .next u ∧
        u.out = msg.map (·.setWidth 32) ∧ u.err = .noError ∧ u.cursor = u.root

/-! ### Read-back -/

/-- 46_readback.md R220: in every state, with or without an error recorded. -/
def Obligations.ReadcodeShowsTheCode : Prop :=
  (∀ sym, encode (.readcode sym) = 0x0A000000#32 ||| sym.setWidth 32) ∧
  (∀ (sym : Symbol) (s : State), ∃ t, exec (.readcode sym) s = .next t ∧
    t.result0 = (if s.cvalidAt sym then 1#1 ++ 0#23 ++ s.clenAt sym else 0#32) ∧
    t.cw = (if s.cvalidAt sym then (s.cvalAt sym).setWidth 256 else 0#256) ∧
    t = { s with result0 := t.result0, result1 := 0#32, codew := t.codew }) ∧
  RaisesOnReserved 0x0A#8 0xFFFF00#24

/-- 46_readback.md R221: in every state. -/
def Obligations.ReadfreqShowsTheCount : Prop :=
  (∀ sym, encode (.readfreq sym) = 0x0B000000#32 ||| sym.setWidth 32) ∧
  (∀ (sym : Symbol) (s : State),
    exec (.readfreq sym) s = .next { s with result0 := s.freqAt sym, result1 := 0#32 }) ∧
  RaisesOnReserved 0x0B#8 0xFFFF00#24

/-- 46_readback.md R222: in every state; an index that is not allocated answers 0, 0. -/
def Obligations.ReadnodeShowsTheNode : Prop :=
  (∀ idx, encode (.readnode idx) = 0x0C000000#32 ||| idx.setWidth 32) ∧
  (∀ (idx : NodeIdx) (s : State),
    (idx.toNat < s.next.toNat → exec (.readnode idx) s = .next { s with
      result0 :=
        if (nodeAt s.node idx).kind = .leaf then 1#2 ++ 0#22 ++ (nodeAt s.node idx).sym
        else 2#2 ++ 0#12 ++ (nodeAt s.node idx).right ++ (nodeAt s.node idx).left
      result1 := (nodeAt s.node idx).weight }) ∧
    (s.next.toNat ≤ idx.toNat → exec (.readnode idx) s = .next { s with result0 := 0#32, result1 := 0#32 })) ∧
  RaisesOnReserved 0x0C#8 0xFFFE00#24

/-! ### The host port -/

/-- 20_memory.md R51, R53, 10_state.md R42, R43, R45: the value each word reads as; that a read of OUT_DATA, in every state,
takes the head of OUT or returns 0 and sets UNDERFLOW; that no other read changes the block; and that a write to words 28 to
63 is ignored. -/
def Obligations.RegReadFollowsTheMap : Prop :=
  ∀ s : State,
    (regRead 0#6 s).1 = 0x48434531#32 ∧ (regRead 1#6 s).1 = BitVec.ofNat 16 s.params.fifoDepth ++ 0xFF#8 ++ 0x08#8 ∧
    (regRead 2#6 s).1 = 0#32 ∧ (regRead 3#6 s).1 = s.status ∧ (regRead 4#6 s).1 = s.errinfo ∧
    (regRead 5#6 s).1 = s.ndist.setWidth 32 ∧ (regRead 6#6 s).1 = s.total ∧ (regRead 7#6 s).1 = s.root.setWidth 32 ∧
    (regRead 8#6 s).1 = s.next.setWidth 32 ∧ (regRead 9#6 s).1 = s.cursor.setWidth 32 ∧
    (regRead 10#6 s).1 = s.result0 ∧ (regRead 11#6 s).1 = s.result1 ∧
    (regRead 13#6 s).1 = BitVec.ofNat 32 s.out.length ∧ (regRead 14#6 s).1 = s.packcnt.setWidth 32 ∧
    (regRead 15#6 s).1 = s.packbuf ∧ (regRead 17#6 s).1 ++ (regRead 16#6 s).1 = s.bitcnt ∧
    (regRead 19#6 s).1 ++ (regRead 18#6 s).1 = s.cost ∧
    (∀ k : Fin 8, (regRead (BitVec.ofNat 6 (20 + k.val)) s).1 = s.codew[k]) ∧
    (∀ w out', s.out = w :: out' → regRead 12#6 s = (w, { s with out := out' })) ∧
    (s.out = [] → regRead 12#6 s = (0#32, { s with underflow := true })) ∧
    (∀ idx : BitVec 6, 28 ≤ idx.toNat → (regRead idx s).1 = 0#32 ∧ ∀ v, regWrite idx v s = s) ∧
    (∀ idx : BitVec 6, idx ≠ 12#6 → (regRead idx s).2 = s)

/-- 20_memory.md R51, R52, R54: a Host access is one step: a read hands the Host the value, and a write does what RegWrite
does. The schedule and the record of what the Host has read are the model's (log 2, log 3). -/
def Obligations.HostAccessIsAStep : Prop :=
  ∀ (s : State) (idx : BitVec 6) (rest : List Event),
    (s.schedule = .read idx :: rest → idx ≠ 12#6 →
      step s = .next { s with schedule := rest, hostReads := s.hostReads ++ [(idx, (regRead idx s).1)] }) ∧
    ∀ v, s.schedule = .write idx v :: rest → step s = .next { regWrite idx v s with schedule := rest }

/-- 20_memory.md R53: a Host step that reads OUT_DATA removes and returns the head of OUT, or returns 0 and sets UNDERFLOW;
also while BUSY. The schedule and the Host's record are the model's (log 2, log 3). -/
def Obligations.OutDataPopsTheFifo : Prop :=
  ∀ (s : State) (rest : List Event), s.schedule = .read 12#6 :: rest →
    (∀ w out', s.out = w :: out' →
      step s = .next { s with out := out', schedule := rest, hostReads := s.hostReads ++ [(12#6, w)] }) ∧
    (s.out = [] →
      step s = .next { s with underflow := true, schedule := rest, hostReads := s.hostReads ++ [(12#6, 0#32)] })

/-- 20_memory.md R52: a write to CMD latches the word unchecked and one to CODEW sets the register, or, while BUSY, each is
dropped and sets OVERRUN; a write to any other word has no effect. -/
def Obligations.RegWriteFollowsTheMap : Prop :=
  ∀ (s : State) (idx : BitVec 6) (v : Word),
    ((idx = 2#6 ∨ (20 ≤ idx.toNat ∧ idx.toNat ≤ 27)) → s.pending ≠ none → regWrite idx v s = { s with overrun := true }) ∧
    (idx = 2#6 → s.pending = none → regWrite idx v s = { s with pending := some v }) ∧
    (∀ k : Fin 8, idx.toNat = 20 + k.val → s.pending = none →
      regWrite idx v s = { s with codew := s.codew.set k.val v }) ∧
    (idx ≠ 2#6 → ¬ (20 ≤ idx.toNat ∧ idx.toNat ≤ 27) → regWrite idx v s = s)

/-- 10_state.md R37: CW[32k+31:32k] = CODEW[k]. -/
def Obligations.CwIsTheCodewRegisters : Prop :=
  (∀ (s : State) (k : Fin 8), s.cw.extractLsb' (32 * k.val) 32 = s.codew[k]) ∧
  (∀ (s : State) (cw : BitVec 256), { s with codew := codewOf cw }.cw = cw)

/-- 10_state.md R41: the fields of STATUS, that a write to it is ignored, and what it reads right after reset and once the
internal CLEAR has completed. -/
def Obligations.StatusShowsItsFields : Prop :=
  (∀ s : State, s.status.getLsbD 0 = decide (s.pending ≠ none) ∧ s.status.extractLsb' 1 3 = s.phase.code ∧
    s.status.extractLsb' 4 4 = s.err.code ∧ s.status.getLsbD 8 = s.overrun ∧ s.status.getLsbD 9 = s.underflow ∧
    s.status.getLsbD 10 = decide (s.root ≠ NULL ∧ s.cursor = s.root) ∧ s.status.extractLsb' 11 21 = 0#21 ∧
    (∀ v, regWrite 3#6 v s = s) ∧ s.phase.code.toNat ≤ 4 ∧ s.err.code.toNat ≤ 9) ∧
  State.reset.status = 0x00000001#32 ∧
  ∃ t, engineStep 0x01000000#32 State.reset = .next t ∧ t.status = 0x00000000#32

/-- 20_memory.md R50, R56: a byte-addressed access at 4·idx is the access to word idx; at any offset that is not a multiple of
4 it is refused. The bus events are the model's (log 11). -/
def Obligations.BusOffsetsNameWords : Prop :=
  ∀ (s : State) (off : BitVec 32),
    (off.toNat % 4 = 0 → off.toNat < 256 →
      happen (.busRead off) s = happen (.read (BitVec.ofNat 6 (off.toNat / 4))) s ∧
      ∀ v, happen (.busWrite off v) s = happen (.write (BitVec.ofNat 6 (off.toNat / 4)) v) s) ∧
    (off.toNat % 4 ≠ 0 → happen (.busRead off) s = .refused .misalignedOffset ∧
      ∀ v, happen (.busWrite off v) s = .refused .misalignedOffset)

/-- 20_memory.md R61, R68: while a command is pending, no Host step changes it, or CW, or takes an enabled step away. The
schedule is the model's (log 2). -/
def Obligations.HostCannotTouchAPendingCommand : Prop :=
  ∀ (s t : State) (e : Event) (rest : List Event) (w : Word), s.pending = some w → s.schedule = e :: rest →
    e ≠ .engine → e ≠ .reset → step s = .next t →
    t.pending = some w ∧ t.codew = s.codew ∧ (s.engineEnabled = true → t.engineEnabled = true)

/-- 70_reset_and_hazards.md R277, 30_encoding.md R91: a Host that drains while it polls is never left waiting: ISSUE of any
word completes. (The Engine has one turn in each round of POLL, the model's choice, log 15.) -/
def Obligations.IssueAlwaysCompletes : Prop :=
  ∀ (w : Word) (s : State), s.params.legal → s.pending = none → ∃ t, issue w s = .next t ∧ t.pending = none

/-! ### Reset -/

/-- 10_state.md R48, 70_reset_and_hazards.md R270: the value the spec gives each element after reset. (NODE, CLEN and CVAL are
unspecified there, and are left out.) -/
def Obligations.ResetStateIsTheSpecs : Prop :=
  let r := State.reset
  r.pending = some 0x01000000#32 ∧ r.phase = .empty ∧ r.err = .noError ∧ r.errinfo = 0#32 ∧ r.overrun = false ∧
  r.underflow = false ∧ (∀ sym, r.freqAt sym = 0#32) ∧ r.total = 0#32 ∧ r.ndist = 0#9 ∧ r.next = 0#10 ∧ r.root = NULL ∧
  r.cursor = NULL ∧ (∀ sym, r.cvalidAt sym = false) ∧ r.out = [] ∧ r.packbuf = 0#32 ∧ r.packcnt = 0#5 ∧
  r.bitcnt = 0#64 ∧ r.cost = 0#64 ∧ r.result0 = 0#32 ∧ r.result1 = 0#32 ∧ ∀ k : Fin 8, r.codew[k] = 0#32

/-- 70_reset_and_hazards.md R270, R272: the reset input, from every state: the pending command is abandoned and the internal
CLEAR is pending; the first Engine step then gives the state a CLEAR gives with OVERRUN = UNDERFLOW = 0, for what the spec
fixes of it. The schedule is the model's (log 2), and so is what reset keeps of the model's own fields (log 9). -/
def Obligations.ResetThenClearIsClear : Prop :=
  ∀ (s : State) (rest : List Event), s.schedule = .reset :: .engine :: rest →
    ∃ t u, step s = .next t ∧ t.pending = some 0x01000000#32 ∧ t.overrun = false ∧ t.underflow = false ∧
      t.out = [] ∧ t.phase = .empty ∧ t.err = .noError ∧ t.params = s.params ∧ step t = .next u ∧
      ∃ c, exec .clear { s with pending := none, overrun := false, underflow := false, schedule := rest } = .next c ∧
        { u with node := c.node, clen := c.clen, cval := c.cval } = c

/-- 70_reset_and_hazards.md R271: a CMD write before the internal CLEAR completes is dropped and sets OVERRUN, which the CLEAR
leaves standing. The schedule is the model's (log 2). -/
def Obligations.WriteBeforeInternalClearIsDropped : Prop :=
  ∀ v : Word, ∃ t u, step { State.reset with schedule := [.write 2#6 v, .engine] } = .next t ∧
    t.status = 0x00000101#32 ∧ t.pending = some 0x01000000#32 ∧ step t = .next u ∧ u.status = 0x00000100#32

/-! ### Rules of the whole machine -/

/-- 10_state.md R25, R46, 42_tree_builder.md R143: in a good job, the transitions of PHASE; no other exists. The schedule is
the model's (log 2). -/
def Obligations.PhaseChangesOnlyAsListed : Prop :=
  ∀ s t : State, GoodJob s → step s = .next t → t.phase ≠ s.phase →
    (s.schedule.head? = some .reset ∧ t.phase = .empty) ∨ (s.runsNext .clear ∧ t.phase = .empty) ∨
    (s.err = .noError ∧ t.err = .noError ∧
      ((∃ sym, s.runsNext (.count sym) ∧ s.phase = .empty ∧ t.phase = .counting) ∨
        (s.runsNext .build ∧ s.phase = .counting ∧ t.phase = .built) ∨
        (s.runsNext .gen ∧ s.phase = .built ∧ t.phase = .ready) ∨
        (∃ sym len, s.runsNext (.loadcode sym len) ∧ s.phase = .empty ∧ t.phase = .loaded)))

/-- 10_state.md R27: OVERRUN and UNDERFLOW, once set, are cleared only by ACKERR and reset. The schedule is the model's
(log 2). -/
def Obligations.StickyFlagsAreClearedOnlyByAckerr : Prop :=
  ∀ s t : State, step s = .next t →
    (s.overrun = true ∧ t.overrun = false) ∨ (s.underflow = true ∧ t.underflow = false) →
    s.runsNext .ackerr ∨ s.schedule.head? = some .reset

/-- Which commands may change which registers; every other command leaves them as they are: 10_state.md R27 (OVERRUN,
UNDERFLOW), R28 and 41_frequency.md R121 (FREQ, TOTAL, NDIST), R30 (NODE, NEXT, ROOT), R31 (the code table), R32 with
40_control.md R102, 42_tree_builder.md R143, 43_code_table.md R163 and 45_decoder.md R200 (CURSOR), R33 with 44_encoder.md R181,
R182 and 45_decoder.md R200 (OUT), R34, R35, R36, R37 and the introduction of 46_readback.md (the rest). PENDING is the
dispatch's to consume (30_encoding.md R90; log 17), and no command changes the model's own fields (log 1, log 2, log 3). -/
def Obligations.CommandsChangeOnlyTheirRegisters : Prop :=
  ∀ (i : Instr) (s t : State), exec i s = .next t →
    (t.pending = s.pending ∧ t.params = s.params ∧ t.schedule = s.schedule ∧ t.hostReads = s.hostReads) ∧
    (i.mnemonic ∉ ["COUNT", "CLEAR"] → t.freq = s.freq ∧ t.total = s.total) ∧
    (i.mnemonic ∉ ["COUNT", "LOADCODE", "CLEAR"] → t.ndist = s.ndist) ∧
    (i.mnemonic ∉ ["BUILD", "LOADCODE", "CLEAR"] → t.node = s.node ∧ t.next = s.next ∧ t.root = s.root) ∧
    (i.mnemonic ∉ ["GEN", "LOADCODE", "CLEAR"] → t.cvalid = s.cvalid ∧ t.clen = s.clen ∧ t.cval = s.cval) ∧
    (i.mnemonic ∉ ["BUILD", "LOADCODE", "DECODE", "ACKERR", "CLEAR"] → t.cursor = s.cursor) ∧
    (i.mnemonic ∉ ["ENCODE", "FLUSH", "DECODE", "CLEAR"] → t.out = s.out) ∧
    (i.mnemonic ∉ ["ENCODE", "FLUSH", "CLEAR"] → t.packbuf = s.packbuf ∧ t.packcnt = s.packcnt) ∧
    (i.mnemonic ∉ ["ENCODE", "CLEAR"] → t.bitcnt = s.bitcnt) ∧
    (i.mnemonic ∉ ["GEN", "CLEAR"] → t.cost = s.cost) ∧
    (i.mnemonic ∉ ["READCODE", "READFREQ", "READNODE", "CLEAR"] → t.result0 = s.result0 ∧ t.result1 = s.result1) ∧
    (i.mnemonic ∉ ["READCODE", "CLEAR"] → t.codew = s.codew) ∧
    (i.mnemonic ≠ "ACKERR" → t.overrun = s.overrun ∧ t.underflow = s.underflow)

/-- The structure of a good state holds at reset (10_state.md R26, R33, R34, R48). -/
def Obligations.ResetStateIsWellStructured : Prop := Inv State.reset

/-- 10_state.md R26, R33, R34, 44_encoder.md R181 (at most 8 words): every step keeps the structure of a good state: OUT never
holds more than FIFO_DEPTH words, ERRINFO is 0 while ERR is, PACKBUF is 0 below its pending bits, and the internal memories
keep their canonical form. -/
def Obligations.StepKeepsTheStructure : Prop :=
  ∀ s t : State, Inv s → step s = .next t → Inv t

/-- A good job holds at reset (10_state.md R46, R48). -/
def Obligations.ResetStateIsAGoodJob : Prop := GoodJob State.reset

/-- 10_state.md R46, R32, 41_frequency.md R121, 42_tree_builder.md R146, 43_code_table.md R162, R164: every step keeps a good
job good: in each phase, the counters are what they count, the tree is the tree, and the codes are its paths. -/
def Obligations.StepKeepsAGoodJob : Prop :=
  ∀ s t : State, GoodJob s → step s = .next t → GoodJob t
end

