-- ==== Sys2Proof/Laws/Decode.lean ====
section
/-! SUPPORT. The fields of an encoded word read back (30_encoding.md R80, R81, R82), and its bits under a mask. -/

namespace Sys2Proof

/-! ### The bits of each format -/

theorem word_bit (p : BitVec 8) (a : BitVec 24) (i : Nat) :
    (p ++ a : Word).getLsbD i = if i < 24 then a.getLsbD i else p.getLsbD (i - 24) := BitVec.getLsbD_append

theorem formatS_bit (sym : Symbol) (i : Nat) :
    (0#16 ++ sym : BitVec 24).getLsbD i = (decide (i < 8) && sym.getLsbD i) :=
  BitVec.getLsbD_append.trans (by split <;> simp [*])

theorem formatI_bit (idx : NodeIdx) (i : Nat) :
    (0#15 ++ idx : BitVec 24).getLsbD i = (decide (i < 9) && idx.getLsbD i) :=
  BitVec.getLsbD_append.trans (by split <;> simp [*])

theorem formatL_bit (len sym : BitVec 8) (i : Nat) :
    (0#8 ++ len ++ sym : BitVec 24).getLsbD i =
      if i < 8 then sym.getLsbD i else decide (i < 16) && len.getLsbD (i - 8) :=
  BitVec.getLsbD_append.trans (by
    split
    · rfl
    · rw [BitVec.getLsbD_append]
      split
      · simp [show i < 16 by omega]
      · simp [show ¬ i < 16 by omega])

theorem formatD_bit (n : BitVec 5) (bits : BitVec 16) (i : Nat) :
    (0#3 ++ n ++ bits : BitVec 24).getLsbD i =
      if i < 16 then bits.getLsbD i else decide (i < 21) && n.getLsbD (i - 16) :=
  BitVec.getLsbD_append.trans (by
    split
    · rfl
    · rw [BitVec.getLsbD_append]
      split
      · simp [show i < 21 by omega]
      · simp [show ¬ i < 21 by omega])

/-! ### The fields -/

@[simp] theorem opcodeOf_append (p : BitVec 8) (a : BitVec 24) : opcodeOf (p ++ a) = p := by
  apply BitVec.eq_of_getLsbD_eq
  intro i hi
  simp [opcodeOf, word_bit, hi]

@[simp] theorem operandOf_append (p : BitVec 8) (a : BitVec 24) : operandOf (p ++ a) = a := by
  apply BitVec.eq_of_getLsbD_eq
  intro i hi
  simp [operandOf, word_bit, hi]

@[simp] theorem opcodeOf_encode (i : Instr) : opcodeOf (encode i) = i.opcode := opcodeOf_append _ _

@[simp] theorem operandOf_encode (i : Instr) : operandOf (encode i) = i.operand := operandOf_append _ _

/-- A word is its opcode and its operand (R80). -/
theorem word_eq_fields (w : Word) : (opcodeOf w ++ operandOf w : Word) = w := by
  apply BitVec.eq_of_getLsbD_eq
  intro i hi
  rw [word_bit]
  split
  · simp [operandOf, *]
  · simp [opcodeOf, show i - 24 < 8 by omega, show 24 + (i - 24) = i by omega]

@[simp] theorem symField_S (sym : Symbol) : symField (0#16 ++ sym) = sym := by
  apply BitVec.eq_of_getLsbD_eq
  intro i hi
  simp [symField, formatS_bit, hi]

@[simp] theorem idxField_I (idx : NodeIdx) : idxField (0#15 ++ idx) = idx := by
  apply BitVec.eq_of_getLsbD_eq
  intro i hi
  simp [idxField, formatI_bit, hi]

@[simp] theorem symField_L (len sym : BitVec 8) : symField (0#8 ++ len ++ sym) = sym := by
  apply BitVec.eq_of_getLsbD_eq
  intro i hi
  simp [symField, formatL_bit, hi]

@[simp] theorem lenField_L (len sym : BitVec 8) : lenField (0#8 ++ len ++ sym) = len := by
  apply BitVec.eq_of_getLsbD_eq
  intro i hi
  simp [lenField, formatL_bit, hi, show 8 + i < 16 by omega]

@[simp] theorem nField_D (n : BitVec 5) (bits : BitVec 16) : nField (0#3 ++ n ++ bits) = n := by
  apply BitVec.eq_of_getLsbD_eq
  intro i hi
  simp [nField, formatD_bit, hi, show 16 + i < 21 by omega]

@[simp] theorem bitsField_D (n : BitVec 5) (bits : BitVec 16) : bitsField (0#3 ++ n ++ bits) = bits := by
  apply BitVec.eq_of_getLsbD_eq
  intro i hi
  simp [bitsField, formatD_bit, hi]

/-! ### The reserved bits (R81, R84) -/

@[simp] theorem reserved_S (sym : Symbol) : (0#16 ++ sym : BitVec 24) &&& 0xFFFF00#24 = 0#24 := by
  apply BitVec.eq_of_getLsbD_eq
  intro i hi
  rw [BitVec.getLsbD_and, formatS_bit]
  by_cases h : i < 8
  · interval_cases i <;> simp
  · simp [h]

@[simp] theorem reserved_I (idx : NodeIdx) : (0#15 ++ idx : BitVec 24) &&& 0xFFFE00#24 = 0#24 := by
  apply BitVec.eq_of_getLsbD_eq
  intro i hi
  rw [BitVec.getLsbD_and, formatI_bit]
  by_cases h : i < 9
  · interval_cases i <;> simp
  · simp [h]

@[simp] theorem reserved_L (len sym : BitVec 8) : (0#8 ++ len ++ sym : BitVec 24) &&& 0xFF0000#24 = 0#24 := by
  apply BitVec.eq_of_getLsbD_eq
  intro i hi
  rw [BitVec.getLsbD_and, formatL_bit]
  by_cases h : i < 16
  · interval_cases i <;> simp
  · simp [h, show ¬ i < 8 by omega]

@[simp] theorem reserved_D (n : BitVec 5) (bits : BitVec 16) :
    (0#3 ++ n ++ bits : BitVec 24) &&& 0xE00000#24 = 0#24 := by
  apply BitVec.eq_of_getLsbD_eq
  intro i hi
  rw [BitVec.getLsbD_and, formatD_bit]
  by_cases h : i < 21
  · interval_cases i <;> simp
  · simp [h, show ¬ i < 16 by omega]

end Sys2Proof
end

