-- ==== Sys2Proof/Laws/Memory.lean ====
section
/-! SUPPORT. The laws of an internal memory: what a read sees after a write, and that every operation keeps the canonical
form. -/

namespace Sys2Proof.Machine

variable {α : Type}

@[simp] theorem Memory.read_nil (d : α) (a : Nat) : Memory.read d [] a = d := rfl

theorem Memory.read_cons (d : α) (c : Nat × α) (m : Memory α) (a : Nat) :
    Memory.read d (c :: m) a = if c.1 = a then c.2 else Memory.read d m a := rfl

/-- After an erase, the index reads as unlisted and every other index as before. -/
theorem Memory.read_erase (d : α) (m : Memory α) (a b : Nat) :
    Memory.read d (Memory.erase m a) b = if b = a then d else Memory.read d m b := by
  induction m with
  | nil => simp [Memory.erase]
  | cons c t ih =>
    simp only [Memory.erase] at ih ⊢
    by_cases hc : c.1 = a
    · simp only [List.filter_cons, hc, ne_eq, not_true_eq_false, decide_false, Bool.false_eq_true, if_false, ih,
        Memory.read_cons]
      split
      · rfl
      · next h => simp [Ne.symm h]
    · simp only [List.filter_cons, ne_eq, hc, not_false_eq_true, decide_true, if_true, Memory.read_cons, ih]
      by_cases hb : b = a
      · simp [hb, hc]
      · simp [hb]

/-- An insert into a memory that does not list the index changes the read of that index only. -/
theorem Memory.read_insert (d : α) (m : Memory α) (a b : Nat) (v : α) (free : ∀ c ∈ m, c.1 ≠ a) :
    Memory.read d (Memory.insert m a v) b = if b = a then v else Memory.read d m b := by
  induction m with
  | nil => simp [Memory.insert, Memory.read_cons, eq_comm]
  | cons c t ih =>
    have hc : c.1 ≠ a := free c (by simp)
    have ih' := ih fun c' h => free c' (by simp [h])
    simp only [Memory.insert]
    split
    · simp [Memory.read_cons, eq_comm]
    · simp only [Memory.read_cons, ih']
      by_cases hb : b = a
      · simp [hb, hc]
      · simp [hb]

theorem Memory.erase_free (m : Memory α) (a : Nat) : ∀ c ∈ Memory.erase m a, c.1 ≠ a := by
  intro c h
  simpa [Memory.erase] using (List.mem_filter.mp h).2

/-- The law of a write: the index reads the value written, every other index reads as before. -/
theorem Memory.read_write [DecidableEq α] (d : α) (m : Memory α) (a b : Nat) (v : α) :
    Memory.read d (Memory.write d m a v) b = if b = a then v else Memory.read d m b := by
  unfold Memory.write
  split
  · next h => rw [Memory.read_erase, h]
  · rw [Memory.read_insert d _ a b v (Memory.erase_free m a), Memory.read_erase]
    split <;> rfl

@[simp] theorem Memory.read_write_same [DecidableEq α] (d : α) (m : Memory α) (a : Nat) (v : α) :
    Memory.read d (Memory.write d m a v) a = v := by simp [Memory.read_write]

theorem Memory.read_write_other [DecidableEq α] (d : α) (m : Memory α) {a b : Nat} (v : α) (h : b ≠ a) :
    Memory.read d (Memory.write d m a v) b = Memory.read d m b := by simp [Memory.read_write, h]

/-! ### The canonical form -/

@[simp] theorem Memory.wf_nil (d : α) (size : Nat) : Memory.wf d size [] := by simp [Memory.wf]

theorem Memory.wf_erase {d : α} {size : Nat} {m : Memory α} (h : Memory.wf d size m) (a : Nat) :
    Memory.wf d size (Memory.erase m a) :=
  ⟨h.1.filter _, fun c hc => h.2 c (List.mem_filter.mp hc).1⟩

theorem Memory.mem_insert (m : Memory α) (a : Nat) (v : α) (c : Nat × α) :
    c ∈ Memory.insert m a v ↔ c = (a, v) ∨ c ∈ m := by
  induction m with
  | nil => simp [Memory.insert]
  | cons c' t ih =>
    simp only [Memory.insert]
    split
    · simp
    · simp only [List.mem_cons, ih]
      tauto

theorem Memory.wf_insert {d : α} {size : Nat} {m : Memory α} (h : Memory.wf d size m) {a : Nat} {v : α}
    (free : ∀ c ∈ m, c.1 ≠ a) (ha : a < size) (hv : v ≠ d) : Memory.wf d size (Memory.insert m a v) := by
  refine ⟨?_, fun c hc => ?_⟩
  · obtain ⟨rising, -⟩ := h
    induction m with
    | nil => simp [Memory.insert]
    | cons c t ih =>
      obtain ⟨hlt, ht⟩ := List.pairwise_cons.mp rising
      have hc : c.1 ≠ a := free c (by simp)
      simp only [Memory.insert]
      split
      · next lt =>
        refine List.pairwise_cons.mpr ⟨fun c' hc' => ?_, rising⟩
        rcases List.mem_cons.mp hc' with rfl | hc'
        · exact lt
        · exact Nat.lt_trans lt (hlt c' hc')
      · next nlt =>
        refine List.pairwise_cons.mpr ⟨fun c' hc' => ?_, ih (fun c' h' => free c' (by simp [h'])) ht⟩
        rcases (Memory.mem_insert t a v c').mp hc' with rfl | hc'
        · simp only; omega
        · exact hlt c' hc'
  · rcases (Memory.mem_insert m a v c).mp hc with rfl | hc
    · exact ⟨ha, hv⟩
    · exact h.2 c hc

/-- Every write keeps the canonical form. -/
theorem Memory.wf_write [DecidableEq α] {d : α} {size : Nat} {m : Memory α} (h : Memory.wf d size m) {a : Nat} (v : α)
    (ha : a < size) : Memory.wf d size (Memory.write d m a v) := by
  unfold Memory.write
  split
  · exact Memory.wf_erase h a
  · next hv => exact Memory.wf_insert (Memory.wf_erase h a) (Memory.erase_free m a) ha hv

end Sys2Proof.Machine
end

