-- ==== Sys2Proof/Laws/State.lean ====
section
/-! SUPPORT. One lemma per field per named update of the state, true by rfl, so that no later proof unfolds a record update. -/

namespace Sys2Proof.Machine

section WithArena
variable (s : State) (ar : Arena)
@[simp] theorem withArena_node : (s.withArena ar).node = ar.node := rfl
@[simp] theorem withArena_next : (s.withArena ar).next = ar.next := rfl
@[simp] theorem withArena_pending : (s.withArena ar).pending = s.pending := rfl
@[simp] theorem withArena_phase : (s.withArena ar).phase = s.phase := rfl
@[simp] theorem withArena_err : (s.withArena ar).err = s.err := rfl
@[simp] theorem withArena_errinfo : (s.withArena ar).errinfo = s.errinfo := rfl
@[simp] theorem withArena_overrun : (s.withArena ar).overrun = s.overrun := rfl
@[simp] theorem withArena_underflow : (s.withArena ar).underflow = s.underflow := rfl
@[simp] theorem withArena_freq : (s.withArena ar).freq = s.freq := rfl
@[simp] theorem withArena_total : (s.withArena ar).total = s.total := rfl
@[simp] theorem withArena_ndist : (s.withArena ar).ndist = s.ndist := rfl
@[simp] theorem withArena_root : (s.withArena ar).root = s.root := rfl
@[simp] theorem withArena_cvalid : (s.withArena ar).cvalid = s.cvalid := rfl
@[simp] theorem withArena_clen : (s.withArena ar).clen = s.clen := rfl
@[simp] theorem withArena_cval : (s.withArena ar).cval = s.cval := rfl
@[simp] theorem withArena_cursor : (s.withArena ar).cursor = s.cursor := rfl
@[simp] theorem withArena_out : (s.withArena ar).out = s.out := rfl
@[simp] theorem withArena_packbuf : (s.withArena ar).packbuf = s.packbuf := rfl
@[simp] theorem withArena_packcnt : (s.withArena ar).packcnt = s.packcnt := rfl
@[simp] theorem withArena_bitcnt : (s.withArena ar).bitcnt = s.bitcnt := rfl
@[simp] theorem withArena_cost : (s.withArena ar).cost = s.cost := rfl
@[simp] theorem withArena_result0 : (s.withArena ar).result0 = s.result0 := rfl
@[simp] theorem withArena_result1 : (s.withArena ar).result1 = s.result1 := rfl
@[simp] theorem withArena_codew : (s.withArena ar).codew = s.codew := rfl
@[simp] theorem withArena_params : (s.withArena ar).params = s.params := rfl
@[simp] theorem withArena_schedule : (s.withArena ar).schedule = s.schedule := rfl
@[simp] theorem withArena_hostReads : (s.withArena ar).hostReads = s.hostReads := rfl
end WithArena

section WithTable
variable (s : State) (t : CodeTable)
@[simp] theorem withTable_cvalid : (s.withTable t).cvalid = t.cvalid := rfl
@[simp] theorem withTable_clen : (s.withTable t).clen = t.clen := rfl
@[simp] theorem withTable_cval : (s.withTable t).cval = t.cval := rfl
@[simp] theorem withTable_pending : (s.withTable t).pending = s.pending := rfl
@[simp] theorem withTable_phase : (s.withTable t).phase = s.phase := rfl
@[simp] theorem withTable_err : (s.withTable t).err = s.err := rfl
@[simp] theorem withTable_errinfo : (s.withTable t).errinfo = s.errinfo := rfl
@[simp] theorem withTable_overrun : (s.withTable t).overrun = s.overrun := rfl
@[simp] theorem withTable_underflow : (s.withTable t).underflow = s.underflow := rfl
@[simp] theorem withTable_freq : (s.withTable t).freq = s.freq := rfl
@[simp] theorem withTable_total : (s.withTable t).total = s.total := rfl
@[simp] theorem withTable_ndist : (s.withTable t).ndist = s.ndist := rfl
@[simp] theorem withTable_node : (s.withTable t).node = s.node := rfl
@[simp] theorem withTable_next : (s.withTable t).next = s.next := rfl
@[simp] theorem withTable_root : (s.withTable t).root = s.root := rfl
@[simp] theorem withTable_cursor : (s.withTable t).cursor = s.cursor := rfl
@[simp] theorem withTable_out : (s.withTable t).out = s.out := rfl
@[simp] theorem withTable_packbuf : (s.withTable t).packbuf = s.packbuf := rfl
@[simp] theorem withTable_packcnt : (s.withTable t).packcnt = s.packcnt := rfl
@[simp] theorem withTable_bitcnt : (s.withTable t).bitcnt = s.bitcnt := rfl
@[simp] theorem withTable_cost : (s.withTable t).cost = s.cost := rfl
@[simp] theorem withTable_result0 : (s.withTable t).result0 = s.result0 := rfl
@[simp] theorem withTable_result1 : (s.withTable t).result1 = s.result1 := rfl
@[simp] theorem withTable_codew : (s.withTable t).codew = s.codew := rfl
@[simp] theorem withTable_params : (s.withTable t).params = s.params := rfl
@[simp] theorem withTable_schedule : (s.withTable t).schedule = s.schedule := rfl
@[simp] theorem withTable_hostReads : (s.withTable t).hostReads = s.hostReads := rfl
end WithTable

section WithPacker
variable (s : State) (p : Packer)
@[simp] theorem withPacker_out : (s.withPacker p).out = p.out := rfl
@[simp] theorem withPacker_packbuf : (s.withPacker p).packbuf = p.packbuf := rfl
@[simp] theorem withPacker_packcnt : (s.withPacker p).packcnt = p.packcnt := rfl
@[simp] theorem withPacker_bitcnt : (s.withPacker p).bitcnt = p.bitcnt := rfl
@[simp] theorem withPacker_packer : (s.withPacker p).packer = p := rfl
@[simp] theorem withPacker_self : s.withPacker s.packer = s := rfl
@[simp] theorem withPacker_pending : (s.withPacker p).pending = s.pending := rfl
@[simp] theorem withPacker_phase : (s.withPacker p).phase = s.phase := rfl
@[simp] theorem withPacker_err : (s.withPacker p).err = s.err := rfl
@[simp] theorem withPacker_errinfo : (s.withPacker p).errinfo = s.errinfo := rfl
@[simp] theorem withPacker_overrun : (s.withPacker p).overrun = s.overrun := rfl
@[simp] theorem withPacker_underflow : (s.withPacker p).underflow = s.underflow := rfl
@[simp] theorem withPacker_freq : (s.withPacker p).freq = s.freq := rfl
@[simp] theorem withPacker_total : (s.withPacker p).total = s.total := rfl
@[simp] theorem withPacker_ndist : (s.withPacker p).ndist = s.ndist := rfl
@[simp] theorem withPacker_node : (s.withPacker p).node = s.node := rfl
@[simp] theorem withPacker_next : (s.withPacker p).next = s.next := rfl
@[simp] theorem withPacker_root : (s.withPacker p).root = s.root := rfl
@[simp] theorem withPacker_cvalid : (s.withPacker p).cvalid = s.cvalid := rfl
@[simp] theorem withPacker_clen : (s.withPacker p).clen = s.clen := rfl
@[simp] theorem withPacker_cval : (s.withPacker p).cval = s.cval := rfl
@[simp] theorem withPacker_cursor : (s.withPacker p).cursor = s.cursor := rfl
@[simp] theorem withPacker_cost : (s.withPacker p).cost = s.cost := rfl
@[simp] theorem withPacker_result0 : (s.withPacker p).result0 = s.result0 := rfl
@[simp] theorem withPacker_result1 : (s.withPacker p).result1 = s.result1 := rfl
@[simp] theorem withPacker_codew : (s.withPacker p).codew = s.codew := rfl
@[simp] theorem withPacker_params : (s.withPacker p).params = s.params := rfl
@[simp] theorem withPacker_schedule : (s.withPacker p).schedule = s.schedule := rfl
@[simp] theorem withPacker_hostReads : (s.withPacker p).hostReads = s.hostReads := rfl
end WithPacker

section Parts
variable (s : State)
@[simp] theorem arena_node : s.arena.node = s.node := rfl
@[simp] theorem arena_next : s.arena.next = s.next := rfl
@[simp] theorem table_cvalid : s.table.cvalid = s.cvalid := rfl
@[simp] theorem table_clen : s.table.clen = s.clen := rfl
@[simp] theorem table_cval : s.table.cval = s.cval := rfl
@[simp] theorem packer_out : s.packer.out = s.out := rfl
@[simp] theorem packer_packbuf : s.packer.packbuf = s.packbuf := rfl
@[simp] theorem packer_packcnt : s.packer.packcnt = s.packcnt := rfl
@[simp] theorem packer_bitcnt : s.packer.bitcnt = s.bitcnt := rfl
end Parts

section Acknowledge
variable (s : State)
@[simp] theorem acknowledge_err : (acknowledge s).err = .noError := rfl
@[simp] theorem acknowledge_errinfo : (acknowledge s).errinfo = 0#32 := rfl
@[simp] theorem acknowledge_overrun : (acknowledge s).overrun = false := rfl
@[simp] theorem acknowledge_underflow : (acknowledge s).underflow = false := rfl
@[simp] theorem acknowledge_cursor : (acknowledge s).cursor = s.root := rfl
@[simp] theorem acknowledge_root : (acknowledge s).root = s.root := rfl
@[simp] theorem acknowledge_phase : (acknowledge s).phase = s.phase := rfl
@[simp] theorem acknowledge_out : (acknowledge s).out = s.out := rfl
end Acknowledge

end Sys2Proof.Machine
end

