-- ==== Sys2Proof/Laws/Ops.lean ====
section
/-! SUPPORT. What each shared operation can do, said once: recording an error, the dispatch around a command, allocating and
overwriting a node, and writing a table entry. -/

namespace Sys2Proof.Machine

/-! ### raise -/

theorem raise_of_noError {s : State} (h : s.err = .noError) (op : BitVec 8) (e : ErrCode) (detail : BitVec 24) :
    raise op e detail s = { s with err := e, errinfo := op ++ detail } := by simp [raise, h]

theorem raise_of_error {s : State} (h : s.err ≠ .noError) (op : BitVec 8) (e : ErrCode) (detail : BitVec 24) :
    raise op e detail s = s := by simp [raise, h]

/-- An error changes nothing but ERR and ERRINFO. -/
theorem raise_frame (op : BitVec 8) (e : ErrCode) (detail : BitVec 24) (s : State) :
    raise op e detail s =
      { s with err := (raise op e detail s).err, errinfo := (raise op e detail s).errinfo } := by
  unfold raise
  split <;> rfl

/-! ### command -/

theorem command_dropped {i : Instr} {s : State} (effect : State → State) (h : s.drops i.opcode = true) :
    command i effect s = .next s := by simp [command, h]

/-- A command that is not dropped, is well formed and may run in this phase has its effect. -/
theorem command_runs {i : Instr} {s : State} (effect : State → State) (kept : s.drops i.opcode = false)
    (wf : i.wellFormed = true) (legal : legalIn i s.phase = true) : command i effect s = .next (effect s) := by
  simp [command, kept, wf, legal]

theorem drops_of_noError {s : State} (h : s.err = .noError) (op : BitVec 8) : s.drops op = false := by
  simp [State.drops, h]

theorem drops_of_kept {op : BitVec 8} (h : keptInError op = true) (s : State) : s.drops op = false := by
  simp [State.drops, h]

/-- Everything a command can do: it is dropped, it raises IllegalCommand or SequenceError, or it has its effect. -/
theorem command_cases (i : Instr) (effect : State → State) (s : State) :
    (s.drops i.opcode = true ∧ command i effect s = .next s) ∨
    (s.drops i.opcode = false ∧ i.wellFormed = false ∧
      command i effect s = .next (raise i.opcode .illegalCommand i.operand s)) ∨
    (s.drops i.opcode = false ∧ i.wellFormed = true ∧ legalIn i s.phase = false ∧
      command i effect s = .next (raise i.opcode .sequenceError (s.phase.code.setWidth 24) s)) ∨
    (s.drops i.opcode = false ∧ i.wellFormed = true ∧ legalIn i s.phase = true ∧
      command i effect s = .next (effect s)) := by
  unfold command
  cases s.drops i.opcode <;> cases i.wellFormed <;> cases legalIn i s.phase <;> simp

theorem command_next (i : Instr) (effect : State → State) (s : State) : ∃ t, command i effect s = .next t := by
  obtain ⟨-, h⟩ | ⟨-, -, h⟩ | ⟨-, -, -, h⟩ | ⟨-, -, -, h⟩ := command_cases i effect s <;> exact ⟨_, h⟩

/-! ### Nodes -/

/-- What NODE reads after NODE[n] <- r. -/
theorem nodeAt_put (ar : Arena) (n k : NodeIdx) (r : Node) :
    nodeAt (ar.put n r).node k = if k = n then r else nodeAt ar.node k := by
  simp only [nodeAt, Arena.put, Memory.read_write, BitVec.toNat_inj]

@[simp] theorem put_next (ar : Arena) (n : NodeIdx) (r : Node) : (ar.put n r).next = ar.next := rfl

@[simp] theorem alloc_fst (ar : Arena) (r : Node) : (ar.alloc r).1 = ar.next.setWidth 9 := rfl

@[simp] theorem alloc_next (ar : Arena) (r : Node) : (ar.alloc r).2.next = ar.next + 1#10 := rfl

theorem alloc_node (ar : Arena) (r : Node) : (ar.alloc r).2.node = (ar.put (ar.next.setWidth 9) r).node := rfl

/-- What NODE reads after alloc(r). -/
theorem nodeAt_alloc (ar : Arena) (k : NodeIdx) (r : Node) :
    nodeAt (ar.alloc r).2.node k = if k = ar.next.setWidth 9 then r else nodeAt ar.node k := by
  rw [alloc_node, nodeAt_put]

theorem put_wf {ar : Arena} (h : Memory.wf Node.unlisted (2 ^ 9) ar.node) (n : NodeIdx) (r : Node) :
    Memory.wf Node.unlisted (2 ^ 9) (ar.put n r).node := Memory.wf_write h r n.isLt

theorem alloc_wf {ar : Arena} (h : Memory.wf Node.unlisted (2 ^ 9) ar.node) (r : Node) :
    Memory.wf Node.unlisted (2 ^ 9) (ar.alloc r).2.node := put_wf h _ r

@[simp] theorem withChild_kind (r : Node) (b : Bool) (c : NodeIdx) : (r.withChild b c).kind = r.kind := by
  cases b <;> rfl

@[simp] theorem withChild_weight (r : Node) (b : Bool) (c : NodeIdx) : (r.withChild b c).weight = r.weight := by
  cases b <;> rfl

@[simp] theorem withChild_sym (r : Node) (b : Bool) (c : NodeIdx) : (r.withChild b c).sym = r.sym := by
  cases b <;> rfl

/-! ### The code table -/

/-- What CVALID reads after an assignment. -/
theorem cvalidAt_assign (s : State) (sym k : Symbol) (len : BitVec 8) (v : CodeVal) :
    (s.withTable (s.table.assign sym len v)).cvalidAt k = if k = sym then true else s.cvalidAt k := by
  simp only [State.cvalidAt, withTable_cvalid, CodeTable.assign, table_cvalid, Memory.read_write, BitVec.toNat_inj]

/-- What CLEN reads after an assignment. -/
theorem clenAt_assign (s : State) (sym k : Symbol) (len : BitVec 8) (v : CodeVal) :
    (s.withTable (s.table.assign sym len v)).clenAt k = if k = sym then len else s.clenAt k := by
  simp only [State.clenAt, withTable_clen, CodeTable.assign, table_clen, Memory.read_write, BitVec.toNat_inj]

/-- What CVAL reads after an assignment. -/
theorem cvalAt_assign (s : State) (sym k : Symbol) (len : BitVec 8) (v : CodeVal) :
    (s.withTable (s.table.assign sym len v)).cvalAt k = if k = sym then v else s.cvalAt k := by
  simp only [State.cvalAt, withTable_cval, CodeTable.assign, table_cval, Memory.read_write, BitVec.toNat_inj]

end Sys2Proof.Machine
end

