-- ==== Sys2Proof/Laws/PerInstr.lean ====
section
/-! SUPPORT. What holds of every command as syntax, one lemma per constructor: its word has its row's bits (30_encoding.md
R84). -/

namespace Sys2Proof.Laws.WordOfItsRow

/-- Some row of the opcode table bears the command's mnemonic, and under its mask the command's word is the row's value. -/
def Statement (i : Instr) : Prop := ∃ r ∈ opcodeRows, r.mnemonic = i.mnemonic ∧ encode i &&& r.mask = r.value

/-- A word is a row's when its opcode is the row's and its operand is 0 under the row's operand mask. -/
theorem masked (p : BitVec 8) (a mask : BitVec 24) (h : a &&& mask = 0#24) :
    (p ++ a : Word) &&& (0xFF#8 ++ mask : Word) = (p ++ 0#24 : Word) := by
  have e : (p ++ a : Word) &&& (0xFF#8 ++ mask : Word) = ((p &&& 0xFF#8) ++ (a &&& mask) : Word) := BitVec.and_append
  rw [e, h, show p &&& 0xFF#8 = p from BitVec.and_allOnes (x := p)]

theorem nop : Statement .nop := ⟨opcodeRows[0], by decide, rfl, by decide⟩

theorem clear : Statement .clear := ⟨opcodeRows[1], by decide, rfl, by decide⟩

theorem count (sym : Symbol) : Statement (.count sym) :=
  ⟨opcodeRows[2], by decide, rfl, masked 0x02#8 (0#16 ++ sym) 0xFFFF00#24 (reserved_S sym)⟩

theorem build : Statement .build := ⟨opcodeRows[3], by decide, rfl, by decide⟩

theorem gen : Statement .gen := ⟨opcodeRows[4], by decide, rfl, by decide⟩

theorem encode (sym : Symbol) : Statement (.encode sym) :=
  ⟨opcodeRows[5], by decide, rfl, masked 0x05#8 (0#16 ++ sym) 0xFFFF00#24 (reserved_S sym)⟩

theorem flush : Statement .flush := ⟨opcodeRows[6], by decide, rfl, by decide⟩

theorem decode (n : BitVec 5) (bits : BitVec 16) : Statement (.decode n bits) :=
  ⟨opcodeRows[7], by decide, rfl, masked 0x07#8 (0#3 ++ n ++ bits) 0xE00000#24 (reserved_D n bits)⟩

theorem decend : Statement .decend := ⟨opcodeRows[8], by decide, rfl, by decide⟩

theorem loadcode (sym : Symbol) (len : BitVec 8) : Statement (.loadcode sym len) :=
  ⟨opcodeRows[9], by decide, rfl, masked 0x09#8 (0#8 ++ len ++ sym) 0xFF0000#24 (reserved_L len sym)⟩

theorem readcode (sym : Symbol) : Statement (.readcode sym) :=
  ⟨opcodeRows[10], by decide, rfl, masked 0x0A#8 (0#16 ++ sym) 0xFFFF00#24 (reserved_S sym)⟩

theorem readfreq (sym : Symbol) : Statement (.readfreq sym) :=
  ⟨opcodeRows[11], by decide, rfl, masked 0x0B#8 (0#16 ++ sym) 0xFFFF00#24 (reserved_S sym)⟩

theorem readnode (idx : NodeIdx) : Statement (.readnode idx) :=
  ⟨opcodeRows[12], by decide, rfl, masked 0x0C#8 (0#15 ++ idx) 0xFFFE00#24 (reserved_I idx)⟩

theorem ackerr : Statement .ackerr := ⟨opcodeRows[13], by decide, rfl, by decide⟩

end Sys2Proof.Laws.WordOfItsRow
end

