-- ==== Sys2Proof/Laws/Step.lean ====
section
/-! SUPPORT. What an Engine turn, an event and a step can do, said once. -/

namespace Sys2Proof.Machine

/-- The effect of each command, behind the dispatch of `command`. -/
def effectOf : Instr → State → State
  | .nop => id
  | .clear => clearEffect
  | .count sym => countEffect sym
  | .build => buildEffect
  | .gen => genEffect
  | .encode sym => encodeEffect sym
  | .flush => flushEffect
  | .decode n bits => decodeEffect n bits
  | .decend => decendEffect
  | .loadcode sym len => loadcodeEffect sym len
  | .readcode sym => readcodeEffect sym
  | .readfreq sym => readfreqEffect sym
  | .readnode idx => readnodeEffect idx
  | .ackerr => acknowledge

/-- Every command is its effect behind the dispatch. -/
theorem exec_eq_command (i : Instr) (s : State) : exec i s = command i (effectOf i) s := by
  cases i <;> rfl

/-- Every command answers a next state. -/
theorem exec_next (i : Instr) (s : State) : ∃ t, exec i s = .next t := by
  rw [exec_eq_command]
  exact command_next i _ s

/-- The Engine's turn: no command, a command that waits, a command that runs, or an illegal word. -/
theorem engineTurn_cases (s : State) :
    (s.pending = none ∧ engineTurn s = .next s) ∨
    (∃ w, s.pending = some w ∧ s.roomFor w = false ∧ engineTurn s = .next s) ∨
    (∃ w i, s.pending = some w ∧ s.roomFor w = true ∧ decode w = .ok i ∧
      engineTurn s = exec i { s with pending := none }) ∨
    (∃ w e, s.pending = some w ∧ s.roomFor w = true ∧ decode w = .error e ∧
      engineTurn s = .next (illegalWord w { s with pending := none })) := by
  unfold engineTurn
  cases hp : s.pending with
  | none => simp
  | some w =>
    cases hr : s.roomFor w with
    | false => simp [hr]
    | true =>
      cases hd : decode w with
      | error e => simp [hr, hd, engineStep]
      | ok i => simp [hr, hd, engineStep]

/-- The Engine's turn answers a next state. -/
theorem engineTurn_next (s : State) : ∃ t, engineTurn s = .next t := by
  obtain ⟨-, h⟩ | ⟨w, -, -, h⟩ | ⟨w, i, -, -, -, h⟩ | ⟨w, e, -, -, -, h⟩ := engineTurn_cases s
  · exact ⟨_, h⟩
  · exact ⟨_, h⟩
  · obtain ⟨t, ht⟩ := exec_next i { s with pending := none }
    exact ⟨t, h.trans ht⟩
  · exact ⟨_, h⟩

@[simp] theorem step_of_nil {s : State} (h : s.schedule = []) : step s = engineTurn s := by simp [step, h]

@[simp] theorem step_of_cons {s : State} {e : Event} {rest : List Event} (h : s.schedule = e :: rest) :
    step s = happen e { s with schedule := rest } := by simp [step, h]

/-- Everything a step is: the Engine's turn with nothing scheduled, or what the next event does. -/
theorem step_cases (s : State) :
    (s.schedule = [] ∧ step s = engineTurn s) ∨
    (∃ e rest, s.schedule = e :: rest ∧ step s = happen e { s with schedule := rest }) := by
  cases h : s.schedule with
  | nil => exact .inl ⟨rfl, step_of_nil h⟩
  | cons e rest => exact .inr ⟨e, rest, rfl, step_of_cons h⟩

/-- A bus access is a refusal, a fault, or the access to the word at its offset. -/
theorem busAccess_cases (off : BitVec 32) (access : BitVec 6 → State → State) (s : State) :
    (off.toNat % 4 ≠ 0 ∧ busAccess off access s = .refused .misalignedOffset) ∨
    (off.toNat % 4 = 0 ∧ 256 ≤ off.toNat ∧ busAccess off access s = .fault .outsideRegisterMap) ∨
    (off.toNat % 4 = 0 ∧ off.toNat < 256 ∧
      busAccess off access s = .next (access (BitVec.ofNat 6 (off.toNat / 4)) s)) := by
  unfold busAccess
  by_cases aligned : off.toNat % 4 = 0
  · by_cases past : 256 ≤ off.toNat
    · simp [aligned, past]
    · simp [aligned, past, Nat.lt_of_not_le past]
  · simp [aligned]

/-- A Host read changes only OUT or UNDERFLOW (OUT_DATA) and what the Host has read. -/
theorem hostRead_frame (idx : BitVec 6) (s : State) :
    hostRead idx s = { s with
      out := (hostRead idx s).out, underflow := (hostRead idx s).underflow, hostReads := (hostRead idx s).hostReads } := by
  unfold hostRead regRead popOut
  repeat' split
  all_goals rfl

/-- A Host write changes only PENDING, one CODEW register or OVERRUN. -/
theorem regWrite_frame (idx : BitVec 6) (v : Word) (s : State) :
    regWrite idx v s = { s with
      pending := (regWrite idx v s).pending, codew := (regWrite idx v s).codew, overrun := (regWrite idx v s).overrun } := by
  unfold regWrite
  repeat' split
  all_goals rfl

end Sys2Proof.Machine
end

