-- ==== Sys2Proof/Tests/Slice0.lean ====
section
/-! SUPPORT. Tests of one step each, their expected results from the spec's own vectors (95_test_vectors.md, cited by name) or
read off the encoding tables of 30_encoding.md; and, for each obligation with hypotheses, a state that meets them. -/

namespace Sys2Proof.Machine

/-! One theorem at a time: a hundred of them checked side by side ask for more threads than the check's memory allows. -/

set_option Elab.async false

/-! ### Which commands are well formed (30_encoding.md R82, R84, R85) -/

/-- R85 (c): n = 0, n = 17 and n = 31 are refused, whatever the bits. -/
theorem test_illformed_decode_counts :
    (Instr.decode 0#5 0xAAA8#16).wellFormed = false ∧ (Instr.decode 17#5 0#16).wellFormed = false ∧
      (Instr.decode 31#5 0xFFFF#16).wellFormed = false := by decide

/-- R84: n = 1 and n = 16 are the ends of the range, and a LOADCODE of length 0 is a legal word. -/
theorem test_wellformed_ends :
    (Instr.decode 1#5 0#16).wellFormed = true ∧ (Instr.decode 16#5 0xFFFF#16).wellFormed = true ∧
      (Instr.loadcode 0x41#8 0#8).wellFormed = true ∧ (Instr.readnode 0x1FF#9).wellFormed = true := by decide

/-! ### Decoding: words written out from R80 to R83, one or more for each command -/

theorem test_decode_formatZ :
    decode 0x00000000#32 = .ok .nop ∧ decode 0x01000000#32 = .ok .clear ∧ decode 0x03000000#32 = .ok .build ∧
      decode 0x04000000#32 = .ok .gen ∧ decode 0x06000000#32 = .ok .flush ∧ decode 0x08000000#32 = .ok .decend ∧
      decode 0x0D000000#32 = .ok .ackerr := ⟨rfl, rfl, rfl, rfl, rfl, rfl, rfl⟩

theorem test_decode_formatS :
    decode 0x02000041#32 = .ok (.count 0x41#8) ∧ decode 0x050000FF#32 = .ok (.encode 0xFF#8) ∧
      decode 0x0A000042#32 = .ok (.readcode 0x42#8) ∧ decode 0x0B000045#32 = .ok (.readfreq 0x45#8) :=
  ⟨rfl, rfl, rfl, rfl⟩

/-- The words of programs P2 and P5: DECODE 16, 0xAAA8; DECODE 7, 0xAA00; DECODE 4, 0x6000. -/
theorem test_decode_formatD :
    decode 0x0710AAA8#32 = .ok (.decode 16#5 0xAAA8#16) ∧ decode 0x0707AA00#32 = .ok (.decode 7#5 0xAA00#16) ∧
      decode 0x07046000#32 = .ok (.decode 4#5 0x6000#16) := ⟨rfl, rfl, rfl⟩

/-- LOADCODE 'B', 3 (V-LDC-2); LOADCODE 'A', 255 (V-LDC-4); READNODE 8 (V-RBK-1); READNODE 0x1FF (V-DEC-5). -/
theorem test_decode_formatsL_I :
    decode 0x09000342#32 = .ok (.loadcode 0x42#8 3#8) ∧ decode 0x0900FF41#32 = .ok (.loadcode 0x41#8 255#8) ∧
      decode 0x0C000008#32 = .ok (.readnode 8#9) ∧ decode 0x0C0001FF#32 = .ok (.readnode 0x1FF#9) :=
  ⟨rfl, rfl, rfl, rfl⟩

/-- The words of V-DSP-1 to V-DSP-9, each under its case of R85. -/
theorem test_decode_refusals :
    decode 0x0E000000#32 = .error .reservedOpcode ∧ decode 0xFF123456#32 = .error .reservedOpcode ∧
      decode 0x00000001#32 = .error .reservedOperandBits ∧ decode 0x02000100#32 = .error .reservedOperandBits ∧
      decode 0x07000000#32 = .error .decodeCount ∧ decode 0x07110000#32 = .error .decodeCount ∧
      decode 0x07810000#32 = .error .reservedOperandBits ∧ decode 0x09010141#32 = .error .reservedOperandBits ∧
      decode 0x0C000200#32 = .error .reservedOperandBits := ⟨rfl, rfl, rfl, rfl, rfl, rfl, rfl, rfl, rfl⟩

/-- R89's assembly statements, with numbers in decimal. -/
theorem test_asm :
    (Instr.decode 16#5 0xAAA8#16).asm = "DECODE 16, 43688" ∧ (Instr.loadcode 0x42#8 3#8).asm = "LOADCODE 66, 3" ∧
      Instr.ackerr.asm = "ACKERR" := by decide +kernel

/-! ### The states the tests start from -/

/-- S0 of 95_test_vectors.md: the internal CLEAR has completed. -/
def emptyJob : State := { State.reset with pending := none }

/-- V-BLD-1's frequencies, A:7, B:3, C:7, D:2, E:6, after the COUNT pass of program P1. -/
def countingJob : State :=
  { emptyJob with
    freq := [(0x41, 7#32), (0x42, 3#32), (0x43, 7#32), (0x44, 2#32), (0x45, 6#32)]
    total := 25#32, ndist := 5#9, phase := .counting }

/-- The nodes of V-BLD-1's table. -/
def p1Nodes : Memory Node :=
  [(0, Node.leafOf 7#32 0x41#8), (1, Node.leafOf 3#32 0x42#8), (2, Node.leafOf 7#32 0x43#8),
   (3, Node.leafOf 2#32 0x44#8), (4, Node.leafOf 6#32 0x45#8), (5, Node.internalOf 5#32 3#9 1#9),
   (6, Node.internalOf 11#32 5#9 4#9), (7, Node.internalOf 14#32 0#9 2#9), (8, Node.internalOf 25#32 6#9 7#9)]

/-- P1 after BUILD (V-BLD-1). -/
def builtJob : State := { countingJob with node := p1Nodes, next := 9#10, root := 8#9, cursor := 8#9, phase := .built }

/-- P1 after GEN, with the codes of V-GEN-1. -/
def readyJob : State :=
  { builtJob with
    cvalid := [(0x41, true), (0x42, true), (0x43, true), (0x44, true), (0x45, true)]
    clen := [(0x41, 2#8), (0x42, 3#8), (0x43, 2#8), (0x44, 3#8), (0x45, 2#8)]
    cval := [(0x41, 2#255), (0x42, 1#255), (0x43, 3#255), (0x45, 1#255)]
    cost := 55#64, phase := .ready }

/-- One symbol 'a', counted four times (V-BLD-4, program P3). -/
def countedOne : State := { emptyJob with freq := [(0x61, 4#32)], total := 4#32, ndist := 1#9, phase := .counting }

/-- V-BLD-4: the tree of one symbol. -/
def builtOne : State :=
  { countedOne with
    node := [(0, Node.leafOf 4#32 0x61#8), (1, Node.internalOf 4#32 0#9 NULL)]
    next := 2#10, root := 1#9, cursor := 1#9, phase := .built }

/-- V-GEN-2: a = "0". -/
def readyOne : State := { builtOne with cvalid := [(0x61, true)], clen := [(0x61, 1#8)], cost := 4#64, phase := .ready }

/-- Two symbols A, B, once each (the state of V-DSP-5). -/
def countedTwo : State :=
  { emptyJob with freq := [(0x41, 1#32), (0x42, 1#32)], total := 2#32, ndist := 2#9, phase := .counting }

/-- Its tree (R143): leaves 0 and 1 under node 2. -/
def builtTwo : State :=
  { countedTwo with
    node := [(0, Node.leafOf 1#32 0x41#8), (1, Node.leafOf 1#32 0x42#8), (2, Node.internalOf 2#32 0#9 1#9)]
    next := 3#10, root := 2#9, cursor := 2#9, phase := .built }

/-- Its codes, A = 0 and B = 1 (the state of V-ENC-5). -/
def readyTwo : State :=
  { builtTwo with
    cvalid := [(0x41, true), (0x42, true)], clen := [(0x41, 1#8), (0x42, 1#8)], cval := [(0x42, 1#255)]
    cost := 2#64, phase := .ready }

/-- LOADED with only A = "0", the state of V-DSP-16. -/
def loadedOne : State :=
  { emptyJob with
    node := [(0, Node.internalOf 0#32 1#9 NULL), (1, Node.leafOf 0#32 0x41#8)]
    next := 2#10, root := 0#9, cursor := 0#9, ndist := 1#9
    cvalid := [(0x41, true)], clen := [(0x41, 1#8)], phase := .loaded }

/-- LOADED with only A = "01" (V-LDC-3, "new prefixes old"). -/
def loadedDeep : State :=
  { emptyJob with
    node := [(0, Node.internalOf 0#32 1#9 NULL), (1, Node.internalOf 0#32 NULL 2#9), (2, Node.leafOf 0#32 0x41#8)]
    next := 3#10, root := 0#9, cursor := 0#9, ndist := 1#9
    cvalid := [(0x41, true)], clen := [(0x41, 2#8)], cval := [(0x41, 1#255)], phase := .loaded }

/-- CODEW0 staged, CODEW1..7 = 0. -/
def State.staged (s : State) (v : Word) : State := { s with codew := #v[v, 0#32, 0#32, 0#32, 0#32, 0#32, 0#32, 0#32] }

/-- The state in which an error of this code and ERRINFO is recorded. -/
def State.failed (s : State) (e : ErrCode) (info : Word) : State := { s with err := e, errinfo := info }

/-- The state one step after the word `w` becomes the pending command. -/
def after (w : Nat) (s : State) : Option State :=
  match step (s.withFetchWord 32 w) with
  | .next t => some t
  | _ => none

/-- The state one step on. -/
def onward (s : State) : Option State :=
  match step s with
  | .next t => some t
  | _ => none

/-! ### Reset, the host port and dispatch -/

/-- V-RST-1, and S0 once the internal CLEAR has completed. -/
theorem test_reset_status : State.reset.status = 0x00000001#32 ∧ onward State.reset = some emptyJob := by decide +kernel

/-- V-RST-3. -/
theorem test_reset_reads :
    (regRead 0#6 emptyJob).1 = 0x48434531#32 ∧ (regRead 1#6 emptyJob).1 = 0x0010FF08#32 ∧
      (regRead 1#6 { emptyJob with params := ⟨32⟩ }).1 = 0x0020FF08#32 ∧ (regRead 7#6 emptyJob).1 = 0x1FF#32 ∧
      (regRead 9#6 emptyJob).1 = 0x1FF#32 ∧ (regRead 40#6 emptyJob).1 = 0#32 := by decide +kernel

/-- V-HST-1. -/
theorem test_pop_of_empty_out :
    (onward { emptyJob with schedule := [.read 12#6] }).map (fun t => (t.hostReads, t.status)) =
      some ([(12#6, 0#32)], 0x00000200#32) := by decide +kernel

/-- V-HST-2: the second CMD write, while BUSY, is dropped. -/
theorem test_write_while_busy :
    (onward { emptyJob with pending := some 0x02000001#32, schedule := [.write 2#6 0x02000002#32] }).map
      (fun t => (t.pending, t.status)) = some (some 0x02000001#32, 0x00000101#32) := by decide +kernel

/-- V-HST-6: DECODE 16 waits with seven words in OUT. -/
theorem test_decode_waits_for_room :
    (after 0x071093FF { readyJob with out := List.replicate 7 0x41#32 }).map (fun t => (t.pending, t.out.length)) =
      some (some 0x071093FF#32, 7) := by decide +kernel

/-- V-HST-5: the 97th ENCODE waits with nine words in OUT. -/
theorem test_encode_waits_for_room :
    (after 0x05000042 { readyJob with out := List.replicate 9 0x24924924#32 }).map (fun t => (t.status, t.out.length)) =
      some (0x00000407#32, 9) := by decide +kernel

/-- V-DSP-2 and V-DSP-6. -/
theorem test_illegal_words :
    (after 0xFF123456 emptyJob).map (fun t => (t.errinfo, t.status)) = some (0xFF123456#32, 0x00000070#32) ∧
      (after 0x07110000 countedTwo).map (fun t => (t.errinfo, t.status)) = some (0x07110000#32, 0x00000072#32) := by
  decide +kernel

/-- V-DSP-12, V-DSP-14 and V-DSP-16. -/
theorem test_sequence_errors :
    (after 0x08000000 countedTwo).map (fun t => (t.errinfo, t.status)) = some (0x08000001#32, 0x00000082#32) ∧
      (after 0x02000041 builtTwo).map (fun t => (t.errinfo, t.status)) = some (0x02000002#32, 0x00000484#32) ∧
      (after 0x02000041 loadedOne).map (fun t => (t.errinfo, t.status)) = some (0x02000004#32, 0x00000488#32) := by
  decide +kernel

/-- V-DSP-17: the first error wins; an illegal word of ACKERR's opcode does not acknowledge it. -/
theorem test_first_error_wins :
    let s := emptyJob.failed .illegalCommand 0x0E000000#32
    after 0x04000000 s = some s ∧ after 0x0D000001 s = some s ∧ after 0x00000000 s = some s := by decide +kernel

/-- 20_memory.md R50, R56: STATUS stands at byte offset 12; a misaligned offset is refused, past the map too. -/
theorem test_bus_offsets :
    (onward { State.reset with schedule := [.busRead 12#32] }).map (·.hostReads) = some [(3#6, 0x00000001#32)] ∧
      busAccess 13#32 hostRead State.reset = .refused .misalignedOffset ∧
      busAccess 257#32 hostRead State.reset = .refused .misalignedOffset ∧
      busAccess 256#32 hostRead State.reset = .fault .outsideRegisterMap := ⟨by decide +kernel, rfl, rfl, rfl⟩

/-! ### The commands -/

/-- V-CTL-1, in the error state too (60_exceptions.md R243). -/
theorem test_nop :
    after 0x00000000 readyJob = some readyJob ∧
      after 0x00000000 (readyJob.failed .missingSymbol 0x0500005A#32) =
        some (readyJob.failed .missingSymbol 0x0500005A#32) := by decide +kernel

/-- V-HST-3: CLEAR keeps OVERRUN. -/
theorem test_clear_keeps_overrun :
    (after 0x01000000 { countingJob with overrun := true }).map (fun t => (t.status, t.freq, t.total, t.ndist)) =
      some (0x00000100#32, [], 0#32, 0#9) := by decide +kernel

/-- V-CTL-4 and V-CTL-3: CLEAR runs in the error state. -/
theorem test_clear_of_an_error :
    (after 0x01000000 (readyJob.failed .illegalCommand 0x0E000000#32)).map
      (fun t => (t.status, t.errinfo, t.root, t.cursor, t.next)) =
      some (0#32, 0#32, 0x1FF#9, 0x1FF#9, 0#10) := by decide +kernel

/-- V-CTL-2: ACKERR returns CURSOR to ROOT. -/
theorem test_ackerr :
    (after 0x0D000000 { readyJob.failed .truncatedStream 0x08000005#32 with cursor := 5#9 }).map
      (fun t => (t.status, t.errinfo, t.cursor)) = some (0x00000406#32, 0#32, 8#9) := by decide +kernel

/-- V-HST-4: ACKERR clears OVERRUN. -/
theorem test_ackerr_clears_overrun :
    (after 0x0D000000 { emptyJob with overrun := true }).map (·.status) = some 0#32 := by decide +kernel

/-- V-CNT-2's state: TOTAL = 2^32 − 2, only symbol 1 counted. -/
def nearlyFull : State :=
  { emptyJob with freq := [(1, 0xFFFFFFFE#32)], total := 0xFFFFFFFE#32, ndist := 1#9, phase := .counting }

/-- V-CNT-2 and V-CNT-3: the last COUNT there is room for, and the one after it. -/
theorem test_count_at_the_limit :
    let s := { nearlyFull with freq := [(1, 0xFFFFFFFE#32), (2, 1#32)], total := 0xFFFFFFFF#32, ndist := 2#9 }
    after 0x02000002 nearlyFull = some s ∧
      after 0x02000002 s = some (s.failed .countOverflow 0x02000002#32) := by decide +kernel

/-- V-BLD-1. -/
theorem test_build_p1 : after 0x03000000 countingJob = some builtJob := by decide +kernel

/-- V-BLD-2's row "abcc": leaf c (weight 2, index 2) pops before node 3 (weight 2, index 3). -/
theorem test_build_breaks_ties_by_index :
    (after 0x03000000
      { emptyJob with
        freq := [(0x61, 1#32), (0x62, 1#32), (0x63, 2#32)], total := 4#32, ndist := 3#9, phase := .counting }).map
      (fun t => (nodeAt t.node 3#9, nodeAt t.node 4#9, t.root, t.next)) =
      some (Node.internalOf 2#32 0#9 1#9, Node.internalOf 4#32 2#9 3#9, 4#9, 5#10) := by decide +kernel

/-- V-GEN-1. -/
theorem test_gen_p1 : after 0x04000000 builtJob = some readyJob := by decide +kernel

/-- V-GEN-2: one symbol has the code "0". -/
theorem test_gen_one_symbol : after 0x04000000 builtOne = some readyOne := by decide +kernel

/-- V-ENC-2: three bits after two. -/
theorem test_encode_appends :
    (after 0x05000042 { readyJob with packbuf := 0x80000000#32, packcnt := 2#5, bitcnt := 2#64 }).map
      (fun t => (t.packcnt, t.packbuf, t.bitcnt, t.out)) = some (5#5, 0x88000000#32, 5#64, []) := by decide +kernel

/-- V-ENC-3 where a code crosses a word: 31 bits of 0xAAA893FF are packed, ENCODE 'C' adds "11"; and V-ENC-9. -/
theorem test_encode_crosses_a_word :
    (after 0x05000043 { readyJob with packbuf := 0xAAA893FE#32, packcnt := 31#5, bitcnt := 31#64 }).map
      (fun t => (t.out, t.packcnt, t.packbuf, t.bitcnt)) = some ([0xAAA893FF#32], 1#5, 0x80000000#32, 33#64) ∧
      (after 0x0500005A readyTwo).map (fun t => (t.errinfo, t.status)) = some (0x0500005A#32, 0x00000426#32) := by
  decide +kernel

/-- V-ENC-4. -/
theorem test_flush :
    (after 0x06000000
      { readyJob with out := [0xAAA893FF#32], packbuf := 0xF80AAA00#32, packcnt := 23#5, bitcnt := 55#64 }).map
      (fun t => (t.out, t.packcnt, t.packbuf, t.bitcnt)) =
      some ([0xAAA893FF#32, 0xF80AAA00#32], 0#5, 0#32, 55#64) := by decide +kernel

/-- V-ENC-6. -/
theorem test_flush_of_nothing : after 0x06000000 readyTwo = some readyTwo := by decide +kernel

/-- V-DEC-2: from CURSOR 5, 0x93FF gives B B B C C C C and ends at node 7. -/
theorem test_decode_p1 :
    after 0x071093FF { readyJob with cursor := 5#9 } =
      some { readyJob with
        cursor := 7#9, out := [0x42#32, 0x42#32, 0x42#32, 0x43#32, 0x43#32, 0x43#32, 0x43#32] } := by decide +kernel

/-- V-DEC-8: two symbols, and then CorruptTree at bit 2. -/
theorem test_decode_corrupt_tree :
    (after 0x07032000 loadedOne).map (fun t => (t.out, t.errinfo, t.status, t.cursor)) =
      some ([0x41#32, 0x41#32], 0x07000A00#32, 0x00000448#32, 0#9) := by decide +kernel

/-- V-DEC-12. -/
theorem test_decend_at_root : after 0x08000000 readyJob = some readyJob := by decide +kernel

/-- V-DEC-4. -/
theorem test_decend_truncated :
    (after 0x08000000 { readyJob with cursor := 5#9 }).map (fun t => (t.errinfo, t.status, t.cursor)) =
      some (0x08000005#32, 0x00000036#32, 5#9) := by decide +kernel

/-- V-LDC-1, and then program P5's second code, B = "0": one new node 3 below node 0, and the others as they were. -/
theorem test_loadcode_commits :
    let s := { emptyJob.staged 2#32 with pending := some 0x09000241#32 }
    let path := [(1, Node.internalOf 0#32 2#9 NULL), (2, Node.leafOf 0#32 0x41#8)]
    (onward s).map (fun t => (t.next, t.root, t.cursor, t.ndist, t.status)) = some (3#10, 0#9, 0#9, 1#9, 0x00000408#32) ∧
      (onward s).map (·.node) = some ((0, Node.internalOf 0#32 NULL 1#9) :: path) ∧
      ((onward s).bind fun t => after 0x09000142 { t with codew := Vector.replicate 8 0#32 }).map (·.node) =
        some ((0, Node.internalOf 0#32 3#9 1#9) :: path ++ [(3, Node.leafOf 0#32 0x42#8)]) := by
  decide +kernel

/-- V-LDC-3's rows "new prefixes old", "old prefixes new" and "bits above len". -/
theorem test_loadcode_refusals :
    (after 0x09000142 loadedDeep).map (fun t => (t.errinfo, t.status, t.next)) =
        some (0x09000542#32, 0x00000458#32, 3#10) ∧
      (after 0x09000242 (loadedOne.staged 1#32)).map (fun t => (t.errinfo, t.next)) = some (0x09000442#32, 2#10) ∧
      (after 0x09000241 (emptyJob.staged 4#32)).map (fun t => (t.errinfo, t.status, t.next)) =
        some (0x09000341#32, 0x00000050#32, 0#10) := by decide +kernel

/-- V-RBK-4. -/
theorem test_readcode :
    (after 0x0A000042 readyJob).map (fun t => (t.result0, t.result1, t.codew)) =
      some (0x80000003#32, 0#32, #v[1#32, 0#32, 0#32, 0#32, 0#32, 0#32, 0#32, 0#32]) := by decide +kernel

/-- V-RBK-5: a symbol without a code. -/
theorem test_readcode_of_no_code :
    (after 0x0A000043 (readyTwo.staged 7#32)).map (fun t => (t.result0, t.codew)) =
      some (0#32, Vector.replicate 8 0#32) := by decide +kernel

/-- V-CNT-4. -/
theorem test_readfreq :
    (after 0x0B000045 countingJob).map (fun t => (t.result0, t.result1)) = some (6#32, 0#32) := by decide +kernel

/-- V-RBK-1 and V-RBK-2. -/
theorem test_readnode :
    (after 0x0C000008 readyJob).map (fun t => (t.result0, t.result1)) = some (0x80000E06#32, 25#32) ∧
      (after 0x0C000003 readyJob).map (fun t => (t.result0, t.result1)) = some (0x40000044#32, 2#32) := by
  decide +kernel

/-- V-DEC-5: READNODE 0x1FF in the error state answers 0, 0. -/
theorem test_readnode_unallocated :
    (after 0x0C0001FF { readyJob.failed .truncatedStream 0x08000005#32 with result0 := 6#32 }).map
      (fun t => (t.result0, t.result1, t.errinfo)) = some (0#32, 0#32, 0x08000005#32) := by decide +kernel

/-! ### Good jobs, one in each phase -/

theorem good_emptyJob : GoodJob emptyJob where
  structural := by constructor <;> decide +kernel
  phased := ⟨by constructor <;> decide +kernel, by constructor <;> decide +kernel, rfl, rfl⟩

theorem good_countingJob : GoodJob countingJob where
  structural := by constructor <;> decide +kernel
  phased := ⟨by constructor <;> decide +kernel, by constructor <;> decide +kernel, by decide, by decide⟩

theorem good_countedOne : GoodJob countedOne where
  structural := by constructor <;> decide +kernel
  phased := ⟨by constructor <;> decide +kernel, by constructor <;> decide +kernel, by decide, by decide⟩

theorem below_two : ∀ n : NodeIdx, n.toNat < 2 → n = 0#9 ∨ n = 1#9 := by decide +kernel

theorem walkable_builtTwo : WalkableTree builtTwo := by constructor <;> decide +kernel

theorem builtTree_builtTwo : BuiltTree builtTwo where
  size := by decide
  leaf := by decide +kernel
  ascending n n' h h' := by
    obtain rfl | rfl := below_two n (Nat.lt_trans h h') <;> obtain rfl | rfl := below_two n' h' <;> revert h <;> decide
  counted := by
    have h : ∀ sym : Symbol, builtTwo.freqAt sym ≠ 0#32 → sym = 0x41#8 ∨ sym = 0x42#8 := by decide +kernel
    intro sym hs
    obtain rfl | rfl := h sym hs
    · exact ⟨0#9, by decide, by decide⟩
    · exact ⟨1#9, by decide, by decide⟩
  internal := by decide +kernel
  weight := by decide +kernel
  strict := by decide +kernel
  below := by decide +kernel
  parent c h := by
    obtain rfl | rfl := below_two c h
    · exact ⟨(2#9, false), by decide, by 
        rintro ⟨p, b⟩
        revert p b; decide +kernel⟩
    · exact ⟨(2#9, true), by decide, by 
        rintro ⟨p, b⟩
        revert p b; decide +kernel⟩

/-- The path of no bits leads nowhere else. -/
theorem follow_nil {m : Memory Node} {n n' : NodeIdx} (h : follow m n [] = some n') : n' = n := by
  simpa [follow, eq_comm] using h

/-- A path through a leaf ends there. -/
theorem follow_leaf {m : Memory Node} {n n' : NodeIdx} {path : List Bool} (leaf : (nodeAt m n).kind = .leaf)
    (h : follow m n path = some n') : path = [] ∧ n' = n := by
  cases path with
  | nil => exact ⟨rfl, follow_nil h⟩
  | cons b rest => simp [follow, leaf] at h

/-- A path of at least one bit from an INTERNAL node goes on from a child. -/
theorem follow_internal {m : Memory Node} {n n' : NodeIdx} {b : Bool} {rest : List Bool}
    (h : follow m n (b :: rest) = some n') : child m n b ≠ NULL ∧ follow m (child m n b) rest = some n' := by
  simp only [follow] at h
  split at h
  · cases h
  · split at h
    · cases h
    · exact ⟨‹_›, h⟩

theorem paths_readyTwo {path : List Bool} {n : NodeIdx} (h : follow readyTwo.node 2#9 path = some n) :
    (path = [] ∧ n = 2#9) ∨ (path = [false] ∧ n = 0#9) ∨ (path = [true] ∧ n = 1#9) := by
  cases path with
  | nil => exact .inl ⟨rfl, follow_nil h⟩
  | cons b rest =>
    obtain ⟨-, h⟩ := follow_internal h
    cases b
    · obtain ⟨rfl, rfl⟩ := follow_leaf (by decide) h
      exact .inr (.inl ⟨rfl, by decide⟩)
    · obtain ⟨rfl, rfl⟩ := follow_leaf (by decide) h
      exact .inr (.inr ⟨rfl, by decide⟩)

theorem tableMatchesTree_readyTwo : TableMatchesTree readyTwo := by
  have h : ∀ sym : Symbol, readyTwo.cvalidAt sym = true → sym = 0x41#8 ∨ sym = 0x42#8 := by decide +kernel
  intro sym hs
  obtain rfl | rfl := h sym hs
  · exact ⟨0#9, by decide +kernel, by decide, by decide⟩
  · exact ⟨1#9, by decide +kernel, by decide, by decide⟩

theorem leavesAreCodes_readyTwo : LeavesAreCodes readyTwo where
  code path n h leaf := by
    obtain ⟨rfl, rfl⟩ | ⟨rfl, rfl⟩ | ⟨rfl, rfl⟩ := paths_readyTwo h
    · revert leaf; decide
    · decide +kernel
    · decide +kernel
  below path n h := by
    obtain ⟨rfl, rfl⟩ | ⟨rfl, rfl⟩ | ⟨rfl, rfl⟩ := paths_readyTwo h
    · exact ⟨[false], 0#9, by decide +kernel, by decide⟩
    · exact ⟨[], 0#9, rfl, by decide⟩
    · exact ⟨[], 1#9, rfl, by decide⟩

theorem good_builtTwo : GoodJob builtTwo where
  structural := by constructor <;> decide +kernel
  phased := ⟨walkable_builtTwo, builtTree_builtTwo, by constructor <;> decide +kernel, by decide, by decide,
    by decide +kernel, rfl⟩

theorem good_readyTwo : GoodJob readyTwo where
  structural := by constructor <;> decide +kernel
  phased := ⟨by constructor <;> decide +kernel,
    ⟨builtTree_builtTwo.size, builtTree_builtTwo.leaf, builtTree_builtTwo.ascending, builtTree_builtTwo.counted,
      builtTree_builtTwo.internal, builtTree_builtTwo.weight, builtTree_builtTwo.strict, builtTree_builtTwo.below,
      builtTree_builtTwo.parent⟩,
    by constructor <;> decide +kernel, by decide, by decide, tableMatchesTree_readyTwo, leavesAreCodes_readyTwo,
    by decide +kernel⟩

/-! One symbol: the boundary N = 1. -/

theorem builtTree_builtOne : BuiltTree builtOne where
  size := by decide
  leaf := by decide +kernel
  ascending n n' h h' := by
    have : n'.toNat < 1 := h'
    omega
  counted := by
    have h : ∀ sym : Symbol, builtOne.freqAt sym ≠ 0#32 → sym = 0x61#8 := by decide +kernel
    intro sym hs
    obtain rfl := h sym hs
    exact ⟨0#9, by decide, by decide⟩
  internal := by decide +kernel
  weight := by decide +kernel
  strict := by decide +kernel
  below := by decide +kernel
  parent c h := by
    obtain rfl | rfl := below_two c (Nat.lt_succ_of_lt h)
    · exact ⟨(1#9, false), by decide, by
        rintro ⟨p, b⟩
        revert p b; decide +kernel⟩
    · exact absurd h (by decide)

theorem good_builtOne : GoodJob builtOne where
  structural := by constructor <;> decide +kernel
  phased := ⟨by constructor <;> decide +kernel, builtTree_builtOne, by constructor <;> decide +kernel, by decide,
    by decide, by decide +kernel, rfl⟩

/-! LOADED: one code, "0", in a tree that is not full. -/

theorem paths_loadedOne {path : List Bool} {n : NodeIdx} (h : follow loadedOne.node 0#9 path = some n) :
    (path = [] ∧ n = 0#9) ∨ (path = [false] ∧ n = 1#9) := by
  cases path with
  | nil => exact .inl ⟨rfl, follow_nil h⟩
  | cons b rest =>
    obtain ⟨hc, h⟩ := follow_internal h
    cases b
    · obtain ⟨rfl, rfl⟩ := follow_leaf (by decide) h
      exact .inr ⟨rfl, by decide⟩
    · exact absurd (by decide) hc

theorem good_loadedOne : GoodJob loadedOne where
  structural := by constructor <;> decide +kernel
  phased := by
    refine ⟨by constructor <;> decide +kernel, ?_, ⟨?_, ?_⟩, by decide +kernel, rfl, rfl, by decide +kernel, by decide,
      by decide, rfl⟩
    · have h : ∀ sym : Symbol, loadedOne.cvalidAt sym = true → sym = 0x41#8 := by decide +kernel
      intro sym hs
      obtain rfl := h sym hs
      exact ⟨1#9, by decide +kernel, by decide, by decide⟩
    · intro path n h leaf
      obtain ⟨rfl, rfl⟩ | ⟨rfl, rfl⟩ := paths_loadedOne h
      · revert leaf; decide
      · decide +kernel
    · intro path n h
      obtain ⟨rfl, rfl⟩ | ⟨rfl, rfl⟩ := paths_loadedOne h
      · exact ⟨[false], 1#9, by decide +kernel, by decide⟩
      · exact ⟨[], 1#9, rfl, by decide⟩

/-! LOADED: one code, "01", whose path has a node to stop at. -/

theorem paths_loadedDeep {path : List Bool} {n : NodeIdx} (h : follow loadedDeep.node 0#9 path = some n) :
    (path = [] ∧ n = 0#9) ∨ (path = [false] ∧ n = 1#9) ∨ (path = [false, true] ∧ n = 2#9) := by
  cases path with
  | nil => exact .inl ⟨rfl, follow_nil h⟩
  | cons b rest =>
    obtain ⟨hc, h⟩ := follow_internal h
    cases b
    · cases rest with
      | nil => exact .inr (.inl ⟨rfl, (follow_nil h).trans (by decide)⟩)
      | cons b rest =>
        obtain ⟨hc, h⟩ := follow_internal h
        cases b
        · exact absurd (by decide) hc
        · obtain ⟨rfl, rfl⟩ := follow_leaf (by decide) h
          exact .inr (.inr ⟨rfl, by decide⟩)
    · exact absurd (by decide) hc

theorem good_loadedDeep : GoodJob loadedDeep where
  structural := by constructor <;> decide +kernel
  phased := by
    refine ⟨by constructor <;> decide +kernel, ?_, ⟨?_, ?_⟩, by decide +kernel, rfl, rfl, by decide +kernel, by decide,
      by decide, rfl⟩
    · have h : ∀ sym : Symbol, loadedDeep.cvalidAt sym = true → sym = 0x41#8 := by decide +kernel
      intro sym hs
      obtain rfl := h sym hs
      exact ⟨2#9, by decide +kernel, by decide, by decide⟩
    · intro path n h leaf
      obtain ⟨rfl, rfl⟩ | ⟨rfl, rfl⟩ | ⟨rfl, rfl⟩ := paths_loadedDeep h
      · revert leaf; decide
      · revert leaf; decide
      · decide +kernel
    · intro path n h
      obtain ⟨rfl, rfl⟩ | ⟨rfl, rfl⟩ | ⟨rfl, rfl⟩ := paths_loadedDeep h
      · exact ⟨[false, true], 2#9, by decide +kernel, by decide⟩
      · exact ⟨[true], 2#9, by decide +kernel, by decide⟩
      · exact ⟨[], 2#9, rfl, by decide⟩


/-! ### A state and operands that meet the hypotheses of each obligation, and of each of its clauses -/

theorem witness_EncodedCommandDecodesBack : (Instr.decode 16#5 0xFFFF#16).wellFormed = true := by decide

theorem witness_DecodedCommandEncodesBack : decode 0x0710AAA8#32 = .ok (.decode 16#5 0xAAA8#16) := rfl

/-- A row, and a word that spells it and no other. -/
theorem witness_WordSpellsItsTableRow :
    ∃ r ∈ opcodeRows, r.mnemonic = "DECODE" ∧ r.spelledBy 0x07010000#32 = true ∧ r.spelledBy 0x07100000#32 = true ∧
      r.spelledBy 0x07110000#32 = false := by decide +kernel

/-- S0 with the word pending and the Engine's turn next. -/
def State.withPending (s : State) (w : Word) : State := { s with pending := some w, schedule := [.engine] }

theorem witness_IllegalWordRaisesIllegalCommand :
    decode 0x07110000#32 = .error .decodeCount ∧ emptyJob.err = .noError := ⟨rfl, rfl⟩

/-- DECODE 16 with OUT empty: all of a FIFO of 16 is needed and there; an illegal word; and DECODE 16 with one word in OUT. -/
theorem witness_StepRunsThePendingCommand :
    let s := readyTwo.withPending 0x07100000#32
    (s.pending = some 0x07100000#32 ∧ decode 0x07100000#32 = .ok (.decode 16#5 0#16) ∧
      s.out.length + need 0x07100000#32 ≤ s.params.fifoDepth ∧ s.schedule = .engine :: [] ∧
      { s with schedule := [] }.schedule = []) ∧
    (decode 0x07110000#32 = .error .decodeCount ∧ s.out.length + need 0x07110000#32 ≤ s.params.fifoDepth) ∧
    { s with out := [0#32] }.params.fifoDepth < { s with out := [0#32] }.out.length + need 0x07100000#32 := by
  exact ⟨⟨rfl, rfl, by decide, rfl, rfl⟩, ⟨rfl, by decide⟩, by decide⟩

/-- ENCODE with eight words in a FIFO of 16 runs, with nine it waits, and with none it is enabled. -/
theorem witness_CommandWaitsForRoom :
    let s := readyTwo.withPending 0x05000041#32
    { s with out := List.replicate 8 0#32 }.engineEnabled = true ∧
      { s with out := List.replicate 9 0#32 }.engineEnabled = false ∧ s.schedule = .engine :: [] ∧ s.params.legal ∧
      s.out = [] ∧ s.pending ≠ none := by decide

theorem witness_ErrorStateDropsCommands :
    let s := readyTwo.failed .missingSymbol 0x0500005A#32
    s.err ≠ .noError ∧ Instr.gen.mnemonic ∉ keptCommands ∧ decode 0x0E000000#32 = .error .reservedOpcode ∧
      Instr.nop.mnemonic ∈ keptCommands := ⟨by decide, by decide, rfl, by decide⟩

theorem witness_OutOfPhaseRaisesSequenceError :
    ("GEN", [Phase.built]) ∈ phaseTable ∧ Instr.gen.mnemonic = "GEN" ∧ Instr.gen.wellFormed = true ∧
      emptyJob.err = .noError ∧ emptyJob.phase ∉ [Phase.built] ∧ builtTwo.err = .noError ∧
      builtTwo.phase ∈ [Phase.built] := by decide

/-- BUILD of nothing; DECODE of 0, 0, 1 in the tree of one code; DECODE out of phase. -/
theorem witness_RaisingCommandChangesOnlyTheErrorRecord :
    (∃ t, exec .build emptyJob = .next t ∧ emptyJob.err = .noError ∧ t.err ≠ .noError) ∧
    (∃ t, exec (.decode 3#5 0x2000#16) loadedOne = .next t ∧ loadedOne.err = .noError ∧ t.err = .corruptTree) ∧
    ∃ t, exec (.decode 3#5 0x2000#16) emptyJob = .next t ∧ emptyJob.err = .noError ∧ t.err ≠ .noError ∧
      t.err ≠ .corruptTree :=
  ⟨⟨_, rfl, by decide, by decide⟩, ⟨_, rfl, by decide, by decide +kernel⟩, ⟨_, rfl, by decide, by decide, by decide⟩⟩

theorem witness_ErrorStandsUntilTheHostActs :
    let s := (readyTwo.failed .missingSymbol 0x0500005A#32).withPending 0x04000000#32
    s.err ≠ .noError ∧ ∃ t, step s = .next t := ⟨by decide, _, rfl⟩

/-- Each reserved mask has a word under it, and the error line's two states exist. -/
theorem witness_RaisesOnReserved :
    (0x000001#24 &&& 0xFFFFFF#24 ≠ 0#24 ∧ 0x000100#24 &&& 0xFFFF00#24 ≠ 0#24 ∧ 0x200000#24 &&& 0xE00000#24 ≠ 0#24 ∧
      0x010000#24 &&& 0xFF0000#24 ≠ 0#24 ∧ 0x000200#24 &&& 0xFFFE00#24 ≠ 0#24) ∧
    emptyJob.err = .noError ∧ (emptyJob.failed .illegalCommand 0x0E000000#32).err ≠ .noError := by decide

/-- Each set of phases has a phase outside it: EMPTY, READY or COUNTING. -/
theorem witness_RaisesOutside :
    (readyTwo.err = .noError ∧ readyTwo.phase ∉ [Phase.empty, .counting] ∧ readyTwo.phase ∉ [Phase.built] ∧
      readyTwo.phase ∉ [Phase.empty, .loaded]) ∧
    countedTwo.err = .noError ∧ countedTwo.phase ∉ [Phase.ready, .loaded] ∧
      countedTwo.phase ∉ [Phase.built, .ready, .loaded] := by decide

/-- NOP, CLEAR and ACKERR hold in every state; their premises are those of the IllegalCommand line, and ROOT ≠ NULL. -/
theorem witness_AckerrReturnsFromTheError : readyTwo.root ≠ NULL := by decide

theorem witness_CountAddsOneOccurrence :
    (emptyJob.err = .noError ∧ emptyJob.phase = .empty ∧ emptyJob.total ≠ 0xFFFFFFFF#32) ∧
    ({ nearlyFull with total := 0xFFFFFFFF#32 }.err = .noError ∧
      { nearlyFull with total := 0xFFFFFFFF#32 }.phase = .counting ∧
      { nearlyFull with total := 0xFFFFFFFF#32 }.total = 0xFFFFFFFF#32) ∧
    (0x42#8 : Symbol) ≠ 0x41#8 := by decide

theorem witness_CountWrapsNoCounter :
    (GoodJob countingJob ∧ countingJob.phase = .counting ∧ countingJob.err = .noError ∧
      ∃ t, exec (.count 0x41#8) countingJob = .next t ∧ t.err = .noError) ∧
    GoodJob emptyJob ∧ emptyJob.phase = .empty ∧ emptyJob.err = .noError ∧
      ∃ t, exec (.count 0x41#8) emptyJob = .next t ∧ t.err = .noError :=
  ⟨⟨good_countingJob, rfl, rfl, _, rfl, by decide⟩, good_emptyJob, rfl, rfl, _, rfl, by decide⟩

/-- The queue of V-BLD-1 gives D (2), then B (3); a tie goes to the lower index. -/
theorem witness_PopMinTakesTheLeastKey :
    popMin p1Nodes [4#9, 3#9, 2#9, 1#9, 0#9] = some (3#9, [4#9, 2#9, 1#9, 0#9]) ∧
      popMin p1Nodes [2#9, 0#9] = some (0#9, [2#9]) ∧ popMin p1Nodes [] = none := by decide +kernel

theorem witness_BuildOfNothingRaisesEmptyInput :
    emptyJob.err = .noError ∧ emptyJob.phase = .empty ∧ emptyJob.ndist = 0#9 := by decide

theorem witness_BuildMakesAStrictTree :
    (GoodJob countingJob ∧ countingJob.phase = .counting ∧ countingJob.err = .noError) ∧
      GoodJob countedOne ∧ countedOne.phase = .counting ∧ countedOne.err = .noError :=
  ⟨⟨good_countingJob, rfl, rfl⟩, good_countedOne, rfl, rfl⟩

/-- Five symbols: node 5 is the first INTERNAL node, and node 8 has three nodes besides its children below it. -/
theorem witness_BuildMergesTheTwoLeastNodes :
    GoodJob countingJob ∧ countingJob.phase = .counting ∧ countingJob.err = .noError ∧ 2 ≤ countingJob.ndist.toNat ∧
      ∃ t, exec .build countingJob = .next t ∧ t.ndist.toNat ≤ (5#9 : NodeIdx).toNat ∧
        (5#9 : NodeIdx).toNat < t.next.toNat ∧ Unmerged t 5#9 0#9 ∧ (nodeAt t.node 5#9).left ≠ 0#9 ∧
        (nodeAt t.node 5#9).right ≠ 0#9 :=
  ⟨good_countingJob, rfl, rfl, by decide, _, rfl, by decide +kernel, by decide +kernel,
    ⟨by decide, by decide +kernel⟩, by decide +kernel, by decide +kernel⟩

/-- Two jobs of the same frequencies that differ elsewhere. -/
theorem witness_BuildDependsOnlyOnFrequencies :
    let s := { countingJob with result0 := 6#32 }
    GoodJob countingJob ∧ GoodJob s ∧ countingJob.phase = .counting ∧ s.phase = .counting ∧ countingJob.err = .noError ∧
      s.err = .noError ∧ (∀ sym, countingJob.freqAt sym = s.freqAt sym) ∧ countingJob ≠ s :=
  ⟨good_countingJob, ⟨⟨by decide, by decide, by decide, by decide, good_countingJob.structural.freq,
    good_countingJob.structural.node, good_countingJob.structural.cvalid, good_countingJob.structural.clen,
    good_countingJob.structural.cval⟩,
    ⟨good_countingJob.phased.1.next, good_countingJob.phased.1.root, good_countingJob.phased.1.cursor,
      good_countingJob.phased.1.codes, good_countingJob.phased.1.cost⟩,
    ⟨good_countingJob.phased.2.1.total, good_countingJob.phased.2.1.ndist⟩, by decide, by decide⟩,
    rfl, rfl, rfl, rfl, fun _ => rfl, by decide⟩

theorem witness_GenWritesTheTreePaths :
    (GoodJob builtTwo ∧ builtTwo.phase = .built ∧ builtTwo.err = .noError) ∧
      GoodJob builtOne ∧ builtOne.phase = .built ∧ builtOne.err = .noError ∧
      ∃ t, exec .gen builtOne = .next t ∧ t.cvalidAt 0x61#8 = true :=
  ⟨⟨good_builtTwo, rfl, rfl⟩, good_builtOne, rfl, rfl, _, rfl, by decide +kernel⟩

/-- Length 0; a symbol that has a code; a bit at the length itself. -/
theorem witness_LoadcodeRefusesABadEntry :
    (emptyJob.err = .noError ∧ emptyJob.phase = .empty) ∧
    (loadedOne.err = .noError ∧ loadedOne.phase = .loaded ∧ (1#8 : BitVec 8) ≠ 0#8 ∧ loadedOne.cvalidAt 0x41#8 = true) ∧
    loadedOne.cvalidAt 0x42#8 = false ∧ 2 ^ (2#8 : BitVec 8).toNat ≤ (loadedOne.staged 4#32).cw.toNat := by
  decide +kernel

/-- In the job of A = "01": "011" extends it, and it extends "0". -/
theorem witness_LoadcodeKeepsTheTablePrefixFree :
    GoodJob loadedDeep ∧ loadedDeep.phase = .loaded ∧ loadedDeep.err = .noError ∧ (1#8 : BitVec 8) ≠ 0#8 ∧
      loadedDeep.cvalidAt 0x42#8 = false ∧ loadedDeep.cw.toNat < 2 ^ (1#8 : BitVec 8).toNat ∧
      loadedDeep.cvalidAt 0x41#8 = true ∧
      codeBits (codeOperand loadedDeep.cw 1#8) 1 <+: loadedDeep.code 0x41#8 ∧
      codeBits (codeOperand loadedDeep.cw 1#8) 1 ≠ loadedDeep.code 0x41#8 :=
  ⟨good_loadedDeep, rfl, rfl, by decide, by decide, by decide +kernel, by decide, by decide +kernel,
    by decide +kernel⟩

/-- What is pending, staged or scheduled is no part of what makes a job good. -/
theorem GoodJob.anew {s : State} (h : GoodJob s) (pending : Option Word) (codew : Vector Word 8)
    (schedule : List Event) : GoodJob { s with pending, codew, schedule } := by
  obtain ⟨⟨h1, h2, h3, h4, h5, h6, h7, h8, h9⟩, hp⟩ := h
  refine ⟨⟨h1, h2, h3, h4, h5, h6, h7, h8, h9⟩, ?_⟩
  unfold PhaseInv at hp ⊢
  cases h : s.phase <;> simp only [h] at hp ⊢
  · obtain ⟨⟨a1, a2, a3, a4, a5⟩, ⟨b1, b2⟩, c⟩ := hp
    exact ⟨⟨a1, a2, a3, a4, a5⟩, ⟨b1, b2⟩, c⟩
  · obtain ⟨⟨a1, a2, a3, a4, a5⟩, ⟨b1, b2⟩, c⟩ := hp
    exact ⟨⟨a1, a2, a3, a4, a5⟩, ⟨b1, b2⟩, c⟩
  · obtain ⟨⟨a1, a2, a3, a4⟩, ⟨b1, b2, b3, b4, b5, b6, b7, b8, b9⟩, ⟨d1, d2⟩, c⟩ := hp
    exact ⟨⟨a1, a2, a3, a4⟩, ⟨b1, b2, b3, b4, b5, b6, b7, b8, b9⟩, ⟨d1, d2⟩, c⟩
  · obtain ⟨⟨a1, a2, a3, a4⟩, ⟨b1, b2, b3, b4, b5, b6, b7, b8, b9⟩, ⟨d1, d2⟩, c, c', t, ⟨l, l'⟩, e⟩ := hp
    exact ⟨⟨a1, a2, a3, a4⟩, ⟨b1, b2, b3, b4, b5, b6, b7, b8, b9⟩, ⟨d1, d2⟩, c, c', t, ⟨l, l'⟩, e⟩
  · obtain ⟨⟨a1, a2, a3, a4⟩, t, ⟨l, l'⟩, e⟩ := hp
    exact ⟨⟨a1, a2, a3, a4⟩, t, ⟨l, l'⟩, e⟩

theorem good_staged {s : State} (h : GoodJob s) (v : Word) : GoodJob (s.staged v) :=
  h.anew s.pending #v[v, 0#32, 0#32, 0#32, 0#32, 0#32, 0#32, 0#32] s.schedule

theorem good_withPending {s : State} (h : GoodJob s) (w : Word) : GoodJob (s.withPending w) :=
  h.anew (some w) s.codew [.engine]

/-- Reason 4's clause: CW = 3, so the new code "011" begins with A's "01". -/
theorem witness_LoadcodeKeepsTheTablePrefixFree_extended :
    let s := loadedDeep.staged 3#32
    GoodJob s ∧ s.phase = .loaded ∧ s.err = .noError ∧ s.cvalidAt 0x42#8 = false ∧
      s.cw.toNat < 2 ^ (3#8 : BitVec 8).toNat ∧ s.cvalidAt 0x41#8 = true ∧
      s.code 0x41#8 <+: codeBits (codeOperand s.cw 3#8) 3 :=
  ⟨good_staged good_loadedDeep 3#32, rfl, rfl, by decide, by decide +kernel, by decide, by decide +kernel⟩

/-- "1" beside A = "0". -/
theorem witness_LoadcodeAddsTheCode :
    let s := loadedOne.staged 1#32
    let code := codeBits (codeOperand s.cw 1#8) (1#8 : BitVec 8).toNat
    GoodJob s ∧ s.phase = .loaded ∧ s.err = .noError ∧ (1#8 : BitVec 8) ≠ 0#8 ∧ s.cvalidAt 0x42#8 = false ∧
      s.cw.toNat < 2 ^ (1#8 : BitVec 8).toNat ∧
      (∀ sym', s.cvalidAt sym' = true → ¬ s.code sym' <+: code ∧ ¬ code <+: s.code sym') ∧
      StopsAt (loadTree s).2.node (loadTree s).1 code 0 0#9 ∧ (loadTree s).2.next.toNat + ((1#8 : BitVec 8).toNat - 0) ≤ 511 :=
  ⟨good_staged good_loadedOne 1#32, rfl, rfl, by decide, by decide, by decide +kernel, by decide +kernel,
    ⟨by decide, by decide +kernel, by decide, by decide +kernel⟩, by decide⟩

/-- In EMPTY, the longest code. -/
theorem witness_LoadcodeAddsTheCode_first :
    let code := codeBits (codeOperand emptyJob.cw 255#8) (255#8 : BitVec 8).toNat
    GoodJob emptyJob ∧ emptyJob.phase = .empty ∧ emptyJob.err = .noError ∧ (255#8 : BitVec 8) ≠ 0#8 ∧
      emptyJob.cvalidAt 0x42#8 = false ∧ emptyJob.cw.toNat < 2 ^ (255#8 : BitVec 8).toNat ∧
      (∀ sym', emptyJob.cvalidAt sym' = false) ∧
      StopsAt (loadTree emptyJob).2.node (loadTree emptyJob).1 code 0 0#9 ∧
      (loadTree emptyJob).2.next.toNat + ((255#8 : BitVec 8).toNat - 0) ≤ 511 :=
  ⟨good_emptyJob, rfl, rfl, by decide, by decide, by decide +kernel, by decide +kernel,
    ⟨by decide +kernel, by decide +kernel, by decide, by decide +kernel⟩, by decide⟩

/-- "00" beside A = "01" with one node left: it fits only because the two share their first bit. -/
theorem witness_LoadcodeAddsTheCode_shared :
    let s := { loadedDeep with next := 510#10 }
    let code := codeBits (codeOperand s.cw 2#8) (2#8 : BitVec 8).toNat
    GoodJob s ∧ s.phase = .loaded ∧ s.err = .noError ∧ (2#8 : BitVec 8) ≠ 0#8 ∧ s.cvalidAt 0x42#8 = false ∧
      s.cw.toNat < 2 ^ (2#8 : BitVec 8).toNat ∧
      (∀ sym', s.cvalidAt sym' = true → ¬ s.code sym' <+: code ∧ ¬ code <+: s.code sym') ∧
      StopsAt (loadTree s).2.node (loadTree s).1 code 1 1#9 ∧ (loadTree s).2.next.toNat + ((2#8 : BitVec 8).toNat - 1) = 511 := by
  refine ⟨⟨by constructor <;> decide +kernel, ?_⟩, rfl, rfl, by decide, by decide, by decide +kernel, by decide +kernel,
    ⟨by decide, by decide +kernel, by decide, by decide +kernel⟩, by decide⟩
  obtain ⟨-, table, ⟨code, below⟩, h⟩ := good_loadedDeep.phased
  exact ⟨by constructor <;> decide +kernel, table, ⟨code, below⟩, h.1, h.2.1, h.2.2.1, h.2.2.2.1, h.2.2.2.2.1, by decide,
    h.2.2.2.2.2.2⟩

theorem witness_FirstLoadcodeMakesTheTree :
    GoodJob emptyJob ∧ emptyJob.phase = .empty ∧ emptyJob.err = .noError ∧ (255#8 : BitVec 8) ≠ 0#8 ∧
      emptyJob.cw.toNat < 2 ^ (255#8 : BitVec 8).toNat :=
  ⟨good_emptyJob, rfl, rfl, by decide, by decide +kernel⟩

/-- A node memory with one node free, and a code of two bits to place below the root. -/
theorem witness_LoadcodeRefusesWhenNodesRunOut :
    let s := { loadedOne.staged 2#32 with next := 510#10 }
    s.phase = .loaded ∧ s.err = .noError ∧ (2#8 : BitVec 8) ≠ 0#8 ∧ s.cvalidAt 0x42#8 = false ∧
      s.cw.toNat < 2 ^ (2#8 : BitVec 8).toNat ∧ 0 < (2#8 : BitVec 8).toNat ∧ (nodeAt s.node s.root).kind = .internal ∧
      follow s.node s.root ((codeBits (codeOperand s.cw 2#8) (2#8 : BitVec 8).toNat).take 0) = some 0#9 ∧
      child s.node 0#9 (codeBit (codeOperand s.cw 2#8) ((2#8 : BitVec 8).toNat - 1 - 0)) = NULL ∧
      511 < s.next.toNat + ((2#8 : BitVec 8).toNat - 0) := by decide +kernel

theorem witness_EncodeAppendsTheCode :
    readyTwo.err = .noError ∧ readyTwo.phase = .ready ∧ readyTwo.cvalidAt 0x41#8 = true ∧
      readyTwo.cvalidAt 0x5A#8 = false ∧ readyTwo.packbuf <<< readyTwo.packcnt.toNat = 0#32 := by decide

/-- A message of 33 bits: the last one stands alone in its word. -/
theorem witness_StreamBitStandsInItsWord :
    readyTwo.err = .noError ∧ readyTwo.phase = .ready ∧
      (∀ sym ∈ List.replicate 33 0x42#8, readyTwo.cvalidAt sym = true) ∧ readyTwo.out = [] ∧ readyTwo.packcnt = 0#5 ∧
      32 < ((List.replicate 33 0x42#8).map readyTwo.code).flatten.length := by decide +kernel

theorem witness_FlushPushesThePartialWord :
    readyTwo.err = .noError ∧ readyTwo.phase = .ready ∧ readyTwo.packcnt = 0#5 ∧
      { readyTwo with packcnt := 31#5 }.packcnt ≠ 0#5 := by decide

theorem witness_EncodedMessageIsItsCodes :
    readyTwo.err = .noError ∧ readyTwo.phase = .ready ∧
      (∀ sym ∈ [0x41#8, 0x42#8, 0x41#8], readyTwo.cvalidAt sym = true) ∧ readyTwo.out = [] ∧ readyTwo.packcnt = 0#5 := by
  decide

/-- Two bits of A, A from the root; and 0, 0, 1 in the tree of A = "0", whose third bit meets NULL. -/
theorem witness_DecodeWalksItsBits :
    (readyTwo.err = .noError ∧ readyTwo.phase = .ready ∧
      walkBits readyTwo.node readyTwo.root (operandBits 2#5 0#16) readyTwo.cursor = some (2#9, [0x41#8, 0x41#8])) ∧
    (loadedOne.err = .noError ∧ loadedOne.phase = .loaded ∧
      walkBits loadedOne.node loadedOne.root ((operandBits 3#5 0x2000#16).take 2) loadedOne.cursor =
        some (0#9, [0x41#8, 0x41#8]) ∧
      child loadedOne.node 0#9 ((0x2000#16).getLsbD (15 - 2)) = NULL) ∧
    (17#5 : BitVec 5).toNat = 17 := by decide +kernel

theorem witness_DecodeInPiecesIsDecodeAtOnce :
    readyTwo.err = .noError ∧ readyTwo.phase = .ready ∧
      ∃ t u, exec (.decode 1#5 0x4000#16) readyTwo = .next t ∧ t.err = .noError ∧
        exec (.decode 15#5 (0x4000#16 <<< (1#5 : BitVec 5).toNat)) t = .next u ∧ u.err = .noError :=
  ⟨rfl, rfl, _, _, rfl, by decide +kernel, rfl, by decide +kernel⟩

theorem witness_DecendChecksTheCursor :
    readyTwo.err = .noError ∧ readyTwo.phase = .ready ∧ readyTwo.cursor = readyTwo.root ∧
      { readyTwo with cursor := 0#9 }.cursor ≠ readyTwo.root := by decide

theorem witness_DecodingInvertsEncoding :
    (GoodJob readyTwo ∧ readyTwo.phase = .ready ∧ ∀ sym ∈ [0x41#8, 0x42#8], readyTwo.cvalidAt sym = true) ∧
      GoodJob loadedDeep ∧ loadedDeep.phase = .loaded ∧ ∀ sym ∈ [0x41#8, 0x41#8], loadedDeep.cvalidAt sym = true :=
  ⟨⟨good_readyTwo, rfl, by decide⟩, good_loadedDeep, rfl, by decide⟩

theorem witness_DecodeOfOneCodeRecoversItsSymbol :
    GoodJob loadedDeep ∧ loadedDeep.err = .noError ∧ loadedDeep.phase = .loaded ∧ loadedDeep.cvalidAt 0x41#8 = true ∧
      loadedDeep.cursor = loadedDeep.root ∧ (loadedDeep.clenAt 0x41#8).toNat ≤ 16 :=
  ⟨good_loadedDeep, rfl, rfl, by decide, rfl, by decide⟩

theorem witness_RoundTripInOneJob :
    GoodJob readyTwo ∧ readyTwo.err = .noError ∧ readyTwo.phase = .ready ∧ [0x41#8, 0x42#8] ≠ [] ∧
      (∀ sym ∈ [0x41#8, 0x42#8], readyTwo.cvalidAt sym = true) ∧ readyTwo.cursor = readyTwo.root ∧ readyTwo.out = [] ∧
      readyTwo.packcnt = 0#5 :=
  ⟨good_readyTwo, rfl, rfl, by decide, by decide, rfl, rfl, rfl⟩

/-- Node 8 is the last of P1's tree, 9 is not allocated. -/
theorem witness_ReadnodeShowsTheNode :
    (8#9 : NodeIdx).toNat < readyJob.next.toNat ∧ readyJob.next.toNat ≤ (9#9 : NodeIdx).toNat := by decide

theorem witness_RegReadFollowsTheMap :
    28 ≤ (28#6 : BitVec 6).toNat ∧ (13#6 : BitVec 6) ≠ 12#6 ∧ { emptyJob with out := [7#32] }.out = 7#32 :: [] ∧
      emptyJob.out = [] := by decide

theorem witness_HostAccessIsAStep :
    { readyTwo with schedule := [.read 3#6] }.schedule = .read 3#6 :: [] ∧ (3#6 : BitVec 6) ≠ 12#6 ∧
      { readyTwo with schedule := [.write 2#6 7#32] }.schedule = .write 2#6 7#32 :: [] := by decide

theorem witness_OutDataPopsTheFifo :
    let s := { readyTwo with schedule := [.read 12#6] }
    s.schedule = .read 12#6 :: [] ∧ s.out = [] ∧ { s with out := [7#32] }.out = 7#32 :: [] := by decide

/-- CMD, CODEW0 and CODEW7 while BUSY and while not; and the words 19 and 28 beside them. -/
theorem witness_RegWriteFollowsTheMap :
    readyTwo.pending = none ∧
      (readyTwo.withPending 0#32).pending ≠ none ∧ (27#6 : BitVec 6).toNat = 20 + (7 : Fin 8).val ∧
      (20#6 : BitVec 6).toNat = 20 + (0 : Fin 8).val ∧ ¬ (20 ≤ (19#6 : BitVec 6).toNat ∧ (19#6 : BitVec 6).toNat ≤ 27) ∧
      ¬ (20 ≤ (28#6 : BitVec 6).toNat ∧ (28#6 : BitVec 6).toNat ≤ 27) := by decide

/-- The last word, and misaligned offsets on both sides of the end of the map. -/
theorem witness_BusOffsetsNameWords :
    (252#32 : BitVec 32).toNat % 4 = 0 ∧ (252#32 : BitVec 32).toNat < 256 ∧ (255#32 : BitVec 32).toNat % 4 ≠ 0 ∧
      (257#32 : BitVec 32).toNat % 4 ≠ 0 := by decide

theorem witness_HostCannotTouchAPendingCommand :
    let s := { readyTwo.withPending 0x05000041#32 with schedule := [.write 20#6 7#32] }
    s.pending = some 0x05000041#32 ∧ s.schedule = .write 20#6 7#32 :: [] ∧ Event.write 20#6 7#32 ≠ .engine ∧
      Event.write 20#6 7#32 ≠ .reset ∧ s.engineEnabled = true ∧ ∃ t, step s = .next t :=
  ⟨rfl, rfl, by decide, by decide, by decide, _, rfl⟩

/-- DECODE 16 issued with a full FIFO. -/
theorem witness_IssueAlwaysCompletes :
    let s := { readyTwo with out := List.replicate 16 0#32 }
    s.params.legal ∧ s.pending = none := by decide

theorem witness_ResetThenClearIsClear :
    { readyTwo.withPending 0#32 with schedule := [.reset, .engine] }.schedule = .reset :: .engine :: [] := by decide

/-- Each transition of R25 is taken by some step; here BUILD's, GEN's and LOADCODE's. -/
theorem witness_PhaseChangesOnlyAsListed :
    (GoodJob (countedOne.withPending 0x03000000#32) ∧
      ∃ t, step (countedOne.withPending 0x03000000#32) = .next t ∧ t.phase ≠ .counting) ∧
    (GoodJob (builtOne.withPending 0x04000000#32) ∧
      ∃ t, step (builtOne.withPending 0x04000000#32) = .next t ∧ t.phase ≠ .built) ∧
    GoodJob (emptyJob.withPending 0x09000141#32) ∧
      ∃ t, step (emptyJob.withPending 0x09000141#32) = .next t ∧ t.phase ≠ .empty :=
  ⟨⟨good_withPending good_countedOne _, _, rfl, by decide +kernel⟩,
    ⟨good_withPending good_builtOne _, _, rfl, by decide +kernel⟩,
    good_withPending good_emptyJob _, _, rfl, by decide +kernel⟩

/-- ACKERR, and the reset input, each in a state with both flags set. -/
theorem witness_StickyFlagsAreClearedOnlyByAckerr :
    let s := { emptyJob with overrun := true, underflow := true }
    (∃ t, step (s.withPending 0x0D000000#32) = .next t ∧ t.overrun = false ∧ t.underflow = false) ∧
      ∃ t, step { s with schedule := [.reset] } = .next t ∧ t.overrun = false ∧ t.underflow = false :=
  ⟨⟨_, rfl, by decide, by decide⟩, ⟨_, rfl, by decide, by decide⟩⟩

theorem witness_CommandsChangeOnlyTheirRegisters :
    (∃ t, exec .build countedTwo = .next t) ∧ Instr.build.mnemonic ∉ ["COUNT", "CLEAR"] ∧
      Instr.build.mnemonic ∉ ["ENCODE", "FLUSH", "DECODE", "CLEAR"] ∧ Instr.nop.mnemonic ∉ ["BUILD", "LOADCODE", "CLEAR"] ∧
      Instr.build.mnemonic ≠ "ACKERR" := ⟨⟨_, rfl⟩, by decide, by decide, by decide, by decide⟩

theorem witness_StepKeepsTheStructure : Inv loadedDeep ∧ ∃ t, step loadedDeep = .next t :=
  ⟨good_loadedDeep.structural, _, rfl⟩

theorem witness_StepKeepsAGoodJob :
    (GoodJob readyTwo ∧ ∃ t, step readyTwo = .next t) ∧
      GoodJob (loadedDeep.staged 1#32) ∧ ∃ t, step (loadedDeep.staged 1#32) = .next t :=
  ⟨⟨good_readyTwo, _, rfl⟩, good_staged good_loadedDeep 1#32, _, rfl⟩

end Sys2Proof.Machine
end

section
/-! SUPPORT. What one step and one command can do, each said once: a step is one of six events, and a command is dropped,
raises, or has its effect. -/

namespace Sys2Proof.Machine

/-! ### What one step can be -/

/-- The state at the moment a pending command runs: the event is used up and PENDING is consumed (30_encoding.md R90). -/
def State.consumed (s : State) (rest : List Event) : State := { s with pending := none, schedule := rest }

/-- The six things a step from `s` to `t` can be. -/
inductive StepKind (s t : State) : Prop
  | idle (rest : List Event) (result : t = { s with schedule := rest })
  | reads (rest : List Event) (idx : BitVec 6) (result : t = hostRead idx { s with schedule := rest })
  | writes (rest : List Event) (idx : BitVec 6) (v : Word) (result : t = regWrite idx v { s with schedule := rest })
  | resets (rest : List Event) (scheduled : s.schedule.head? = some .reset)
      (result : t = resetInput { s with schedule := rest })
  | runs (rest : List Event) (w : Word) (i : Instr) (turn : s.runsNext i) (spells : decode w = .ok i)
      (room : s.roomFor w = true) (result : exec i (s.consumed rest) = .next t)
  | illegal (rest : List Event) (w : Word) (result : t = illegalWord w (s.consumed rest))

/-- The Engine's turn, taken with the events `rest` left, is one of the six. -/
theorem StepKind.of_engineTurn {s t : State} (rest : List Event) (next : s.engineNext)
    (h : engineTurn { s with schedule := rest } = .next t) : StepKind s t := by
  obtain ⟨-, e⟩ | ⟨w, -, -, e⟩ | ⟨w, i, hp, room, spells, e⟩ | ⟨w, -, -, -, -, e⟩ :=
    engineTurn_cases { s with schedule := rest }
  · exact .idle rest (Host.Outcome.next.inj (h.symm.trans e))
  · exact .idle rest (Host.Outcome.next.inj (h.symm.trans e))
  · exact .runs rest w i ⟨next, w, hp, spells, room⟩ spells room (e.symm.trans h)
  · exact .illegal rest w (Host.Outcome.next.inj (h.symm.trans e))

/-- An access through a bus that answers a next state is the access to some word. -/
theorem busAccess_next {off : BitVec 32} {access : BitVec 6 → State → State} {s t : State}
    (h : busAccess off access s = .next t) : ∃ idx, t = access idx s := by
  obtain ⟨-, e⟩ | ⟨-, -, e⟩ | ⟨-, -, e⟩ := busAccess_cases off access s <;> rw [h] at e <;> cases e
  exact ⟨_, rfl⟩

/-- Every step that answers a next state is one of the six. -/
theorem step_kind {s t : State} (h : step s = .next t) : StepKind s t := by
  obtain ⟨hs, e⟩ | ⟨event, rest, hs, e⟩ := step_cases s <;> rw [h] at e
  · exact .of_engineTurn [] (.inl (by simp [hs])) (by rw [← hs]; exact e.symm)
  · cases event with
    | engine => exact .of_engineTurn rest (.inr (by simp [hs])) e.symm
    | read idx => exact .reads rest idx (by simpa [happen] using e)
    | write idx v => exact .writes rest idx v (by simpa [happen] using e)
    | busRead off =>
      obtain ⟨idx, e⟩ := busAccess_next e.symm
      exact .reads rest idx e
    | busWrite off v =>
      obtain ⟨idx, e⟩ := busAccess_next (access := fun idx => regWrite idx v) e.symm
      exact .writes rest idx v e
    | reset => exact .resets rest (by simp [hs]) (by simpa [happen] using e)

/-! ### What one command can do -/

/-- `t` is `s`, but for an error recorded where none was (60_exceptions.md R241, R242). -/
def Recorded (s t : State) : Prop :=
  t = s ∨ s.err = .noError ∧ ∃ e info, e ≠ .noError ∧ t = { s with err := e, errinfo := info }

theorem Recorded.raise (op : BitVec 8) {e : ErrCode} (he : e ≠ .noError) (detail : BitVec 24) (s : State) :
    Recorded s (raise op e detail s) := by
  by_cases h : s.err = .noError
  · exact .inr ⟨h, e, op ++ detail, he, raise_of_noError h op e detail⟩
  · exact .inl (raise_of_error h op e detail)

/-- A command has no effect but a recorded error, or it runs in a phase of its set and has its effect. -/
theorem exec_cases {i : Instr} {s t : State} (h : exec i s = .next t) :
    Recorded s t ∨
      (s.drops i.opcode = false ∧ i.wellFormed = true ∧ legalIn i s.phase = true ∧ t = effectOf i s) := by
  rw [exec_eq_command] at h
  obtain ⟨-, e⟩ | ⟨-, -, e⟩ | ⟨-, -, -, e⟩ | ⟨kept, wf, legal, e⟩ := command_cases i (effectOf i) s <;>
    rw [h] at e <;> cases e
  · exact .inl (.inl rfl)
  · exact .inl (.raise _ (by decide) _ _)
  · exact .inl (.raise _ (by decide) _ _)
  · exact .inr ⟨kept, wf, legal, rfl⟩

/-- An illegal word has no effect but a recorded error (30_encoding.md R85). -/
theorem illegalWord_recorded (w : Word) (s : State) : Recorded s (illegalWord w s) := by
  unfold illegalWord
  split
  · exact .inl rfl
  · exact .raise _ (by decide) _ _

/-! ### The commands' effects, one equation for each branch -/

theorem countEffect_cases (sym : Symbol) (s : State) :
    Recorded s (countEffect sym s) ∨ (s.total ≠ 0xFFFFFFFF#32 ∧ countEffect sym s = countSymbol sym s) := by
  unfold countEffect
  split
  · exact .inl (.raise _ (by decide) _ _)
  · next h => exact .inr ⟨h, rfl⟩

/-- The state with the tree BUILD makes (42_tree_builder.md R143). -/
def State.built (s : State) : State :=
  { s.withArena (buildTree s).2 with root := (buildTree s).1, cursor := (buildTree s).1, phase := .built }

theorem buildEffect_cases (s : State) :
    Recorded s (buildEffect s) ∨ (s.ndist ≠ 0#9 ∧ buildEffect s = s.built) := by
  unfold buildEffect
  split
  · exact .inl (.raise _ (by decide) _ _)
  · next h => exact .inr ⟨h, rfl⟩

/-- The packer after the code of `sym` (44_encoder.md R181). -/
def State.packed (s : State) (sym : Symbol) : Packer := putCode (s.cvalAt sym) (s.clenAt sym).toNat s.packer

theorem encodeEffect_cases (sym : Symbol) (s : State) :
    Recorded s (encodeEffect sym s) ∨ encodeEffect sym s = s.withPacker (s.packed sym) := by
  unfold encodeEffect
  split
  · exact .inr rfl
  · exact .inl (.raise _ (by decide) _ _)

theorem flushEffect_cases (s : State) :
    flushEffect s = s ∨ flushEffect s = { s with out := s.out ++ [s.packbuf], packbuf := 0#32, packcnt := 0#5 } := by
  unfold flushEffect
  split
  · exact .inl rfl
  · exact .inr rfl

/-- The state DECODE's walk leaves, before any error is recorded (45_decoder.md R200). -/
def State.decoded (s : State) (n : BitVec 5) (bits : BitVec 16) : State :=
  { s with cursor := (decodeRun n bits s).cursor, out := (decodeRun n bits s).out }

theorem decodeEffect_recorded (n : BitVec 5) (bits : BitVec 16) (s : State) :
    Recorded (s.decoded n bits) (decodeEffect n bits s) := by
  unfold decodeEffect
  dsimp only
  split
  · exact .inl rfl
  · exact .raise _ (by decide) _ _

theorem decendEffect_recorded (s : State) : Recorded s (decendEffect s) := by
  unfold decendEffect
  split
  · exact .inl rfl
  · exact .raise _ (by decide) _ _

/-- Everything LOADCODE can do: a recorded error, or the commit where its walk stopped and the path fits (43_code_table.md
R163). -/
theorem loadcodeEffect_cases (sym : Symbol) (len : BitVec 8) (s : State) :
    Recorded s (loadcodeEffect sym len s) ∨
    ∃ n k, len ≠ 0#8 ∧ s.cvalidAt sym = false ∧
      loadWalk (loadTree s).2.node (codeOperand s.cw len) (len.toNat - 1) (loadTree s).1 = .stopped n k ∧
      (loadTree s).2.next.toNat + (k + 1) ≤ Config.nnode ∧
      loadcodeEffect sym len s = loadCommit sym len (codeOperand s.cw len) n k s := by
  have refused (e : ErrCode) (he : e ≠ .noError) (detail : BitVec 24) :
      Recorded s (raise (Instr.loadcode sym len).opcode e detail s) := .raise _ he _ _
  unfold loadcodeEffect
  dsimp only
  split
  · exact .inl (refused _ (by decide) _)
  split
  · exact .inl (refused _ (by decide) _)
  split
  · exact .inl (refused _ (by decide) _)
  next hlen hvalid _ =>
    split
    · exact .inl (refused _ (by decide) _)
    · exact .inl (refused _ (by decide) _)
    next n k hwalk =>
      split
      · exact .inl (refused _ (by decide) _)
      next fits => exact .inr ⟨n, k, hlen, by simpa using hvalid, hwalk, by omega, rfl⟩

theorem readcodeEffect_frame (sym : Symbol) (s : State) :
    readcodeEffect sym s = { s with
      result0 := (readcodeEffect sym s).result0, result1 := (readcodeEffect sym s).result1
      codew := (readcodeEffect sym s).codew } := by
  unfold readcodeEffect
  split <;> rfl

theorem readnodeEffect_frame (idx : NodeIdx) (s : State) :
    readnodeEffect idx s = { s with
      result0 := (readnodeEffect idx s).result0, result1 := (readnodeEffect idx s).result1 } := by
  unfold readnodeEffect
  split <;> rfl

end Sys2Proof.Machine
end

section
/-! SUPPORT. The structure of a good state (`Inv`): what each operation does to OUT, to the packer and to the canonical form
of the internal memories, and that every step keeps it. -/

namespace Sys2Proof.Machine

/-! ### The room a command waits for (20_memory.md R57) -/

/-- How many free FIFO entries a command waits for. -/
def roomNeeded : Instr → Nat
  | .encode _ => 8
  | .flush => 1
  | .decode n _ => n.toNat
  | _ => 0

theorem unlessReserved_ok {mask a : BitVec 24} {i j : Instr} (h : unlessReserved mask a i = .ok j) : j = i := by
  unfold unlessReserved at h
  split at h <;> cases h
  rfl

/-- The need of a word is that of the command it spells. -/
theorem need_of_decode {w : Word} {i : Instr} (h : decode w = .ok i) : need w = roomNeeded i := by
  unfold decode at h
  unfold need
  dsimp only at h
  split at h
  case h_8 op =>
    rw [op]
    split at h
    · split at h
      · next count => cases h; simp [roomNeeded, count]
      · cases h
    · cases h
  case h_15 other =>
    cases h
  all_goals
    next op =>
      rw [unlessReserved_ok h, op]
      rfl

/-! ### The packer (44_encoder.md R180, R181) -/

/-- PACKBUF is 0 below its `cnt` pending bits exactly when each of those bits is. -/
theorem shiftLeft_eq_zero_iff (buf : Word) (cnt : Nat) :
    buf <<< cnt = 0#32 ↔ ∀ i, i + cnt < 32 → buf.getLsbD i = false := by
  constructor
  · intro h i hi
    have bit : (buf <<< cnt).getLsbD (i + cnt) = false := by rw [h, BitVec.getLsbD_zero]
    simpa only [BitVec.getLsbD_shiftLeft, hi, Nat.not_lt.mpr (Nat.le_add_left cnt i), Nat.add_sub_cancel, decide_true,
      decide_false, Bool.not_false, Bool.true_and] using bit
  · intro h
    apply BitVec.eq_of_getLsbD_eq
    intro i hi
    by_cases lt : i < cnt
    · simp [lt]
    · rw [BitVec.getLsbD_shiftLeft, h (i - cnt) (by omega)]
      simp

/-- PutBit writes no bit but the one at position 31 − cnt. -/
theorem getLsbD_setPackBit (buf : Word) {cnt i : Nat} (b : Bool) (hi : i + cnt < 31) :
    (setPackBit buf cnt b).getLsbD i = buf.getLsbD i := by
  have other : ((0x80000000#32 : Word) >>> cnt).getLsbD i = false := by
    rw [BitVec.getLsbD_ushiftRight, show (0x80000000#32 : Word) = BitVec.twoPow 32 31 by decide,
      BitVec.getLsbD_twoPow]
    simp; omega
  unfold setPackBit
  cases b
  · simp only [Bool.false_eq_true, if_false, BitVec.getLsbD_and, BitVec.getLsbD_not, other]
    simp; omega
  · simp [other]

/-- PutBit counts one bit, in PACKCNT or as a word pushed. -/
theorem putBit_count (b : Bool) (p : Packer) :
    32 * (putBit b p).out.length + (putBit b p).packcnt.toNat = 32 * p.out.length + p.packcnt.toNat + 1 := by
  unfold putBit
  dsimp only
  split
  · simp; omega
  · have := p.packcnt.isLt
    simp only [BitVec.toNat_add]
    rw [Nat.mod_eq_of_lt (by simp; omega)]
    rfl

/-- PutBit keeps the bits below the pending ones 0 (10_state.md R34). -/
theorem putBit_padded (b : Bool) {p : Packer} (h : p.packbuf <<< p.packcnt.toNat = 0#32) :
    (putBit b p).packbuf <<< (putBit b p).packcnt.toNat = 0#32 := by
  rw [shiftLeft_eq_zero_iff] at h
  unfold putBit
  dsimp only
  split
  · rfl
  · have := p.packcnt.isLt
    have count : (p.packcnt + 1#5).toNat = p.packcnt.toNat + 1 := by
      rw [BitVec.toNat_add, Nat.mod_eq_of_lt (by simp; omega)]
      rfl
    rw [shiftLeft_eq_zero_iff, count]
    intro i hi
    rw [getLsbD_setPackBit _ _ (by omega)]
    exact h i (by omega)

/-- The PutBits of a code count its bits. -/
theorem putCode_count (v : CodeVal) (len : Nat) (p : Packer) :
    32 * (putCode v len p).out.length + (putCode v len p).packcnt.toNat = 32 * p.out.length + p.packcnt.toNat + len := by
  induction len generalizing p with
  | zero => rfl
  | succ j ih =>
    rw [putCode, ih, putBit_count]
    omega

theorem putCode_padded (v : CodeVal) (len : Nat) {p : Packer} (h : p.packbuf <<< p.packcnt.toNat = 0#32) :
    (putCode v len p).packbuf <<< (putCode v len p).packcnt.toNat = 0#32 := by
  induction len generalizing p with
  | zero => exact h
  | succ j ih => exact ih (putBit_padded _ h)

/-- One ENCODE pushes at most ⌊(31 + 255)/32⌋ = 8 words (44_encoder.md R181). -/
theorem packed_out_length (s : State) (sym : Symbol) : (s.packed sym).out.length ≤ s.out.length + 8 := by
  have count := putCode_count (s.cvalAt sym) (s.clenAt sym).toNat s.packer
  rw [packer_out, packer_packcnt] at count
  have := s.packcnt.isLt
  have := (s.clenAt sym).isLt
  unfold State.packed
  omega

/-! ### What the host port and DECODE do to OUT -/

/-- DECODE pushes at most one symbol for each bit. -/
theorem decodeLoop_out_length (m : Memory Node) (root : NodeIdx) (bits : BitVec 16) (left j : Nat) (cursor : NodeIdx)
    (out : List Word) : (decodeLoop m root bits left j cursor out).out.length ≤ out.length + left := by
  induction left generalizing j cursor out with
  | zero => exact Nat.le_refl _
  | succ left ih =>
    rw [decodeLoop]
    split
    · exact Nat.le_add_right _ _
    split
    · refine (ih _ _ _).trans (le_of_eq ?_)
      simp; omega
    · exact (ih _ _ _).trans (by omega)

/-- A Host read leaves no more in OUT than there was. -/
theorem hostRead_out_length (idx : BitVec 6) (s : State) : (hostRead idx s).out.length ≤ s.out.length := by
  unfold hostRead regRead popOut
  split
  · split
    · exact Nat.le_refl _
    · next h => simp [h]
  · exact Nat.le_refl _

/-! ### The canonical form of the memories (20_memory.md R63; log 20) -/

/-- NODE in canonical form. -/
abbrev Arena.Wf (ar : Arena) : Prop := Memory.wf Node.unlisted (2 ^ 9) ar.node

/-- The code table in canonical form. -/
structure CodeTable.Wf (t : CodeTable) : Prop where
  cvalid : Memory.wf false Config.nsym t.cvalid
  clen : Memory.wf 0#8 Config.nsym t.clen
  cval : Memory.wf 0#255 Config.nsym t.cval

theorem CodeTable.Wf.assign {t : CodeTable} (h : t.Wf) (sym : Symbol) (len : BitVec 8) (v : CodeVal) :
    (t.assign sym len v).Wf :=
  ⟨Memory.wf_write h.cvalid true sym.isLt, Memory.wf_write h.clen len sym.isLt, Memory.wf_write h.cval v sym.isLt⟩

theorem addLeaves_wf (freq : Memory Word) (syms : List Nat) {ar : Arena} (h : ar.Wf) (pq : List NodeIdx) :
    (addLeaves freq syms ar pq).1.Wf := by
  induction syms generalizing ar pq with
  | nil => exact h
  | cons a rest ih =>
    rw [addLeaves]
    dsimp only
    split
    · exact ih h pq
    · exact ih (alloc_wf h _) _

theorem mergeLoop_wf (rounds : Nat) {ar : Arena} (h : ar.Wf) (pq : List NodeIdx) : (mergeLoop rounds ar pq).2.Wf := by
  induction rounds generalizing ar pq with
  | zero => exact h
  | succ rounds ih =>
    rw [mergeLoop]
    split
    · exact h
    split
    · exact h
    · exact ih (alloc_wf h _) _

theorem buildTree_wf {s : State} (h : s.arena.Wf) : (buildTree s).2.Wf := by
  unfold buildTree
  dsimp only
  split
  · exact alloc_wf (addLeaves_wf _ _ h _) _
  · exact mergeLoop_wf _ (addLeaves_wf _ _ h _) _

theorem visit_wf (m : Memory Node) (depth : Nat) (n : NodeIdx) (v : CodeVal) (l : Nat) {t : CodeTable} (h : t.Wf) :
    (visit m depth n v l t).Wf := by
  induction depth generalizing n v l t with
  | zero => exact h
  | succ depth ih =>
    rw [visit]
    split
    · exact h.assign _ _ _
    · have left : (if (nodeAt m n).left = NULL then t else
          visit m depth (nodeAt m n).left (2 * v) (l + 1) t).Wf := by
        split
        · exact h
        · exact ih _ _ _ h
      dsimp only
      split
      · exact left
      · exact ih _ _ _ left

theorem placePath_wf (sym : Symbol) (v : CodeVal) (k : Nat) (n : NodeIdx) {ar : Arena} (h : ar.Wf) :
    (placePath sym v k n ar).Wf := by
  have place (k : Nat) (n : NodeIdx) {ar : Arena} (h : ar.Wf) : (placeNode sym v k n ar).2.Wf :=
    put_wf (alloc_wf h _) _ _
  induction k generalizing n ar with
  | zero => exact place 0 n h
  | succ k ih => exact ih _ (place (k + 1) n h)

theorem loadTree_wf {s : State} (h : s.arena.Wf) : (loadTree s).2.Wf := by
  unfold loadTree
  split
  · exact put_wf h 0#9 (Node.internalOf 0#32 NULL NULL)
  · exact h

/-! ### Every step keeps the structure -/

theorem Inv.arena_wf {s : State} (h : Inv s) : s.arena.Wf := h.node

theorem Inv.table_wf {s : State} (h : Inv s) : s.table.Wf := ⟨h.cvalid, h.clen, h.cval⟩

theorem Inv.recorded {s t : State} (h : Inv s) (r : Recorded s t) : Inv t := by
  obtain rfl | ⟨-, e, info, he, rfl⟩ := r
  · exact h
  · exact { h with errinfo := fun none => absurd none he }

theorem Inv.consumed {s : State} (h : Inv s) (rest : List Event) : Inv (s.consumed rest) := { h with }

theorem Inv.clearEffect {s : State} (h : Inv s) : Inv (clearEffect s) :=
  { h with
    fifo := Nat.zero_le _, errinfo := fun _ => rfl, packer := rfl
    freq := Memory.wf_nil _ _, cvalid := Memory.wf_nil _ _ }

theorem Inv.countEffect {s : State} (h : Inv s) (sym : Symbol) : Inv (countEffect sym s) := by
  obtain r | ⟨-, e⟩ := countEffect_cases sym s
  · exact h.recorded r
  · rw [e]
    exact { h with freq := Memory.wf_write h.freq _ sym.isLt }

theorem Inv.buildEffect {s : State} (h : Inv s) : Inv (buildEffect s) := by
  obtain r | ⟨-, e⟩ := buildEffect_cases s
  · exact h.recorded r
  · rw [e]
    exact { h with node := buildTree_wf h.arena_wf }

theorem Inv.genEffect {s : State} (h : Inv s) : Inv (genEffect s) := by
  have table : (generatedTable s).Wf := visit_wf _ _ _ _ _ h.table_wf
  exact { h with cvalid := table.cvalid, clen := table.clen, cval := table.cval }

theorem Inv.encodeEffect {s : State} (h : Inv s) (sym : Symbol) (room : s.out.length + 8 ≤ s.params.fifoDepth) :
    Inv (encodeEffect sym s) := by
  obtain r | e := encodeEffect_cases sym s
  · exact h.recorded r
  · rw [e]
    exact { h with fifo := (packed_out_length s sym).trans room, packer := putCode_padded _ _ h.packer }

theorem Inv.flushEffect {s : State} (h : Inv s) (room : s.out.length + 1 ≤ s.params.fifoDepth) :
    Inv (flushEffect s) := by
  obtain e | e := flushEffect_cases s <;> rw [e]
  · exact h
  · exact { h with fifo := by simpa using room, packer := rfl }

theorem Inv.decodeEffect {s : State} (h : Inv s) (n : BitVec 5) (bits : BitVec 16)
    (room : s.out.length + n.toNat ≤ s.params.fifoDepth) : Inv (decodeEffect n bits s) := by
  have moved : Inv (s.decoded n bits) := { h with fifo := (decodeLoop_out_length _ _ _ _ _ _ _).trans room }
  exact moved.recorded (decodeEffect_recorded n bits s)

theorem Inv.loadcodeEffect {s : State} (h : Inv s) (sym : Symbol) (len : BitVec 8) : Inv (loadcodeEffect sym len s) := by
  obtain r | ⟨n, k, -, -, -, -, e⟩ := loadcodeEffect_cases sym len s
  · exact h.recorded r
  · rw [e]
    have table := h.table_wf.assign sym len (codeOperand s.cw len)
    exact { h with
      node := placePath_wf _ _ _ _ (loadTree_wf h.arena_wf)
      cvalid := table.cvalid, clen := table.clen, cval := table.cval }

theorem Inv.readcodeEffect {s : State} (h : Inv s) (sym : Symbol) : Inv (readcodeEffect sym s) := by
  rw [readcodeEffect_frame]
  exact { h with }

theorem Inv.readnodeEffect {s : State} (h : Inv s) (idx : NodeIdx) : Inv (readnodeEffect idx s) := by
  rw [readnodeEffect_frame]
  exact { h with }

/-- A command that runs with the room it waits for keeps the structure. -/
theorem Inv.exec {i : Instr} {s t : State} (h : Inv s) (room : s.out.length + roomNeeded i ≤ s.params.fifoDepth)
    (e : exec i s = .next t) : Inv t := by
  obtain r | ⟨-, -, -, rfl⟩ := exec_cases e
  · exact h.recorded r
  cases i with
  | nop => exact h
  | clear => exact h.clearEffect
  | count sym => exact h.countEffect sym
  | build => exact h.buildEffect
  | gen => exact h.genEffect
  | encode sym => exact h.encodeEffect sym room
  | flush => exact h.flushEffect room
  | decode n bits => exact h.decodeEffect n bits room
  | decend => exact h.recorded (decendEffect_recorded s)
  | loadcode sym len => exact h.loadcodeEffect sym len
  | readcode sym => exact h.readcodeEffect sym
  | readfreq sym => exact { h with }
  | readnode idx => exact h.readnodeEffect idx
  | ackerr => exact { h with errinfo := fun _ => rfl }

/-- The reset input gives every state with a legal FIFO_DEPTH the structure (10_state.md R48). -/
theorem inv_resetInput {s : State} (depth : s.params.legal) : Inv (resetInput s) where
  depth := depth
  fifo := Nat.zero_le _
  errinfo _ := rfl
  packer := rfl
  freq := Memory.wf_nil _ _
  node := Memory.wf_nil _ _
  cvalid := Memory.wf_nil _ _
  clen := Memory.wf_nil _ _
  cval := Memory.wf_nil _ _

/-- Every step keeps the structure. -/
theorem Inv.step {s t : State} (h : Inv s) (e : step s = .next t) : Inv t := by
  cases step_kind e with
  | idle rest result => rw [result]; exact { h with }
  | reads rest idx result =>
    rw [result, hostRead_frame]
    exact { h with fifo := (hostRead_out_length idx _).trans h.fifo }
  | writes rest idx v result =>
    rw [result, regWrite_frame]
    exact { h with }
  | resets rest _ result => rw [result]; exact inv_resetInput h.depth
  | runs rest w i _ spells room result =>
    refine (h.consumed rest).exec ?_ result
    rw [← need_of_decode spells]
    exact of_decide_eq_true room
  | illegal rest w result => exact (h.consumed rest).recorded (result ▸ illegalWord_recorded w _)

/-- Settles O58: `Inv` is kept by each of the six things a step can be. -/
theorem stepKeepsTheStructure : Obligations.StepKeepsTheStructure := by
  unfold Obligations.StepKeepsTheStructure
  exact fun _ _ => Inv.step

/-- Settles O57: the reset state is what the reset input makes of itself. -/
theorem resetStateIsWellStructured : Obligations.ResetStateIsWellStructured := by
  unfold Obligations.ResetStateIsWellStructured
  exact inv_resetInput (s := State.reset) (by decide)

end Sys2Proof.Machine
end

section
/-! SUPPORT. The counters (41_frequency.md R121): how a sum and a count over the symbols change with one entry, and that
COUNT keeps TOTAL and NDIST what they count. -/

namespace Sys2Proof.Machine

/-! ### A sum and a count of which one entry changes -/

/-- A sum over distinct indices, of which one entry changes. -/
theorem sum_map_update {l : List Nat} (distinct : l.Nodup) {a : Nat} (mem : a ∈ l) {f g : Nat → Nat}
    (same : ∀ b, b ≠ a → g b = f b) : (l.map g).sum + f a = (l.map f).sum + g a := by
  have rest : (l.erase a).map g = (l.erase a).map f :=
    List.map_congr_left fun b hb => same b ((distinct.mem_erase_iff.mp hb).1)
  rw [← List.sum_map_erase f mem, ← List.sum_map_erase g mem, rest]
  omega

/-- A count over distinct indices, of which one entry changes. -/
theorem length_filter_update {l : List Nat} (distinct : l.Nodup) {a : Nat} (mem : a ∈ l) {p q : Nat → Bool}
    (same : ∀ b, b ≠ a → q b = p b) :
    (l.filter q).length + (if p a then 1 else 0) = (l.filter p).length + (if q a then 1 else 0) := by
  have rest : (l.erase a).filter q = (l.erase a).filter p :=
    List.filter_congr fun b hb => same b ((distinct.mem_erase_iff.mp hb).1)
  have split (r : Nat → Bool) : (l.filter r).length = (if r a then 1 else 0) + ((l.erase a).filter r).length := by
    rw [((List.perm_cons_erase mem).filter r).length_eq, List.filter_cons]
    split <;> simp [Nat.add_comm]
  rw [split p, split q, rest]
  omega

theorem toNat_mem_range (sym : Symbol) : sym.toNat ∈ List.range Config.nsym := List.mem_range.mpr sym.isLt

/-! ### The counters -/

theorem freqCount_le (s : State) : s.freqCount ≤ 256 := by
  simpa [State.freqCount] using List.length_filter_le (fun a => decide (Memory.read 0#32 s.freq a ≠ 0#32))
    (List.range Config.nsym)

theorem one_le_freqCount {s : State} {sym : Symbol} (counted : s.freqAt sym ≠ 0#32) : 1 ≤ s.freqCount :=
  List.length_pos_of_mem (List.mem_filter.mpr ⟨toNat_mem_range sym, decide_eq_true counted⟩)

theorem Counted.ndist_le {s : State} (h : Counted s) : s.ndist.toNat ≤ 256 := h.ndist ▸ freqCount_le s

/-- No symbol is counted more often than all are (41_frequency.md R121). -/
theorem freqAt_le_freqSum (s : State) (sym : Symbol) : (s.freqAt sym).toNat ≤ s.freqSum :=
  List.le_sum_of_mem (List.mem_map_of_mem (f := fun a => (Memory.read 0#32 s.freq a).toNat) (toNat_mem_range sym))

theorem Counted.freqAt_le_total {s : State} (h : Counted s) (sym : Symbol) : (s.freqAt sym).toNat ≤ s.total.toNat :=
  h.total ▸ freqAt_le_freqSum s sym

/-- With TOTAL 0 nothing is counted. -/
theorem Counted.freqAt_eq_zero {s : State} (h : Counted s) (none : s.total = 0#32) (sym : Symbol) :
    s.freqAt sym = 0#32 := by
  have := h.freqAt_le_total sym
  rw [none] at this
  exact BitVec.eq_of_toNat_eq (Nat.le_zero.mp this)

/-- A state that counts nothing. -/
theorem counted_of_nil {s : State} (freq : s.freq = []) (total : s.total = 0#32) (ndist : s.ndist = 0#9) : Counted s where
  total := by simp [total, State.freqSum, freq]
  ndist := by simp [ndist, State.freqCount, freq]

theorem freqAt_countSymbol (sym : Symbol) (s : State) : (countSymbol sym s).freqAt sym = s.freqAt sym + 1#32 :=
  Memory.read_write_same _ _ _ _

theorem read_countSymbol_other (sym : Symbol) (s : State) {b : Nat} (h : b ≠ sym.toNat) :
    Memory.read 0#32 (countSymbol sym s).freq b = Memory.read 0#32 s.freq b := Memory.read_write_other _ _ _ h

/-- Below its maximum TOTAL does not wrap (41_frequency.md R120). -/
theorem toNat_total_countSymbol (sym : Symbol) {s : State} (room : s.total ≠ 0xFFFFFFFF#32) :
    (countSymbol sym s).total.toNat = s.total.toNat + 1 := by
  have : s.total.toNat ≠ 0xFFFFFFFF := fun e => room (BitVec.eq_of_toNat_eq e)
  have := s.total.isLt
  show (s.total + 1#32).toNat = _
  rw [BitVec.toNat_add, Nat.mod_eq_of_lt (by simp; omega)]
  rfl

section Count
variable {s : State} (h : Counted s) (sym : Symbol) (room : s.total ≠ 0xFFFFFFFF#32)
include h room

/-- Where TOTAL does not wrap, FREQ does not (41_frequency.md R120, R121). -/
theorem toNat_freqAt_countSymbol : ((countSymbol sym s).freqAt sym).toNat = (s.freqAt sym).toNat + 1 := by
  have := toNat_total_countSymbol sym room
  have := (countSymbol sym s).total.isLt
  have := h.freqAt_le_total sym
  rw [freqAt_countSymbol, BitVec.toNat_add, Nat.mod_eq_of_lt (by simp; omega)]
  rfl

theorem freqCount_countSymbol :
    (countSymbol sym s).freqCount = s.freqCount + if s.freqAt sym = 0#32 then 1 else 0 := by
  have now : (countSymbol sym s).freqAt sym ≠ 0#32 := fun zero => by
    have := toNat_freqAt_countSymbol h sym room
    simp [zero] at this
  have count := length_filter_update (p := fun a => decide (Memory.read 0#32 s.freq a ≠ 0#32))
    (q := fun a => decide (Memory.read 0#32 (countSymbol sym s).freq a ≠ 0#32)) List.nodup_range (toNat_mem_range sym)
    fun b hb => by simp only [read_countSymbol_other sym s hb]
  change (countSymbol sym s).freqCount + (if decide (s.freqAt sym ≠ 0#32) then 1 else 0) =
    s.freqCount + (if decide ((countSymbol sym s).freqAt sym ≠ 0#32) then 1 else 0) at count
  by_cases zero : s.freqAt sym = 0#32
  · simpa [zero, now] using count
  · simpa [zero, now] using count

theorem toNat_ndist_countSymbol :
    (countSymbol sym s).ndist.toNat = s.ndist.toNat + if s.freqAt sym = 0#32 then 1 else 0 := by
  have count := freqCount_countSymbol h sym room
  have := freqCount_le (countSymbol sym s)
  show (if s.freqAt sym = 0#32 then s.ndist + 1#9 else s.ndist).toNat = _
  split at count <;> rename_i zero <;> simp only [zero, if_true, if_false, Nat.add_zero]
  rw [BitVec.toNat_add, Nat.mod_eq_of_lt (by rw [h.ndist]; simp; omega)]
  rfl

/-- COUNT keeps TOTAL and NDIST what they count. -/
theorem Counted.countSymbol : Counted (countSymbol sym s) where
  total := by
    have sum := sum_map_update (f := fun a => (Memory.read 0#32 s.freq a).toNat)
      (g := fun a => (Memory.read 0#32 (Machine.countSymbol sym s).freq a).toNat) List.nodup_range (toNat_mem_range sym)
      fun b hb => by simp only [read_countSymbol_other sym s hb]
    change (Machine.countSymbol sym s).freqSum + (s.freqAt sym).toNat =
      s.freqSum + ((Machine.countSymbol sym s).freqAt sym).toNat at sum
    rw [toNat_freqAt_countSymbol h sym room] at sum
    rw [toNat_total_countSymbol sym room, h.total]
    omega
  ndist := by rw [toNat_ndist_countSymbol h sym room, freqCount_countSymbol h sym room, h.ndist]

/-- After a COUNT some symbol is counted. -/
theorem Counted.one_le_ndist_countSymbol : 1 ≤ (Machine.countSymbol sym s).ndist.toNat := by
  rw [(h.countSymbol sym room).ndist]
  refine one_le_freqCount (sym := sym) fun zero => ?_
  have := toNat_freqAt_countSymbol h sym room
  rw [zero] at this
  exact absurd this (Nat.zero_ne_add_one _)

end Count

end Sys2Proof.Machine
end

section
/-! SUPPORT. Allocation and paths: what NODE and NEXT are after an alloc that fits, and where a path of bits leads. -/

namespace Sys2Proof.Machine

/-! ### Allocation (42_tree_builder.md R142) -/

section Alloc
variable {ar : Arena} (fits : ar.next.toNat < 511)
include fits

theorem toNat_alloc_fst (r : Node) : (ar.alloc r).1.toNat = ar.next.toNat := by
  rw [alloc_fst, BitVec.toNat_setWidth, Nat.mod_eq_of_lt (by omega)]

theorem toNat_alloc_next (r : Node) : (ar.alloc r).2.next.toNat = ar.next.toNat + 1 := by
  rw [alloc_next, BitVec.toNat_add, Nat.mod_eq_of_lt (by simp; omega)]
  rfl

theorem nodeAt_alloc_new {n : NodeIdx} (hn : n.toNat = ar.next.toNat) (r : Node) : nodeAt (ar.alloc r).2.node n = r := by
  rw [nodeAt_alloc, ← alloc_fst ar r, if_pos (BitVec.eq_of_toNat_eq (hn.trans (toNat_alloc_fst fits r).symm))]

theorem nodeAt_alloc_old {n : NodeIdx} (hn : n.toNat < ar.next.toNat) (r : Node) :
    nodeAt (ar.alloc r).2.node n = nodeAt ar.node n := by
  rw [nodeAt_alloc, ← alloc_fst ar r, if_neg]
  rintro rfl
  rw [toNat_alloc_fst fits r] at hn
  omega

end Alloc

/-! ### Node records -/

theorem kind_ne_leaf {k : NodeKind} : k ≠ .leaf ↔ k = .internal := by cases k <;> decide

theorem child_congr {m m' : Memory Node} {n : NodeIdx} (h : nodeAt m n = nodeAt m' n) (b : Bool) :
    child m n b = child m' n b := by
  rw [child, child, h]

theorem child_of_internalOf {m : Memory Node} {n left right : NodeIdx} {weight : Word}
    (h : nodeAt m n = Node.internalOf weight left right) (b : Bool) : child m n b = if b then right else left := by
  rw [child, h]
  rfl

/-- The children of a node of which one was replaced. -/
theorem child_of_withChild {m : Memory Node} {n c : NodeIdx} {r : Node} {side : Bool}
    (h : nodeAt m n = r.withChild side c) (b : Bool) :
    child m n b = if b = side then c else if b then r.right else r.left := by
  rw [child, h]
  cases b <;> cases side <;> rfl

theorem ne_NULL_of_lt {n : NodeIdx} (h : n.toNat < 511) : n ≠ NULL := by
  rintro rfl
  exact absurd h (by decide)

/-! ### Where a path leads -/

section Follow
variable {m : Memory Node} {n n' : NodeIdx}

theorem follow_nil_iff : follow m n [] = some n' ↔ n = n' := by simp [follow]

/-- A path goes on from an INTERNAL node by a child that is there. -/
theorem follow_cons_iff {b : Bool} {rest : List Bool} :
    follow m n (b :: rest) = some n' ↔
      (nodeAt m n).kind = .internal ∧ child m n b ≠ NULL ∧ follow m (child m n b) rest = some n' := by
  rw [follow]
  cases hk : (nodeAt m n).kind
  · simp
  · by_cases hc : child m n b = NULL <;> simp [hc]

theorem follow_append_iff {p q : List Bool} :
    follow m n (p ++ q) = some n' ↔ ∃ x, follow m n p = some x ∧ follow m x q = some n' := by
  induction p generalizing n with
  | nil => simp [follow]
  | cons b rest ih =>
    rw [List.cons_append, follow_cons_iff, ih]
    constructor
    · rintro ⟨hk, hc, x, hx, hq⟩
      exact ⟨x, follow_cons_iff.mpr ⟨hk, hc, hx⟩, hq⟩
    · rintro ⟨x, hx, hq⟩
      obtain ⟨hk, hc, hx⟩ := follow_cons_iff.mp hx
      exact ⟨hk, hc, x, hx, hq⟩

/-- The last bit of a path leads from an INTERNAL node to its child. -/
theorem follow_snoc_iff {p : List Bool} {b : Bool} :
    follow m n (p ++ [b]) = some n' ↔
      ∃ x, follow m n p = some x ∧ (nodeAt m x).kind = .internal ∧ child m x b = n' ∧ n' ≠ NULL := by
  simp only [follow_append_iff, follow_cons_iff, follow_nil_iff]
  constructor
  · rintro ⟨x, hx, hk, hc, rfl⟩
    exact ⟨x, hx, hk, rfl, hc⟩
  · rintro ⟨x, hx, hk, rfl, hc⟩
    exact ⟨x, hx, hk, hc, rfl⟩

/-- No path of at least one bit starts at a LEAF. -/
theorem follow_of_leaf {p : List Bool} (leaf : (nodeAt m n).kind = .leaf) (h : follow m n p = some n') :
    p = [] ∧ n = n' := by
  cases p with
  | nil => exact ⟨rfl, follow_nil_iff.mp h⟩
  | cons b rest => simp [follow_cons_iff, leaf] at h

/-- The children of the allocated INTERNAL nodes are allocated (20_memory.md R62). -/
def Closed (m : Memory Node) (next : Nat) : Prop :=
  ∀ (n : NodeIdx) (b : Bool), n.toNat < next → (nodeAt m n).kind = .internal → child m n b ≠ NULL →
    (child m n b).toNat < next

/-- A path from an allocated node leads to allocated nodes. -/
theorem Closed.follow_lt {next : Nat} (closed : Closed m next) {p : List Bool} (hn : n.toNat < next)
    (h : follow m n p = some n') : n'.toNat < next := by
  induction p generalizing n with
  | nil => exact follow_nil_iff.mp h ▸ hn
  | cons b rest ih =>
    obtain ⟨hk, hc, h⟩ := follow_cons_iff.mp h
    exact ih (closed n b hn hk hc) h

end Follow

/-! ### Codes as lists of bits (10_state.md R31) -/

@[simp] theorem length_codeBits (v : CodeVal) (len : Nat) : (codeBits v len).length = len := by
  induction len with
  | zero => rfl
  | succ j ih => rw [codeBits, List.length_cons, ih]

/-- A code value doubled, with a bit added, is the code with that bit added (43_code_table.md R160). -/
theorem codeBits_of_shift {v v' : CodeVal} {b : Bool} {len : Nat} (first : v'.getLsbD 0 = b)
    (rest : ∀ i, i < len → v'.getLsbD (i + 1) = v.getLsbD i) : codeBits v' (len + 1) = codeBits v len ++ [b] := by
  induction len with
  | zero => simp only [codeBits, codeBit, first, List.nil_append]
  | succ len ih =>
    rw [codeBits, ih fun i hi => rest i (by omega), codeBits, codeBit, rest len (by omega)]
    rfl

end Sys2Proof.Machine
end

section
/-! SUPPORT. BUILD (42_tree_builder.md R142 to R146): the leaves, the forest that each merge joins, and the tree it ends in. -/

namespace Sys2Proof.Machine

/-! ### The queue (R141) -/

theorem leastKey_mem (m : Memory Node) (i : NodeIdx) (rest : List NodeIdx) : leastKey m i rest ∈ i :: rest := by
  induction rest generalizing i with
  | nil => exact List.mem_singleton.mpr rfl
  | cons j rest ih =>
    rw [leastKey]
    split
    · exact List.mem_cons_of_mem i (ih j)
    · obtain e | mem := List.mem_cons.mp (ih i)
      · rw [e]; exact List.mem_cons_self
      · exact List.mem_cons_of_mem i (List.mem_cons_of_mem j mem)

theorem popMin_eq_none {m : Memory Node} {pq : List NodeIdx} (h : popMin m pq = none) : pq = [] := by
  cases pq with
  | nil => rfl
  | cons i rest => cases h

/-- pop_min takes one index and leaves the others. -/
theorem popMin_perm {m : Memory Node} {pq rest : List NodeIdx} {a : NodeIdx} (h : popMin m pq = some (a, rest)) :
    pq.Perm (a :: rest) := by
  cases pq with
  | nil => cases h
  | cons i others =>
    cases h
    exact List.perm_cons_erase (leastKey_mem m i others)

/-! ### The leaves (R142) -/

/-- The counted ones of a list of symbols, in its order. -/
def countedSymbols (freq : Memory Word) (syms : List Nat) : List Nat :=
  syms.filter fun a => decide (Memory.read 0#32 freq a ≠ 0#32)

/-- The sum of the weights of a list of nodes. -/
def weightSum (m : Memory Node) (pq : List NodeIdx) : Nat := (pq.map fun n => (nodeAt m n).weight.toNat).sum

/-- The arena and the queue once the symbols `done` have their leaves: one leaf per counted symbol, in order, and all of them
in the queue. -/
structure Seeded (freq : Memory Word) (done : List Nat) (ar : Arena) (pq : List NodeIdx) : Prop where
  next : ar.next.toNat = (countedSymbols freq done).length
  leaf : ∀ (n : NodeIdx) (a : Nat), (countedSymbols freq done)[n.toNat]? = some a →
    nodeAt ar.node n = Node.leafOf (Memory.read 0#32 freq a) (BitVec.ofNat 8 a)
  queue : ∀ n, n ∈ pq ↔ n.toNat < ar.next.toNat
  size : pq.length = ar.next.toNat
  distinct : pq.Nodup
  sum : weightSum ar.node pq = (done.map fun a => (Memory.read 0#32 freq a).toNat).sum

/-- The weights of nodes allocated before stay. -/
theorem weightSum_alloc {ar : Arena} (fits : ar.next.toNat < 511) (r : Node) {pq : List NodeIdx}
    (old : ∀ n ∈ pq, n.toNat < ar.next.toNat) : weightSum (ar.alloc r).2.node pq = weightSum ar.node pq := by
  unfold weightSum
  rw [List.map_congr_left fun n hn => by rw [nodeAt_alloc_old fits (old n hn)]]

/-- A list of allocated nodes stays one without repetitions when the next node is put before it. -/
theorem nodup_cons_alloc {ar : Arena} (fits : ar.next.toNat < 511) (r : Node) {pq : List NodeIdx} (distinct : pq.Nodup)
    (old : ∀ n ∈ pq, n.toNat < ar.next.toNat) : ((ar.alloc r).1 :: pq).Nodup :=
  List.nodup_cons.mpr ⟨fun mem => absurd (old _ mem) (by rw [toNat_alloc_fst fits r]; omega), distinct⟩

section Seed
variable {freq : Memory Word} {done : List Nat} {ar : Arena} {pq : List NodeIdx} (h : Seeded freq done ar pq)
include h

/-- A symbol not counted gets no leaf. -/
theorem Seeded.skip {a : Nat} (zero : Memory.read 0#32 freq a = 0#32) : Seeded freq (done ++ [a]) ar pq := by
  have same : countedSymbols freq (done ++ [a]) = countedSymbols freq done := by
    simp [countedSymbols, List.filter_append, zero]
  exact ⟨same ▸ h.next, same ▸ h.leaf, h.queue, h.size, h.distinct, by simp [h.sum, zero]⟩

/-- A counted symbol gets the next leaf. -/
theorem Seeded.add {a : Nat} (counted : Memory.read 0#32 freq a ≠ 0#32) (fits : ar.next.toNat < 511) :
    let got := ar.alloc (Node.leafOf (Memory.read 0#32 freq a) (BitVec.ofNat 8 a))
    Seeded freq (done ++ [a]) got.2 (got.1 :: pq) := by
  intro got
  have more : countedSymbols freq (done ++ [a]) = countedSymbols freq done ++ [a] := by
    simp [countedSymbols, List.filter_append, counted]
  have old : ∀ n ∈ pq, n.toNat < ar.next.toNat := fun n => (h.queue n).mp
  have new : nodeAt got.2.node got.1 = Node.leafOf (Memory.read 0#32 freq a) (BitVec.ofNat 8 a) :=
    nodeAt_alloc_new fits (toNat_alloc_fst fits _) _
  refine ⟨?_, ?_, ?_, ?_, nodup_cons_alloc fits _ h.distinct old, ?_⟩
  · rw [toNat_alloc_next fits, more, List.length_append, h.next]
    rfl
  · intro n b hb
    rw [more] at hb
    by_cases lt : n.toNat < ar.next.toNat
    · rw [List.getElem?_append_left (h.next ▸ lt)] at hb
      rw [nodeAt_alloc_old fits lt, h.leaf n b hb]
    · have bound := (List.getElem?_eq_some_iff.mp hb).1
      rw [List.length_append, ← h.next] at bound
      have here : n.toNat = ar.next.toNat := by
        have : n.toNat < ar.next.toNat + 1 := bound
        omega
      rw [here, h.next, List.getElem?_concat_length] at hb
      rw [nodeAt_alloc_new fits here, Option.some.inj hb]
  · intro n
    rw [List.mem_cons, h.queue n, toNat_alloc_next fits, ← BitVec.toNat_inj, toNat_alloc_fst fits]
    omega
  · rw [List.length_cons, h.size, toNat_alloc_next fits]
  · have : weightSum got.2.node (got.1 :: pq) = (Memory.read 0#32 freq a).toNat + weightSum got.2.node pq := by
      simp [weightSum, new, Node.leafOf]
    rw [this, weightSum_alloc fits _ old, h.sum]
    simp [Nat.add_comm]

end Seed

theorem length_countedSymbols_le (freq : Memory Word) (syms : List Nat) :
    (countedSymbols freq syms).length ≤ syms.length := List.length_filter_le _ _

/-- One leaf for each counted symbol of the list. -/
theorem Seeded.addLeaves {freq : Memory Word} {rest done : List Nat} {ar : Arena} {pq : List NodeIdx}
    (h : Seeded freq done ar pq) (room : done.length + rest.length ≤ 511) :
    Seeded freq (done ++ rest) (addLeaves freq rest ar pq).1 (addLeaves freq rest ar pq).2 := by
  induction rest generalizing done ar pq with
  | nil => simpa [Machine.addLeaves] using h
  | cons a rest ih =>
    have room' : (done ++ [a]).length + rest.length ≤ 511 := by
      simp only [List.length_append, List.length_cons, List.length_nil] at room ⊢
      omega
    rw [Machine.addLeaves, List.append_cons]
    dsimp only
    split
    · next zero => exact ih (h.skip zero) room'
    · next counted =>
      refine ih (h.add counted ?_) room'
      have := length_countedSymbols_le freq done
      rw [List.length_cons] at room
      rw [h.next]
      omega

theorem seeded_nil (freq : Memory Word) (m : Memory Node) : Seeded freq [] ⟨m, 0#10⟩ [] := by
  constructor <;> simp [countedSymbols, weightSum]

/-! ### The forest (R143, R144) -/

/-- Node `p.1` is one of the INTERNAL nodes made so far; the slot `p` is its child on side `p.2`. -/
def Slot (leaves next : Nat) (p : NodeIdx × Bool) : Prop := leaves ≤ p.1.toNat ∧ p.1.toNat < next

/-- The arena and the queue between two merges, over the leaves of `seed`: the queue holds the roots of a forest in which each
other node is the child of exactly one, and the weights of the roots sum to `total`. -/
structure Forest (seed : Memory Node) (leaves total : Nat) (ar : Arena) (pq : List NodeIdx) : Prop where
  kept : ∀ n : NodeIdx, n.toNat < leaves → nodeAt ar.node n = nodeAt seed n
  size : ar.next.toNat + pq.length = 2 * leaves
  grown : leaves ≤ ar.next.toNat
  nonempty : pq ≠ []
  distinct : pq.Nodup
  lt : ∀ n ∈ pq, n.toNat < ar.next.toNat
  internal : ∀ n : NodeIdx, leaves ≤ n.toNat → n.toNat < ar.next.toNat → (nodeAt ar.node n).kind = .internal
  weight : ∀ n : NodeIdx, leaves ≤ n.toNat → n.toNat < ar.next.toNat → (nodeAt ar.node n).weight.toNat =
    weightOf ar.node (nodeAt ar.node n).left + weightOf ar.node (nodeAt ar.node n).right
  below : ∀ p, Slot leaves ar.next.toNat p → (child ar.node p.1 p.2).toNat < p.1.toNat
  root : ∀ p, Slot leaves ar.next.toNat p → child ar.node p.1 p.2 ∉ pq
  covered : ∀ c : NodeIdx, c.toNat < ar.next.toNat → c ∉ pq →
    ∃ p, Slot leaves ar.next.toNat p ∧ child ar.node p.1 p.2 = c
  unique : ∀ p q, Slot leaves ar.next.toNat p → Slot leaves ar.next.toNat q →
    child ar.node p.1 p.2 = child ar.node q.1 q.2 → p = q
  total : weightSum ar.node pq = total

/-- The leaves alone are a forest. -/
theorem Seeded.forest {freq : Memory Word} {done : List Nat} {ar : Arena} {pq : List NodeIdx}
    (h : Seeded freq done ar pq) (pos : 1 ≤ ar.next.toNat) :
    Forest ar.node ar.next.toNat (done.map fun a => (Memory.read 0#32 freq a).toNat).sum ar pq where
  kept _ _ := rfl
  size := by rw [h.size]; omega
  grown := Nat.le_refl _
  nonempty e := by rw [← h.size, e] at pos; exact absurd pos (by decide)
  distinct := h.distinct
  lt n := (h.queue n).mp
  internal n hn lt := absurd lt (Nat.not_lt.mpr hn)
  weight n hn lt := absurd lt (Nat.not_lt.mpr hn)
  below p slot := absurd slot.2 (Nat.not_lt.mpr slot.1)
  root p slot := absurd slot.2 (Nat.not_lt.mpr slot.1)
  covered c lt root := absurd ((h.queue c).mpr lt) root
  unique p _ slot := absurd slot.2 (Nat.not_lt.mpr slot.1)
  total := h.sum

theorem weightOf_congr {m m' : Memory Node} {n : NodeIdx} (h : nodeAt m n = nodeAt m' n) :
    weightOf m n = weightOf m' n := by
  rw [weightOf, weightOf, h]

/-- One merge of the roots `a` and `b`: the index of their parent, and the arena with it (R143). -/
def merged (ar : Arena) (a b : NodeIdx) : NodeIdx × Arena := ar.alloc (mergeNode ar.node a b)

theorem Forest.bound {seed : Memory Node} {leaves total : Nat} {ar : Arena} {pq : List NodeIdx}
    (h : Forest seed leaves total ar pq) (few : leaves ≤ 256) : ar.next.toNat ≤ 511 := by
  have := h.size
  have := List.length_pos_iff.mpr h.nonempty
  omega

section Merge
variable {seed : Memory Node} {leaves total : Nat} {ar : Arena} {pq rest : List NodeIdx} {a b : NodeIdx}
  (h : Forest seed leaves total ar pq) (popped : pq.Perm (a :: b :: rest))
include h popped

/-- The parts of a queue from which two roots were popped. -/
theorem Forest.popped_lt : a.toNat < ar.next.toNat ∧ b.toNat < ar.next.toNat ∧ ∀ n ∈ rest, n.toNat < ar.next.toNat :=
  ⟨h.lt a (popped.mem_iff.mpr (by simp)), h.lt b (popped.mem_iff.mpr (by simp)),
    fun n hn => h.lt n (popped.mem_iff.mpr (by simp [hn]))⟩

theorem Forest.popped_distinct : a ≠ b ∧ a ∉ rest ∧ b ∉ rest ∧ rest.Nodup := by
  obtain ⟨ha, hd⟩ := List.nodup_cons.mp (popped.nodup_iff.mp h.distinct)
  obtain ⟨hb, hd⟩ := List.nodup_cons.mp hd
  obtain ⟨hab, har⟩ := not_or.mp (mt List.mem_cons.mpr ha)
  exact ⟨hab, har, hb, hd⟩

theorem Forest.popped_size : ar.next.toNat + rest.length + 2 = 2 * leaves := by
  have := h.size
  rw [popped.length_eq] at this
  simpa [Nat.add_assoc] using this

/-- No old node has a popped root as its child. -/
theorem Forest.popped_root {p : NodeIdx × Bool} (slot : Slot leaves ar.next.toNat p) (side : Bool) :
    child ar.node p.1 p.2 ≠ if side then b else a := fun e =>
  h.root p slot (popped.mem_iff.mpr (by cases side <;> simp [e]))

theorem Forest.popped_sum :
    (nodeAt ar.node a).weight.toNat + ((nodeAt ar.node b).weight.toNat + weightSum ar.node rest) = total := by
  rw [← h.total, weightSum, weightSum, (popped.map _).sum_eq, List.map_cons, List.map_cons, List.sum_cons, List.sum_cons]

variable (few : leaves ≤ 256)
include few

theorem Forest.fits : ar.next.toNat < 511 := by
  have := h.popped_size popped
  omega

theorem Forest.merged_next : (merged ar a b).2.next.toNat = ar.next.toNat + 1 := toNat_alloc_next (h.fits popped few) _

theorem Forest.merged_fst : (merged ar a b).1.toNat = ar.next.toNat := toNat_alloc_fst (h.fits popped few) _

theorem Forest.merged_new : nodeAt (merged ar a b).2.node (merged ar a b).1 = mergeNode ar.node a b :=
  nodeAt_alloc_new (h.fits popped few) (h.merged_fst popped few) _

theorem Forest.merged_old {n : NodeIdx} (hn : n.toNat < ar.next.toNat) :
    nodeAt (merged ar a b).2.node n = nodeAt ar.node n := nodeAt_alloc_old (h.fits popped few) hn _

theorem Forest.merged_child (side : Bool) :
    child (merged ar a b).2.node (merged ar a b).1 side = if side then b else a :=
  child_of_internalOf (h.merged_new popped few) side

/-- A node after the merge is one from before or the new one. -/
theorem Forest.merged_lt {n : NodeIdx} (lt : n.toNat < (merged ar a b).2.next.toNat) :
    n.toNat < ar.next.toNat ∨ n = (merged ar a b).1 := by
  rw [h.merged_next popped few] at lt
  by_cases old : n.toNat < ar.next.toNat
  · exact .inl old
  · refine .inr (BitVec.eq_of_toNat_eq ?_)
    rw [h.merged_fst popped few]
    omega

/-- A slot after the merge is an old one with the child it had, or one of the two new ones. -/
theorem Forest.merged_slot {p : NodeIdx × Bool} (slot : Slot leaves (merged ar a b).2.next.toNat p) :
    (Slot leaves ar.next.toNat p ∧ child (merged ar a b).2.node p.1 p.2 = child ar.node p.1 p.2) ∨
      (p.1 = (merged ar a b).1 ∧ child (merged ar a b).2.node p.1 p.2 = if p.2 then b else a) := by
  obtain lt | e := h.merged_lt popped few slot.2
  · exact .inl ⟨⟨slot.1, lt⟩, child_congr (h.merged_old popped few lt) _⟩
  · exact .inr ⟨e, by rw [e]; exact h.merged_child popped few p.2⟩

theorem Forest.merged_slot_old {p : NodeIdx × Bool} (slot : Slot leaves ar.next.toNat p) :
    Slot leaves (merged ar a b).2.next.toNat p :=
  ⟨slot.1, by rw [h.merged_next popped few]; exact Nat.lt_succ_of_lt slot.2⟩

theorem Forest.merged_slot_new (side : Bool) : Slot leaves (merged ar a b).2.next.toNat ((merged ar a b).1, side) :=
  ⟨(h.merged_fst popped few).symm ▸ h.grown, by
    rw [h.merged_next popped few, h.merged_fst popped few]
    exact Nat.lt_succ_self _⟩

theorem Forest.merged_below {p : NodeIdx × Bool} (slot : Slot leaves (merged ar a b).2.next.toNat p) :
    (child (merged ar a b).2.node p.1 p.2).toNat < p.1.toNat := by
  obtain ⟨ha, hb, -⟩ := h.popped_lt popped
  obtain ⟨slot, e⟩ | ⟨e, e'⟩ := h.merged_slot popped few slot
  · rw [e]; exact h.below p slot
  · rw [e', e, h.merged_fst popped few]; split <;> assumption

theorem Forest.merged_root {p : NodeIdx × Bool} (slot : Slot leaves (merged ar a b).2.next.toNat p) :
    child (merged ar a b).2.node p.1 p.2 ∉ (merged ar a b).1 :: rest := by
  have new := h.merged_fst popped few
  have below := h.merged_below popped few slot
  have last := slot.2
  rw [h.merged_next popped few] at last
  rw [List.mem_cons, not_or]
  constructor
  · intro e
    rw [e] at below
    omega
  · obtain ⟨-, har, hbr, -⟩ := h.popped_distinct popped
    obtain ⟨slot, e⟩ | ⟨-, e⟩ := h.merged_slot popped few slot <;> rw [e]
    · exact fun mem => h.root p slot (popped.mem_iff.mpr (by simp [mem]))
    · split <;> assumption

theorem Forest.merged_covered {c : NodeIdx} (lt : c.toNat < (merged ar a b).2.next.toNat)
    (hc : c ∉ (merged ar a b).1 :: rest) :
    ∃ p, Slot leaves (merged ar a b).2.next.toNat p ∧ child (merged ar a b).2.node p.1 p.2 = c := by
  obtain ⟨notNew, notRest⟩ := not_or.mp (mt List.mem_cons.mpr hc)
  by_cases hca : c = a
  · exact ⟨(_, false), h.merged_slot_new popped few false, by rw [h.merged_child popped few, hca]; rfl⟩
  by_cases hcb : c = b
  · exact ⟨(_, true), h.merged_slot_new popped few true, by rw [h.merged_child popped few, hcb]; rfl⟩
  have old := (h.merged_lt popped few lt).resolve_right notNew
  obtain ⟨p, slot, e⟩ := h.covered c old (by simp [popped.mem_iff, hca, hcb, notRest])
  exact ⟨p, h.merged_slot_old popped few slot, (child_congr (h.merged_old popped few slot.2) _).trans e⟩

theorem Forest.merged_unique {p q : NodeIdx × Bool} (hp : Slot leaves (merged ar a b).2.next.toNat p)
    (hq : Slot leaves (merged ar a b).2.next.toNat q)
    (e : child (merged ar a b).2.node p.1 p.2 = child (merged ar a b).2.node q.1 q.2) : p = q := by
  obtain ⟨sp, ep⟩ | ⟨np, ep⟩ := h.merged_slot popped few hp <;>
    obtain ⟨sq, eq⟩ | ⟨nq, eq⟩ := h.merged_slot popped few hq <;> rw [ep, eq] at e
  · exact h.unique p q sp sq e
  · exact absurd e (h.popped_root popped sp _)
  · exact absurd e.symm (h.popped_root popped sq _)
  · have ne := (h.popped_distinct popped).1
    refine Prod.ext (np.trans nq.symm) ?_
    cases hp2 : p.2 <;> cases hq2 : q.2 <;> simp [hp2, hq2, ne, ne.symm] at e ⊢

variable (noWrap : total < 2 ^ 32)
include noWrap

/-- The weight of the new node does not wrap (R143, 41_frequency.md R121). -/
theorem Forest.merged_newWeight : (nodeAt (merged ar a b).2.node (merged ar a b).1).weight.toNat =
    (nodeAt ar.node a).weight.toNat + (nodeAt ar.node b).weight.toNat := by
  have := h.popped_sum popped
  rw [h.merged_new popped few]
  show ((nodeAt ar.node a).weight + (nodeAt ar.node b).weight).toNat = _
  rw [BitVec.toNat_add, Nat.mod_eq_of_lt (by omega)]

theorem Forest.merged_weight {n : NodeIdx} (hn : leaves ≤ n.toNat) (lt : n.toNat < (merged ar a b).2.next.toNat) :
    (nodeAt (merged ar a b).2.node n).weight.toNat =
      weightOf (merged ar a b).2.node (nodeAt (merged ar a b).2.node n).left +
        weightOf (merged ar a b).2.node (nodeAt (merged ar a b).2.node n).right := by
  have old {c : NodeIdx} (hc : c.toNat < ar.next.toNat) : weightOf (merged ar a b).2.node c = weightOf ar.node c :=
    weightOf_congr (h.merged_old popped few hc)
  have exactly {c : NodeIdx} (hc : c.toNat < ar.next.toNat) : weightOf ar.node c = (nodeAt ar.node c).weight.toNat :=
    if_neg (ne_NULL_of_lt (Nat.lt_trans hc (h.fits popped few)))
  obtain ⟨ha, hb, -⟩ := h.popped_lt popped
  obtain lt | rfl := h.merged_lt popped few lt
  · have left := Nat.lt_trans (h.below (n, false) ⟨hn, lt⟩) lt
    have right := Nat.lt_trans (h.below (n, true) ⟨hn, lt⟩) lt
    rw [h.merged_old popped few lt, h.weight n hn lt]
    exact congrArg₂ (· + ·) (old left).symm (old right).symm
  · rw [h.merged_newWeight popped few noWrap, ← exactly ha, ← exactly hb, ← old ha, ← old hb, h.merged_new popped few]
    rfl

theorem Forest.merged_total : weightSum (merged ar a b).2.node ((merged ar a b).1 :: rest) = total := by
  have sum := h.popped_sum popped
  have new := h.merged_newWeight popped few noWrap
  have old : weightSum (merged ar a b).2.node rest = weightSum ar.node rest :=
    weightSum_alloc (h.fits popped few) _ (h.popped_lt popped).2.2
  unfold weightSum at *
  rw [List.map_cons, List.sum_cons, new, old]
  omega

/-- One merge (R143): two roots become the children of the next node, which takes their place in the queue. -/
theorem Forest.merge : Forest seed leaves total (merged ar a b).2 ((merged ar a b).1 :: rest) where
  kept n hn := by rw [h.merged_old popped few (Nat.lt_of_lt_of_le hn h.grown), h.kept n hn]
  size := by
    have := h.popped_size popped
    rw [h.merged_next popped few, List.length_cons]
    omega
  grown := by rw [h.merged_next popped few]; exact Nat.le_succ_of_le h.grown
  nonempty := List.cons_ne_nil _ _
  distinct := nodup_cons_alloc (h.fits popped few) _ (h.popped_distinct popped).2.2.2 (h.popped_lt popped).2.2
  lt n hn := by
    rw [h.merged_next popped few]
    obtain rfl | hn := List.mem_cons.mp hn
    · rw [h.merged_fst popped few]; exact Nat.lt_succ_self _
    · exact Nat.lt_succ_of_lt ((h.popped_lt popped).2.2 n hn)
  internal n hn lt := by
    obtain lt | rfl := h.merged_lt popped few lt
    · rw [h.merged_old popped few lt, h.internal n hn lt]
    · rw [h.merged_new popped few]; rfl
  weight n hn lt := h.merged_weight popped few noWrap hn lt
  below p := h.merged_below popped few
  root p := h.merged_root popped few
  covered c := h.merged_covered popped few
  unique p q := h.merged_unique popped few
  total := h.merged_total popped few noWrap

end Merge

/-- The merge loop joins a forest into one tree (R143). -/
theorem Forest.mergeLoop {seed : Memory Node} {leaves total : Nat} (few : leaves ≤ 256) (noWrap : total < 2 ^ 32)
    {rounds : Nat} {ar : Arena} {pq : List NodeIdx} (h : Forest seed leaves total ar pq) (enough : pq.length ≤ rounds) :
    Forest seed leaves total (mergeLoop rounds ar pq).2 [(mergeLoop rounds ar pq).1] := by
  induction rounds generalizing ar pq with
  | zero => exact absurd (List.length_eq_zero_iff.mp (Nat.le_zero.mp enough)) h.nonempty
  | succ rounds ih =>
    rw [Machine.mergeLoop]
    split
    · next none => exact absurd (popMin_eq_none none) h.nonempty
    · next a pq₁ first =>
      have popped := popMin_perm first
      split
      · next none =>
        rw [popMin_eq_none none, List.perm_singleton] at popped
        exact popped ▸ h
      · next b pq₂ second =>
        have popped := popped.trans ((popMin_perm second).cons a)
        refine ih (h.merge popped few noWrap) ?_
        have := popped.length_eq
        simp only [List.length_cons] at this ⊢
        omega

/-! ### The tree (R145, R146) -/

/-- What a list of symbols below NSYM reads of FREQ. -/
theorem freqAt_ofNat (s : State) {a : Nat} (h : a < Config.nsym) :
    s.freqAt (BitVec.ofNat 8 a) = Memory.read 0#32 s.freq a := by
  rw [State.freqAt, BitVec.toNat_ofNat, Nat.mod_eq_of_lt h]

section Leaves
variable {t : State} {seed : Arena} {pq : List NodeIdx} (seeded : Seeded t.freq (List.range Config.nsym) seed pq)
  (kept : ∀ n : NodeIdx, n.toNat < seed.next.toNat → nodeAt t.node n = nodeAt seed.node n)
include seeded kept

/-- The leaf at index `n` is that of the n-th counted symbol. -/
theorem Seeded.leafAt {n : NodeIdx} (hn : n.toNat < seed.next.toNat) : ∃ a,
    (countedSymbols t.freq (List.range Config.nsym))[n.toNat]? = some a ∧ a < Config.nsym ∧
      t.freqAt (BitVec.ofNat 8 a) ≠ 0#32 ∧
      nodeAt t.node n = Node.leafOf (t.freqAt (BitVec.ofNat 8 a)) (BitVec.ofNat 8 a) := by
  have lt := seeded.next ▸ hn
  refine ⟨_, List.getElem?_eq_getElem lt, ?_⟩
  obtain ⟨mem, counted⟩ := List.mem_filter.mp (List.getElem_mem lt)
  have small := List.mem_range.mp mem
  rw [freqAt_ofNat t small, kept n hn]
  exact ⟨small, of_decide_eq_true counted, seeded.leaf n _ (List.getElem?_eq_getElem lt)⟩

theorem Seeded.leaf_isCounted {n : NodeIdx} (hn : n.toNat < seed.next.toNat) :
    nodeAt t.node n = Node.leafOf (t.freqAt (nodeAt t.node n).sym) (nodeAt t.node n).sym ∧
      t.freqAt (nodeAt t.node n).sym ≠ 0#32 := by
  obtain ⟨a, -, -, counted, e⟩ := seeded.leafAt kept hn
  rw [e]
  exact ⟨rfl, counted⟩

/-- The leaves stand in ascending order of their symbols. -/
theorem Seeded.leaves_ascend {n n' : NodeIdx} (lt : n.toNat < n'.toNat) (hn' : n'.toNat < seed.next.toNat) :
    (nodeAt t.node n).sym < (nodeAt t.node n').sym := by
  obtain ⟨a, ha, small, -, e⟩ := seeded.leafAt kept (Nat.lt_trans lt hn')
  obtain ⟨a', ha', small', -, e'⟩ := seeded.leafAt kept hn'
  have rising : (countedSymbols t.freq (List.range Config.nsym)).Pairwise (· < ·) := List.pairwise_lt_range.filter _
  obtain ⟨i, rfl⟩ := List.getElem?_eq_some_iff.mp ha
  obtain ⟨i', rfl⟩ := List.getElem?_eq_some_iff.mp ha'
  rw [e, e', BitVec.lt_def]
  simp only [Node.leafOf, BitVec.toNat_ofNat, Nat.mod_eq_of_lt small, Nat.mod_eq_of_lt small']
  exact List.pairwise_iff_getElem.mp rising _ _ i i' lt

/-- Every counted symbol has its leaf. -/
theorem Seeded.counted_hasLeaf (few : seed.next.toNat ≤ 256) {sym : Symbol} (counted : t.freqAt sym ≠ 0#32) :
    ∃ n : NodeIdx, n.toNat < seed.next.toNat ∧ (nodeAt t.node n).sym = sym := by
  have mem : sym.toNat ∈ countedSymbols t.freq (List.range Config.nsym) :=
    List.mem_filter.mpr ⟨toNat_mem_range sym, decide_eq_true counted⟩
  obtain ⟨i, lt, e⟩ := List.getElem_of_mem mem
  have hi : (BitVec.ofNat 9 i).toNat = i := Nat.mod_eq_of_lt (by have := seeded.next; omega)
  have hn : (BitVec.ofNat 9 i).toNat < seed.next.toNat := by rw [hi, seeded.next]; exact lt
  obtain ⟨a, ha, -, -, node⟩ := seeded.leafAt kept hn
  rw [hi, List.getElem?_eq_getElem lt, e] at ha
  cases ha
  exact ⟨_, hn, by rw [node]; simp [Node.leafOf]⟩

end Leaves

/-- A forest of one tree over two or more leaves is the tree of R146. -/
theorem builtTree_of_forest {t : State} {seed : Arena} {pq : List NodeIdx} {total : Nat}
    (seeded : Seeded t.freq (List.range Config.nsym) seed pq)
    (forest : Forest seed.node seed.next.toNat total t.arena [t.root]) (ndist : t.ndist.toNat = seed.next.toNat)
    (few : seed.next.toNat ≤ 256) (two : t.ndist ≠ 1#9) : BuiltTree t := by
  have size : t.next.toNat + 1 = 2 * seed.next.toNat := forest.size
  have bound : t.next.toNat ≤ 511 := forest.bound few
  have rootLt : t.root.toNat < t.next.toNat := forest.lt _ List.mem_cons_self
  have two' : t.ndist.toNat ≠ 1 := fun e => two (BitVec.eq_of_toNat_eq e)
  /- The node made last is no node's child, so it is the root. -/
  have rootLast : t.root.toNat + 1 = t.next.toNat := by
    by_contra later
    have last : (BitVec.ofNat 9 (t.next.toNat - 1)).toNat = t.next.toNat - 1 := Nat.mod_eq_of_lt (by omega)
    obtain ⟨p, slot, e⟩ := forest.covered (BitVec.ofNat 9 (t.next.toNat - 1)) (by rw [last, arena_next]; omega) (by
      rw [List.mem_singleton, ← BitVec.toNat_inj, last]
      omega)
    have below := forest.below p slot
    have := slot.2
    rw [e, last] at below
    rw [arena_next] at this
    omega
  have below (n : NodeIdx) (b : Bool) (hn : t.ndist.toNat ≤ n.toNat) (lt : n.toNat < t.next.toNat) :
      (child t.node n b).toNat < n.toNat := forest.below (n, b) ⟨ndist ▸ hn, lt⟩
  exact {
    size := ⟨by rw [if_neg two]; omega, rootLast⟩
    leaf := fun n hn => seeded.leaf_isCounted forest.kept (ndist ▸ hn)
    ascending := fun n n' lt hn' => seeded.leaves_ascend forest.kept lt (ndist ▸ hn')
    counted := fun sym counted => ndist ▸ seeded.counted_hasLeaf forest.kept few counted
    internal := fun n hn => forest.internal n (ndist ▸ hn)
    weight := fun n hn => forest.weight n (ndist ▸ hn)
    strict := fun n b hn lt => iff_of_false (ne_NULL_of_lt (by have := below n b hn lt; omega)) fun one => two one.1
    below := fun n b hn lt _ => below n b hn lt
    parent := fun c lt => by
      obtain ⟨p, slot, e⟩ := forest.covered c (by rw [arena_next]; omega) (by
        rw [List.mem_singleton, ← BitVec.toNat_inj]
        omega)
      rw [ndist]
      exact ⟨p, ⟨slot.1, slot.2, e⟩, fun q ⟨hq, hq', e'⟩ => forest.unique q p ⟨hq, hq'⟩ slot (e'.trans e.symm)⟩ }

section Single
variable {t : State} {seed : Arena} {pq : List NodeIdx} (tree : (t.root, t.arena) = singleRoot seed)
  (one : seed.next.toNat = 1)
include tree one

/-- The tree of one symbol (R145): an INTERNAL root at index 1 over the leaf at index 0. -/
theorem singleRoot_spec : t.root.toNat = 1 ∧ t.next.toNat = 2 ∧
    nodeAt t.node t.root = Node.internalOf (nodeAt seed.node 0#9).weight 0#9 NULL ∧
    ∀ n : NodeIdx, n.toNat < 1 → nodeAt t.node n = nodeAt seed.node n := by
  have fits : seed.next.toNat < 511 := by omega
  have root : t.root = (singleRoot seed).1 := congrArg Prod.fst tree
  have arena : t.arena = (singleRoot seed).2 := congrArg Prod.snd tree
  have node : t.node = (singleRoot seed).2.node := congrArg Arena.node arena
  have next : t.next = (singleRoot seed).2.next := congrArg Arena.next arena
  have hroot : t.root.toNat = seed.next.toNat := by rw [root, singleRoot, toNat_alloc_fst fits]
  refine ⟨hroot.trans one, ?_, ?_, fun n hn => ?_⟩
  · rw [next, singleRoot, toNat_alloc_next fits, one]
  · rw [node]; exact nodeAt_alloc_new fits hroot _
  · rw [node]; exact nodeAt_alloc_old fits (one ▸ hn) _

variable (seeded : Seeded t.freq (List.range Config.nsym) seed pq)
include seeded

theorem builtTree_of_singleRoot (ndist : t.ndist = 1#9) : BuiltTree t := by
  obtain ⟨hroot, hnext, root, kept⟩ := singleRoot_spec tree one
  rw [← one] at kept
  have hd : t.ndist.toNat = seed.next.toNat := by rw [ndist, one]; rfl
  have only {n : NodeIdx} (hn : t.ndist.toNat ≤ n.toNat) (lt : n.toNat < t.next.toNat) : n = t.root :=
    BitVec.eq_of_toNat_eq (by omega)
  have children (b : Bool) : child t.node t.root b = if b then NULL else 0#9 := child_of_internalOf root b
  exact {
    size := ⟨by rw [if_pos ndist, hnext], by omega⟩
    leaf := fun n hn => seeded.leaf_isCounted kept (hd ▸ hn)
    ascending := fun n n' lt hn' => seeded.leaves_ascend kept lt (hd ▸ hn')
    counted := fun sym counted => hd ▸ seeded.counted_hasLeaf kept (by omega) counted
    internal := fun n hn lt => by
      rw [only hn lt, root]
      rfl
    weight := fun n hn lt => by
      rw [only hn lt, root]
      show (nodeAt seed.node 0#9).weight.toNat = weightOf t.node 0#9 + weightOf t.node NULL
      rw [weightOf, weightOf, if_neg (by decide), if_pos rfl, kept 0#9 (by rw [one]; decide), Nat.add_zero]
    strict := fun n b hn lt => by
      rw [only hn lt, children]
      cases b
      · exact iff_of_false (by decide) (by simp)
      · exact iff_of_true rfl ⟨ndist, rfl⟩
    below := fun n b hn lt there => by
      rw [only hn lt, children] at there ⊢
      rw [hroot]
      cases b
      · decide
      · exact absurd rfl there
    parent := fun c lt => by
      have hc : c = 0#9 := BitVec.eq_of_toNat_eq (by rw [hroot] at lt; exact Nat.lt_one_iff.mp lt)
      refine ⟨(t.root, false), ⟨?_, ?_, by rw [children, hc]; rfl⟩, ?_⟩
      · show t.ndist.toNat ≤ t.root.toNat; omega
      · show t.root.toNat < t.next.toNat; omega
      · rintro ⟨n, b⟩ ⟨hn, lt, e⟩
        cases only hn lt
        cases b
        · rfl
        · have e : NULL = c := (children true).symm.trans e
          exact absurd (e.trans hc) (by decide) }

theorem weight_of_singleRoot : (nodeAt t.node t.root).weight.toNat = t.freqSum := by
  obtain ⟨-, -, root, -⟩ := singleRoot_spec tree one
  obtain ⟨n, rfl⟩ := List.length_eq_one_iff.mp (seeded.size.trans one)
  have hn : n = 0#9 := BitVec.eq_of_toNat_eq (by
    have := (seeded.queue n).mp List.mem_cons_self
    rw [one] at this
    exact Nat.lt_one_iff.mp this)
  rw [root, ← show weightSum seed.node [n] = t.freqSum from seeded.sum, hn]
  simp [weightSum, Node.internalOf]

end Single

/-- BUILD of a counted frequency table makes the tree of R146, whose root weighs TOTAL. -/
theorem Counted.builtTree {s : State} (h : Counted s) (next : s.next = 0#10) (pos : 1 ≤ s.ndist.toNat) :
    BuiltTree s.built ∧ (nodeAt s.built.node s.built.root).weight = s.total := by
  let leaves := addLeaves s.freq (List.range Config.nsym) s.arena []
  have seeded : Seeded s.freq (List.range Config.nsym) leaves.1 leaves.2 := by
    have nothing : Seeded s.freq [] s.arena [] := by
      have := seeded_nil s.freq s.node
      rwa [← next] at this
    simpa using nothing.addLeaves (rest := List.range Config.nsym) (by rw [List.length_range]; decide)
  have ndist : s.ndist.toNat = leaves.1.next.toNat := h.ndist.trans seeded.next.symm
  have few := ndist ▸ h.ndist_le
  by_cases one : s.ndist = 1#9
  · have one' : leaves.1.next.toNat = 1 := by rw [← ndist, one]; rfl
    have tree : (s.built.root, s.built.arena) = singleRoot leaves.1 := by
      show buildTree s = _
      exact if_pos one
    refine ⟨builtTree_of_singleRoot tree one' seeded one, BitVec.eq_of_toNat_eq ?_⟩
    rw [weight_of_singleRoot tree one' seeded, h.total]
    rfl
  · have noWrap : s.freqSum < 2 ^ 32 := h.total ▸ s.total.isLt
    have forest : Forest leaves.1.node leaves.1.next.toNat s.freqSum s.built.arena [s.built.root] := by
      have tree : (s.built.root, s.built.arena) = mergeLoop leaves.2.length leaves.1 leaves.2 := by
        show buildTree s = _
        exact if_neg one
      obtain ⟨hroot, harena⟩ := Prod.mk.inj tree
      rw [hroot, harena]
      exact (seeded.forest (ndist ▸ pos)).mergeLoop few noWrap (Nat.le_refl _)
    refine ⟨builtTree_of_forest seeded forest ndist few one, BitVec.eq_of_toNat_eq ?_⟩
    have := forest.total
    rw [h.total, ← this]
    simp [weightSum]

end Sys2Proof.Machine
end

section
/-! SUPPORT. GEN (43_code_table.md R160, R162, R164): the paths of BUILD's tree, and the code table Visit writes. -/

namespace Sys2Proof.Machine

/-! ### Paths in the tree BUILD makes (42_tree_builder.md R146) -/

section Paths
variable {s : State} (h : BuiltTree s)
include h

theorem BuiltTree.kind_of_lt {n : NodeIdx} (hn : n.toNat < s.ndist.toNat) : (nodeAt s.node n).kind = .leaf := by
  rw [(h.leaf n hn).1]
  rfl

theorem BuiltTree.le_of_internal {n : NodeIdx} (hk : (nodeAt s.node n).kind = .internal) : s.ndist.toNat ≤ n.toNat := by
  by_contra lt
  rw [h.kind_of_lt (Nat.lt_of_not_le lt)] at hk
  cases hk

/-- Each step of a path leads to a lower index, so a path is no longer than there are INTERNAL nodes at or below its start. -/
theorem BuiltTree.follow_below {n n' : NodeIdx} {p : List Bool} (hn : n.toNat < s.next.toNat)
    (hp : follow s.node n p = some n') : n'.toNat + p.length ≤ n.toNat ∧ p.length ≤ n.toNat + 1 - s.ndist.toNat := by
  induction p generalizing n with
  | nil => rw [follow_nil_iff.mp hp]; simp
  | cons b rest ih =>
    obtain ⟨hk, hc, hp⟩ := follow_cons_iff.mp hp
    have le := h.le_of_internal hk
    have below := h.below n b le hn hc
    have ih := ih (by omega) hp
    rw [List.length_cons]
    omega

theorem BuiltTree.root_lt : s.root.toNat < s.next.toNat := by
  have := h.size.2
  omega

/-- One path leads from the root to each node (R146 (c)). -/
theorem BuiltTree.path_unique {c : NodeIdx} {p q : List Bool} (hp : follow s.node s.root p = some c)
    (hq : follow s.node s.root q = some c) : p = q := by
  induction p using List.reverseRecOn generalizing q c with
  | nil =>
    have := (h.follow_below h.root_lt hq).1
    rw [follow_nil_iff.mp hp] at this
    exact (List.length_eq_zero_iff.mp (by omega)).symm
  | append_singleton p b ih =>
    obtain ⟨x, hx, hxk, hxc, hc⟩ := follow_snoc_iff.mp hp
    have lt := (h.follow_below h.root_lt hp).1
    rw [List.length_append, List.length_singleton] at lt
    rcases List.eq_nil_or_concat q with rfl | ⟨q, b', rfl⟩
    · rw [← follow_nil_iff.mp hq] at lt
      omega
    · rw [List.concat_eq_append] at hq ⊢
      obtain ⟨y, hy, hyk, hyc, -⟩ := follow_snoc_iff.mp hq
      have slot {z : NodeIdx} {p : List Bool} (hz : follow s.node s.root p = some z) : z.toNat < s.next.toNat := by
        have := (h.follow_below h.root_lt hz).1
        have := h.root_lt
        omega
      obtain ⟨_, -, only⟩ := h.parent c (by omega)
      have e : (x, b) = (y, b') :=
        (only (x, b) ⟨h.le_of_internal hxk, slot hx, hxc⟩).trans (only (y, b') ⟨h.le_of_internal hyk, slot hy, hyc⟩).symm
      obtain ⟨rfl, rfl⟩ := Prod.mk.inj e
      rw [ih hx hy]

/-- A path leads from the root to each node. -/
theorem BuiltTree.reachable (c : NodeIdx) (hc : c.toNat ≤ s.root.toNat) : ∃ p, follow s.node s.root p = some c := by
  by_cases e : c = s.root
  · exact ⟨[], follow_nil_iff.mpr e.symm⟩
  · have lt : c.toNat < s.root.toNat := Nat.lt_of_le_of_ne hc fun h => e (BitVec.eq_of_toNat_eq h)
    obtain ⟨⟨x, b⟩, ⟨hx, hx', e⟩, -⟩ := h.parent c lt
    have hnull : child s.node x b ≠ NULL := e ▸ ne_NULL_of_lt (by have := s.root.isLt; omega)
    have lower : c.toNat < x.toNat := e ▸ h.below x b hx hx' hnull
    have top : x.toNat ≤ s.root.toNat := by
      have := h.size.2
      change x.toNat < s.next.toNat at hx'
      omega
    obtain ⟨p, hp⟩ := BuiltTree.reachable x top
    exact ⟨p ++ [b], follow_snoc_iff.mpr ⟨x, hp, h.internal x hx hx', e, e ▸ hnull⟩⟩
termination_by s.root.toNat - c.toNat
decreasing_by omega

/-- Every node has a leaf below it. -/
theorem BuiltTree.leaf_below (n : NodeIdx) (hn : n.toNat < s.next.toNat) :
    ∃ p n', follow s.node n p = some n' ∧ (nodeAt s.node n').kind = .leaf := by
  by_cases hk : (nodeAt s.node n).kind = .leaf
  · exact ⟨[], n, follow_nil_iff.mpr rfl, hk⟩
  · have hk := kind_ne_leaf.mp hk
    have le := h.le_of_internal hk
    have hc : child s.node n false ≠ NULL := fun e => absurd ((h.strict n false le hn).mp e).2 (by decide)
    have below := h.below n false le hn hc
    obtain ⟨p, n', hp, leaf⟩ := BuiltTree.leaf_below (child s.node n false) (by omega)
    exact ⟨false :: p, n', follow_cons_iff.mpr ⟨hk, hc, hp⟩, leaf⟩
termination_by n.toNat

/-- The size of the tree: the root lies above the leaves, and at most N − 1 INTERNAL nodes, or one, are there (R146 (a)). -/
theorem BuiltTree.size_bounds (pos : 1 ≤ s.ndist.toNat) (few : s.ndist.toNat ≤ 256) :
    s.next.toNat ≤ Config.nnode ∧ s.ndist.toNat ≤ s.root.toNat ∧ s.root.toNat + 1 ≤ s.ndist.toNat + Config.maxLen := by
  obtain ⟨size, root⟩ := h.size
  show s.next.toNat ≤ 511 ∧ s.ndist.toNat ≤ s.root.toNat ∧ s.root.toNat + 1 ≤ s.ndist.toNat + 255
  split at size
  · next e =>
    have : s.ndist.toNat = 1 := by rw [e]; rfl
    omega
  · next e =>
    have : s.ndist.toNat ≠ 1 := fun e' => e (BitVec.eq_of_toNat_eq e')
    omega

/-- A walk can stand at any INTERNAL node of BUILD's tree. -/
theorem BuiltTree.walkable (pos : 1 ≤ s.ndist.toNat) (few : s.ndist.toNat ≤ 256)
    (hc : s.cursor.toNat < s.next.toNat ∧ (nodeAt s.node s.cursor).kind = .internal) : WalkableTree s := by
  obtain ⟨bound, le, -⟩ := h.size_bounds pos few
  refine ⟨bound, ⟨h.root_lt, h.internal _ le h.root_lt⟩, hc, fun n b lt hk there => ?_⟩
  exact Nat.lt_trans (h.below n b (h.le_of_internal hk) lt there) lt

end Paths

/-! ### The code table Visit writes (43_code_table.md R160) -/

/-- CVALID[sym] of a code table. -/
def CodeTable.valid (t : CodeTable) (sym : Symbol) : Bool := Memory.read false t.cvalid sym.toNat

/-- The code of `sym` in a code table, first bit first. -/
def CodeTable.code (t : CodeTable) (sym : Symbol) : List Bool :=
  codeBits (Memory.read 0#255 t.cval sym.toNat) (Memory.read 0#8 t.clen sym.toNat).toNat

/-- The entry of `sym` is the same in both tables. -/
def CodeTable.Agree (t t' : CodeTable) (sym : Symbol) : Prop := t'.valid sym = t.valid sym ∧ t'.code sym = t.code sym

theorem CodeTable.assign_agree (t : CodeTable) {sym other : Symbol} (ne : other ≠ sym) (len : BitVec 8) (v : CodeVal) :
    t.Agree (t.assign sym len v) other := by
  have ne : other.toNat ≠ sym.toNat := fun e => ne (BitVec.eq_of_toNat_eq e)
  simp only [Agree, valid, code, assign, Memory.read_write_other _ _ _ ne, and_self]

@[simp] theorem CodeTable.assign_valid (t : CodeTable) (sym : Symbol) (len : BitVec 8) (v : CodeVal) :
    (t.assign sym len v).valid sym = true := by
  simp only [valid, assign, Memory.read_write_same]

@[simp] theorem CodeTable.assign_code (t : CodeTable) (sym : Symbol) (len : BitVec 8) (v : CodeVal) :
    (t.assign sym len v).code sym = codeBits v len.toNat := by
  simp only [code, assign, Memory.read_write_same]

/-- Path `p` leads from node `n` to a LEAF of `sym`. -/
def LeadsTo (m : Memory Node) (n : NodeIdx) (p : List Bool) (sym : Symbol) : Prop :=
  ∃ n', follow m n p = some n' ∧ (nodeAt m n').kind = .leaf ∧ (nodeAt m n').sym = sym

/-- From `t` to `t'` the symbols of the leaves that `P` reaches got their codes, `pre` and then the path, and every other
entry stays. -/
def Coded (P : List Bool → Symbol → Prop) (pre : List Bool) (t t' : CodeTable) : Prop :=
  ∀ sym, ((∀ p, ¬ P p sym) ∧ t.Agree t' sym) ∨ ∃ p, P p sym ∧ t'.valid sym = true ∧ t'.code sym = pre ++ p

/-- A path from an INTERNAL node to a leaf begins on one side. -/
theorem leadsTo_of_internal {m : Memory Node} {n : NodeIdx} (hk : (nodeAt m n).kind = .internal) (p : List Bool)
    (sym : Symbol) : LeadsTo m n p sym ↔
      ∃ b rest, p = b :: rest ∧ child m n b ≠ NULL ∧ LeadsTo m (child m n b) rest sym := by
  constructor
  · rintro ⟨n', hp, leaf, e⟩
    cases p with
    | nil =>
      rw [← follow_nil_iff.mp hp, hk] at leaf
      cases leaf
    | cons b rest =>
      obtain ⟨-, hc, hp⟩ := follow_cons_iff.mp hp
      exact ⟨b, rest, rfl, hc, n', hp, leaf, e⟩
  · rintro ⟨b, rest, rfl, hc, n', hp, leaf, e⟩
    exact ⟨n', follow_cons_iff.mpr ⟨hk, hc, hp⟩, leaf, e⟩

/-- Visit's recursion on one side of a node, skipped where there is no child. -/
def visitSide (m : Memory Node) (depth : Nat) (n : NodeIdx) (b : Bool) (v : CodeVal) (l : Nat) (t : CodeTable) : CodeTable :=
  if child m n b = NULL then t else visit m depth (child m n b) (if b then 2 * v + 1 else 2 * v) (l + 1) t

theorem visit_leaf {m : Memory Node} {n : NodeIdx} (hk : (nodeAt m n).kind = .leaf) (depth : Nat) (v : CodeVal) (l : Nat)
    (t : CodeTable) : visit m (depth + 1) n v l t = t.assign (nodeAt m n).sym (BitVec.ofNat 8 l) v := by
  rw [visit, hk]

theorem visit_internal {m : Memory Node} {n : NodeIdx} (hk : (nodeAt m n).kind = .internal) (depth : Nat) (v : CodeVal)
    (l : Nat) (t : CodeTable) :
    visit m (depth + 1) n v l t = visitSide m depth n true v l (visitSide m depth n false v l t) := by
  rw [visit, hk]
  rfl

/-- The two sides' codes are the node's. -/
theorem Coded.sides {m : Memory Node} {n : NodeIdx} (hk : (nodeAt m n).kind = .internal) {pre : List Bool}
    {t t₁ t₂ : CodeTable}
    (left : Coded (fun p sym => child m n false ≠ NULL ∧ LeadsTo m (child m n false) p sym) (pre ++ [false]) t t₁)
    (right : Coded (fun p sym => child m n true ≠ NULL ∧ LeadsTo m (child m n true) p sym) (pre ++ [true]) t₁ t₂) :
    Coded (LeadsTo m n) pre t t₂ := by
  intro sym
  obtain ⟨noRight, agree⟩ | ⟨p, ⟨hc, hp⟩, valid, code⟩ := right sym
  · obtain ⟨noLeft, agree'⟩ | ⟨p, ⟨hc, hp⟩, valid, code⟩ := left sym
    · refine .inl ⟨fun p hp => ?_, agree.1.trans agree'.1, agree.2.trans agree'.2⟩
      obtain ⟨b, rest, -, hc, hp⟩ := (leadsTo_of_internal hk p sym).mp hp
      cases b
      · exact noLeft rest ⟨hc, hp⟩
      · exact noRight rest ⟨hc, hp⟩
    · refine .inr ⟨false :: p, (leadsTo_of_internal hk _ sym).mpr ⟨false, p, rfl, hc, hp⟩, agree.1.trans valid, ?_⟩
      rw [agree.2, code, List.append_assoc]
      rfl
  · refine .inr ⟨true :: p, (leadsTo_of_internal hk _ sym).mpr ⟨true, p, rfl, hc, hp⟩, valid, ?_⟩
    rw [code, List.append_assoc]
    rfl

/-- The code of a child's path: the value doubled, plus the bit. -/
theorem codeBits_visitSide (v : CodeVal) (b : Bool) {l : Nat} (hl : l < 255) :
    codeBits (if b then 2 * v + 1 else 2 * v) (l + 1) = codeBits v l ++ [b] := by
  have value : (if b then 2 * v + 1 else 2 * v).toNat = (2 * v.toNat + b.toNat) % 2 ^ 255 := by
    cases b <;> simp [BitVec.toNat_add, BitVec.toNat_mul]
  apply codeBits_of_shift
  · rw [BitVec.getLsbD, value, Nat.testBit_mod_two_pow, Nat.testBit_zero]
    cases b <;> simp [Nat.add_mod]
  · intro i hi
    have half : (2 * v.toNat + b.toNat) / 2 = v.toNat := by
      have := b.toNat_lt
      omega
    rw [BitVec.getLsbD, value, Nat.testBit_mod_two_pow, Nat.testBit_succ, half]
    simp [show i + 1 < 255 by omega, BitVec.getLsbD]

/-- Visit gives each leaf below `n` the code of `n` and then its path, where no path is longer than the depth left and no code
than MAXLEN. -/
theorem visit_coded (m : Memory Node) {depth : Nat} {n : NodeIdx} {v : CodeVal} {l : Nat} (t : CodeTable)
    (short : ∀ p n', follow m n p = some n' → p.length < depth ∧ l + p.length ≤ Config.maxLen) :
    Coded (LeadsTo m n) (codeBits v l) t (visit m depth n v l t) := by
  induction depth generalizing n v l t with
  | zero => exact absurd (short [] n (follow_nil_iff.mpr rfl)).1 (Nat.not_lt_zero _)
  | succ depth ih =>
    by_cases hk : (nodeAt m n).kind = .leaf
    · rw [visit_leaf hk]
      intro sym
      by_cases e : sym = (nodeAt m n).sym
      · subst e
        have hl : (BitVec.ofNat 8 l).toNat = l :=
          Nat.mod_eq_of_lt (Nat.lt_succ_of_le (short [] n (follow_nil_iff.mpr rfl)).2)
        exact .inr ⟨[], ⟨n, follow_nil_iff.mpr rfl, hk, rfl⟩, by simp, by simp [hl]⟩
      · refine .inl ⟨?_, t.assign_agree e _ _⟩
        rintro p ⟨n', hp, -, e'⟩
        rw [← (follow_of_leaf hk hp).2] at e'
        exact e e'.symm
    · have hk := kind_ne_leaf.mp hk
      have side (b : Bool) (t : CodeTable) : Coded (fun p sym => child m n b ≠ NULL ∧ LeadsTo m (child m n b) p sym)
          (codeBits v l ++ [b]) t (visitSide m depth n b v l t) := by
        unfold visitSide
        split
        · next hc => exact fun sym => .inl ⟨fun p hp => hp.1 hc, rfl, rfl⟩
        · next hc =>
          have longer (p : List Bool) (n' : NodeIdx) (hp : follow m (child m n b) p = some n') :=
            short (b :: p) n' (follow_cons_iff.mpr ⟨hk, hc, hp⟩)
          simp only [List.length_cons] at longer
          have hl : l < 255 := by have := (longer [] _ (follow_nil_iff.mpr rfl)).2; simp at this; omega
          rw [← codeBits_visitSide v b hl]
          intro sym
          have := ih (v := if b then 2 * v + 1 else 2 * v) (l := l + 1) t fun p n' hp => by
            have := longer p n' hp
            omega
          simpa [hc] using this sym
      rw [visit_internal hk]
      exact .sides hk (side false t) (side true _)

/-! ### The table of a job (R162, R164) -/

theorem cvalidAt_eq (s : State) (sym : Symbol) : s.cvalidAt sym = s.table.valid sym := rfl

theorem code_eq (s : State) (sym : Symbol) : s.code sym = s.table.code sym := rfl

section Generated
variable {s : State} (h : BuiltTree s)
include h

/-- GEN's code table over BUILD's tree: a leaf's symbol gets the leaf's path, and nothing else changes. No path is longer than
MAXLEN (R162 (d)). -/
theorem BuiltTree.generated (pos : 1 ≤ s.ndist.toNat) (few : s.ndist.toNat ≤ 256) :
    Coded (LeadsTo s.node s.root) [] s.table (generatedTable s) := by
  obtain ⟨-, -, bound⟩ := h.size_bounds pos few
  refine visit_coded s.node s.table fun p n' hp => ?_
  have : p.length ≤ 255 := by
    have := (h.follow_below h.root_lt hp).2
    change _ ≤ _ + 255 at bound
    omega
  exact ⟨Nat.lt_of_le_of_lt this (by decide), by rwa [Nat.zero_add]⟩

theorem BuiltTree.lt_of_leaf {n : NodeIdx} (lt : n.toNat < s.next.toNat) (hk : (nodeAt s.node n).kind = .leaf) :
    n.toNat < s.ndist.toNat := by
  by_contra le
  rw [h.internal n (Nat.le_of_not_lt le) lt] at hk
  cases hk

/-- Each counted symbol has one leaf (R142). -/
theorem BuiltTree.leaf_unique {n n' : NodeIdx} (hn : n.toNat < s.ndist.toNat) (hn' : n'.toNat < s.ndist.toNat)
    (e : (nodeAt s.node n).sym = (nodeAt s.node n').sym) : n = n' := by
  apply BitVec.eq_of_toNat_eq
  obtain lt | e' | lt := Nat.lt_trichotomy n.toNat n'.toNat
  · have := h.ascending n n' lt hn'
    rw [e, BitVec.lt_def] at this
    exact absurd this (Nat.lt_irrefl _)
  · exact e'
  · have := h.ascending n' n lt hn
    rw [e, BitVec.lt_def] at this
    exact absurd this (Nat.lt_irrefl _)

/-- One path leads to a leaf of a symbol. -/
theorem BuiltTree.leadsTo_unique {sym : Symbol} {p q : List Bool} (hp : LeadsTo s.node s.root p sym)
    (hq : LeadsTo s.node s.root q sym) : p = q := by
  obtain ⟨n, hn, leaf, e⟩ := hp
  obtain ⟨n', hn', leaf', e'⟩ := hq
  have lt {c : NodeIdx} {p : List Bool} (hc : follow s.node s.root p = some c)
      (hk : (nodeAt s.node c).kind = .leaf) : c.toNat < s.ndist.toNat := by
    refine h.lt_of_leaf ?_ hk
    have := (h.follow_below h.root_lt hc).1
    have := h.root_lt
    omega
  cases h.leaf_unique (lt hn leaf) (lt hn' leaf') (e.trans e'.symm)
  exact h.path_unique hn hn'

/-- A symbol has a leaf exactly when it is counted. -/
theorem BuiltTree.leadsTo_iff_counted (pos : 1 ≤ s.ndist.toNat) (few : s.ndist.toNat ≤ 256) (sym : Symbol) :
    (∃ p, LeadsTo s.node s.root p sym) ↔ s.freqAt sym ≠ 0#32 := by
  constructor
  · rintro ⟨p, n, hn, leaf, rfl⟩
    have := (h.follow_below h.root_lt hn).1
    have := h.root_lt
    exact (h.leaf n (h.lt_of_leaf (by omega) leaf)).2
  · intro counted
    obtain ⟨n, hn, e⟩ := h.counted sym counted
    have := (h.size_bounds pos few).2.1
    obtain ⟨p, hp⟩ := h.reachable n (by omega)
    exact ⟨p, n, hp, h.kind_of_lt hn, e⟩

variable (pos : 1 ≤ s.ndist.toNat) (few : s.ndist.toNat ≤ 256) (none : ∀ sym, s.cvalidAt sym = false)
include pos few none

/-- After GEN each symbol with a leaf has the leaf's path as its code, and no other symbol has one. -/
theorem BuiltTree.genEffect_code (sym : Symbol) :
    ((genEffect s).cvalidAt sym = true ↔ ∃ p, LeadsTo s.node s.root p sym) ∧
      ∀ p, LeadsTo s.node s.root p sym → (genEffect s).code sym = p := by
  obtain ⟨no, agree⟩ | ⟨p, hp, valid, code⟩ := h.generated pos few sym
  · refine ⟨⟨fun valid => ?_, fun ⟨p, hp⟩ => absurd hp (no p)⟩, fun p hp => absurd hp (no p)⟩
    have : (genEffect s).cvalidAt sym = s.cvalidAt sym := agree.1
    rw [valid, none] at this
    cases this
  · exact ⟨⟨fun _ => ⟨p, hp⟩, fun _ => valid⟩, fun q hq => code.trans (h.leadsTo_unique hp hq)⟩

theorem BuiltTree.genEffect_matches : TableMatchesTree (genEffect s) := by
  intro sym valid
  obtain ⟨iff, code⟩ := h.genEffect_code pos few none sym
  obtain ⟨p, hp⟩ := iff.mp valid
  rw [code p hp]
  exact hp

theorem BuiltTree.genEffect_leavesAreCodes : LeavesAreCodes (genEffect s) where
  code p n hp leaf := by
    obtain ⟨iff, code⟩ := h.genEffect_code pos few none (nodeAt s.node n).sym
    have leads : LeadsTo s.node s.root p (nodeAt s.node n).sym := ⟨n, hp, leaf, rfl⟩
    exact ⟨iff.mpr ⟨p, leads⟩, code p leads⟩
  below p n hp := by
    have := (h.follow_below h.root_lt hp).1
    have := h.root_lt
    exact h.leaf_below n (by omega)

theorem BuiltTree.genEffect_codes_counted (sym : Symbol) : (genEffect s).cvalidAt sym = true ↔ s.freqAt sym ≠ 0#32 :=
  (h.genEffect_code pos few none sym).1.trans (h.leadsTo_iff_counted pos few sym)

end Generated

end Sys2Proof.Machine
end

section
/-! SUPPORT. LOADCODE (43_code_table.md R163, R164): where its walk stops, the path it places there, and where the paths of the
grown tree lead. -/

namespace Sys2Proof.Machine

/-! ### The walk -/

/-- LOADCODE's walk stops where some first bits of the code lead: at an INTERNAL node whose child on the next bit is NULL. -/
theorem loadWalk_stopped {m : Memory Node} {v : CodeVal} {k k' : Nat} {n n' : NodeIdx}
    (h : loadWalk m v k n = .stopped n' k') (hk : (nodeAt m n).kind = .internal) :
    ∃ pre, codeBits v (k + 1) = pre ++ codeBits v (k' + 1) ∧ follow m n pre = some n' ∧
      (nodeAt m n').kind = .internal ∧ child m n' (codeBit v k') = NULL := by
  induction k generalizing n with
  | zero =>
    rw [loadWalk] at h
    split at h
    · next free => cases h; exact ⟨[], rfl, follow_nil_iff.mpr rfl, hk, free⟩
    · split at h <;> cases h
  | succ k ih =>
    rw [loadWalk] at h
    split at h
    · next free => cases h; exact ⟨[], rfl, follow_nil_iff.mpr rfl, hk, free⟩
    · next hc =>
      split at h
      · cases h
      · next hl =>
        obtain ⟨pre, code, hp, hstop⟩ := ih h (kind_ne_leaf.mp hl)
        exact ⟨codeBit v (k + 1) :: pre, by rw [codeBits, code]; rfl, follow_cons_iff.mpr ⟨hk, hc, hp⟩, hstop⟩

/-! ### The path placed -/

section PlaceNode
variable (sym : Symbol) (v : CodeVal) (k : Nat) {n : NodeIdx} {ar : Arena} (hn : n.toNat < ar.next.toNat)
  (fits : ar.next.toNat < 511)
include fits

theorem placeNode_next : (placeNode sym v k n ar).2.next.toNat = ar.next.toNat + 1 :=
  toNat_alloc_next fits (pathNode sym k)

theorem placeNode_fst : (placeNode sym v k n ar).1.toNat = ar.next.toNat :=
  toNat_alloc_fst fits (pathNode sym k)

include hn

theorem placeNode_new : nodeAt (placeNode sym v k n ar).2.node (placeNode sym v k n ar).1 = pathNode sym k := by
  have ne : (placeNode sym v k n ar).1 ≠ n := fun e => by
    have := placeNode_fst sym v k (n := n) fits
    rw [e] at this
    omega
  refine (nodeAt_put (ar.alloc (pathNode sym k)).2 n (placeNode sym v k n ar).1 _).trans ?_
  rw [if_neg ne]
  exact nodeAt_alloc_new fits (placeNode_fst sym v k (n := n) fits) _

theorem placeNode_stop : nodeAt (placeNode sym v k n ar).2.node n =
    (nodeAt ar.node n).withChild (codeBit v k) (placeNode sym v k n ar).1 := by
  rw [placeNode, nodeAt_put, if_pos rfl, nodeAt_alloc_old fits hn]

omit hn in
theorem placeNode_kept {j : NodeIdx} (hj : j.toNat < ar.next.toNat) (ne : j ≠ n) :
    nodeAt (placeNode sym v k n ar).2.node j = nodeAt ar.node j := by
  rw [placeNode, nodeAt_put, if_neg ne, nodeAt_alloc_old fits hj]

end PlaceNode

theorem eq_ofNat {n : NodeIdx} {i : Nat} (h : n.toNat = i) : n = BitVec.ofNat 9 i := by
  rw [← h, BitVec.ofNat_toNat, BitVec.setWidth_eq]

/-- The commit loop places the bits from position `k` down below node `n` (R163). -/
theorem placePath_placed (sym : Symbol) (v : CodeVal) {k : Nat} {n : NodeIdx} {ar : Arena} (hn : n.toNat < ar.next.toNat)
    (fits : ar.next.toNat + (k + 1) ≤ 511) :
    PathPlaced sym (codeBits v (k + 1)) 0 n ar (placePath sym v k n ar) := by
  induction k generalizing n ar with
  | zero =>
    have fits : ar.next.toNat < 511 := by omega
    have fst := eq_ofNat (placeNode_fst sym v 0 (n := n) fits)
    rw [placePath]
    refine ⟨by simpa using placeNode_next sym v 0 fits, fun j => placeNode_kept sym v 0 fits, ?_, ?_⟩
    · rw [placeNode_stop sym v 0 hn fits, fst]
      rfl
    · intro j _ hj
      obtain rfl : j = 0 := by simpa using hj
      rw [Nat.sub_zero, Nat.add_zero, ← fst, placeNode_new sym v 0 hn fits]
      rfl
  | succ k ih =>
    have fits' : ar.next.toNat < 511 := by omega
    have fst := placeNode_fst sym v (k + 1) (n := n) fits'
    have next := placeNode_next sym v (k + 1) (n := n) fits'
    rw [placePath]
    have rest := ih (n := (placeNode sym v (k + 1) n ar).1) (ar := (placeNode sym v (k + 1) n ar).2)
      (by omega) (by omega)
    have ne {j : NodeIdx} (hj : j.toNat < ar.next.toNat) : j ≠ (placeNode sym v (k + 1) n ar).1 := fun e => by
      rw [e] at hj
      omega
    refine ⟨?_, fun j hj hjn => ?_, ?_, ?_⟩
    · rw [rest.next, next]
      simp
      omega
    · rw [rest.kept j (by omega) (ne hj), placeNode_kept sym v (k + 1) fits' hj hjn]
    · rw [rest.kept n (by omega) (ne hn), placeNode_stop sym v (k + 1) hn fits', eq_ofNat fst]
      rfl
    · intro j _ hj
      cases j with
      | zero =>
        have here : BitVec.ofNat 9 (ar.next.toNat + (0 - 0)) = (placeNode sym v (k + 1) n ar).1 := (eq_ofNat fst).symm
        rw [here, rest.stop, placeNode_new sym v (k + 1) hn fits', next,
          if_neg (by simp)]
        rfl
      | succ j =>
        have := rest.placed j (Nat.zero_le _) (by simpa using hj)
        rw [next] at this
        simp only [List.length_cons, Nat.sub_zero, List.getD_cons_succ, codeBits, Nat.add_right_cancel_iff,
          show ∀ i, ar.next.toNat + 1 + i = ar.next.toNat + (i + 1) from fun i => by omega] at this ⊢
        exact this

/-! ### The grown tree -/

/-- The path of the bits `suf` for a symbol is placed at node `n`, where the bits `pre` lead from the root and the next bit
finds NULL. -/
structure Grafted (sym : Symbol) (root n : NodeIdx) (pre suf : List Bool) (old new : Arena) : Prop where
  closed : Closed old.node old.next.toNat
  rootLt : root.toNat < old.next.toNat
  leads : follow old.node root pre = some n
  internal : (nodeAt old.node n).kind = .internal
  free : child old.node n (suf.getD 0 false) = NULL
  nonempty : suf ≠ []
  placed : PathPlaced sym suf 0 n old new
  fits : new.next.toNat ≤ 511

theorem take_succ_getD {bits : List Bool} {i : Nat} (hi : i < bits.length) :
    bits.take (i + 1) = bits.take i ++ [bits.getD i false] := by
  rw [List.take_succ_eq_append_getElem hi, List.getD_eq_getElem _ _ hi]

/-- The index of the i-th node placed. -/
def Arena.placed (old : Arena) (i : Nat) : NodeIdx := BitVec.ofNat 9 (old.next.toNat + i)

section Grafted
variable {sym : Symbol} {root n : NodeIdx} {pre suf : List Bool} {old new : Arena}
  (h : Grafted sym root n pre suf old new)
include h

theorem Grafted.next : new.next.toNat = old.next.toNat + suf.length := h.placed.next

theorem Grafted.lt : n.toNat < old.next.toNat := h.closed.follow_lt h.rootLt h.leads

theorem Grafted.toNat_placed {i : Nat} (hi : i < suf.length) : (old.placed i).toNat = old.next.toNat + i := by
  have := h.next
  have := h.fits
  exact Nat.mod_eq_of_lt (by omega)

/-- A node is one of the old ones or one of those placed. -/
theorem Grafted.old_or_placed {j : NodeIdx} (hj : j.toNat < new.next.toNat) :
    j.toNat < old.next.toNat ∨ ∃ i, i < suf.length ∧ j = old.placed i := by
  rw [h.next] at hj
  by_cases lt : j.toNat < old.next.toNat
  · exact .inl lt
  · exact .inr ⟨j.toNat - old.next.toNat, by omega, eq_ofNat (by omega)⟩

theorem Grafted.kind_old {j : NodeIdx} (hj : j.toNat < old.next.toNat) :
    (nodeAt new.node j).kind = (nodeAt old.node j).kind := by
  by_cases e : j = n
  · rw [e, h.placed.stop, withChild_kind]
  · rw [h.placed.kept j hj e]

theorem Grafted.sym_old {j : NodeIdx} (hj : j.toNat < old.next.toNat) :
    (nodeAt new.node j).sym = (nodeAt old.node j).sym := by
  by_cases e : j = n
  · rw [e, h.placed.stop, withChild_sym]
  · rw [h.placed.kept j hj e]

/-- The one child that changes is the one the path hangs from. -/
theorem Grafted.child_old {j : NodeIdx} (hj : j.toNat < old.next.toNat) (b : Bool) :
    child new.node j b = if j = n ∧ b = suf.getD 0 false then old.placed 0 else child old.node j b := by
  by_cases e : j = n
  · rw [e, child_of_withChild h.placed.stop b]
    simp only [true_and]
    rfl
  · rw [if_neg fun c => e c.1]
    exact child_congr (h.placed.kept j hj e) b

theorem Grafted.node_placed {i : Nat} (hi : i < suf.length) : nodeAt new.node (old.placed i) =
    if i + 1 = suf.length then Node.leafOf 0#32 sym
    else (Node.internalOf 0#32 NULL NULL).withChild (suf.getD (i + 1) false) (old.placed (i + 1)) :=
  h.placed.placed i (Nat.zero_le _) hi

theorem Grafted.leaf_placed {i : Nat} (hi : i + 1 = suf.length) :
    nodeAt new.node (old.placed i) = Node.leafOf 0#32 sym := by
  rw [h.node_placed (by omega), if_pos hi]

theorem Grafted.kind_placed {i : Nat} (hi : i + 1 < suf.length) : (nodeAt new.node (old.placed i)).kind = .internal := by
  rw [h.node_placed (by omega), if_neg (by omega), withChild_kind]
  rfl

theorem Grafted.child_placed {i : Nat} (hi : i + 1 < suf.length) (b : Bool) :
    child new.node (old.placed i) b = if b = suf.getD (i + 1) false then old.placed (i + 1) else NULL := by
  have node := h.node_placed (i := i) (by omega)
  rw [if_neg (by omega)] at node
  rw [child_of_withChild node b]
  cases b <;> rfl

theorem Grafted.placed_ne_NULL {i : Nat} (hi : i < suf.length) : old.placed i ≠ NULL := by
  have := h.toNat_placed hi
  have := h.next
  have := h.fits
  exact ne_NULL_of_lt (by omega)

/-- An old path leads where it did. -/
theorem Grafted.follow_old {x y : NodeIdx} {p : List Bool} (hx : x.toNat < old.next.toNat)
    (hp : follow old.node x p = some y) : follow new.node x p = some y := by
  induction p generalizing x with
  | nil => exact follow_nil_iff.mpr (follow_nil_iff.mp hp)
  | cons b rest ih =>
    obtain ⟨hk, hc, hp⟩ := follow_cons_iff.mp hp
    have same : child new.node x b = child old.node x b := by
      rw [h.child_old hx, if_neg]
      rintro ⟨rfl, rfl⟩
      exact hc h.free
    rw [follow_cons_iff, h.kind_old hx, same]
    exact ⟨hk, hc, ih (h.closed x b hx hk hc) hp⟩

/-- The bits of the new code lead along the nodes placed. -/
theorem Grafted.follow_placed {i : Nat} (hi : i < suf.length) :
    follow new.node root (pre ++ suf.take (i + 1)) = some (old.placed i) := by
  rw [take_succ_getD hi, ← List.append_assoc, follow_snoc_iff]
  cases i with
  | zero =>
    refine ⟨n, by simpa using h.follow_old h.rootLt h.leads, ?_, ?_, h.placed_ne_NULL hi⟩
    · rw [h.kind_old h.lt, h.internal]
    · rw [h.child_old h.lt, if_pos ⟨rfl, rfl⟩]
  | succ i =>
    refine ⟨old.placed i, Grafted.follow_placed (Nat.lt_of_succ_lt hi), h.kind_placed hi, ?_, h.placed_ne_NULL hi⟩
    rw [h.child_placed hi, if_pos rfl]

/-- The new code leads to the new leaf. -/
theorem Grafted.leadsTo_new : LeadsTo new.node root (pre ++ suf) sym := by
  have pos := List.length_pos_iff.mpr h.nonempty
  have hp := h.follow_placed (i := suf.length - 1) (by omega)
  rw [List.take_of_length_le (by omega)] at hp
  have leaf := h.leaf_placed (i := suf.length - 1) (by omega)
  exact ⟨_, hp, by rw [leaf]; rfl, by rw [leaf]; rfl⟩

/-- Every path of the grown tree is an old one, or follows the new code to a node placed. -/
theorem Grafted.follow_new (unique : ∀ p, follow old.node root p = some n → p = pre) {p : List Bool} {y : NodeIdx}
    (hp : follow new.node root p = some y) :
    follow old.node root p = some y ∨ ∃ i, i < suf.length ∧ p = pre ++ suf.take (i + 1) ∧ y = old.placed i := by
  have pos := List.length_pos_iff.mpr h.nonempty
  induction p using List.reverseRecOn generalizing y with
  | nil => exact .inl (follow_nil_iff.mpr (follow_nil_iff.mp hp))
  | append_singleton p b ih =>
    obtain ⟨x, hx, hk, rfl, hc⟩ := follow_snoc_iff.mp hp
    obtain hx | ⟨i, hi, rfl, rfl⟩ := ih hx
    · have lt := h.closed.follow_lt h.rootLt hx
      rw [h.child_old lt] at hc ⊢
      split
      · next e =>
        obtain ⟨rfl, rfl⟩ := e
        refine .inr ⟨0, pos, ?_, rfl⟩
        rw [unique p hx, take_succ_getD pos]
        rfl
      · next e =>
        rw [if_neg e] at hc
        rw [h.kind_old lt] at hk
        exact .inl (follow_snoc_iff.mpr ⟨x, hx, hk, rfl, hc⟩)
    · have more : i + 1 < suf.length := by
        by_contra last
        rw [h.leaf_placed (by omega)] at hk
        cases hk
      rw [h.child_placed more] at hc ⊢
      split
      · next e => exact .inr ⟨i + 1, more, by rw [e, take_succ_getD more, List.append_assoc], rfl⟩
      · next e =>
        rw [if_neg e] at hc
        exact absurd rfl hc

/-- The grown tree is closed. -/
theorem Grafted.closed_new : Closed new.node new.next.toNat := by
  have pos := List.length_pos_iff.mpr h.nonempty
  have placed_lt {i : Nat} (hi : i < suf.length) : (old.placed i).toNat < new.next.toNat := by
    rw [h.toNat_placed hi, h.next]
    omega
  intro j b hj hk hc
  obtain hj | ⟨i, hi, rfl⟩ := h.old_or_placed hj
  · rw [h.child_old hj] at hc ⊢
    split
    · exact placed_lt pos
    · next e =>
      rw [if_neg e] at hc
      have := h.closed j b hj (h.kind_old hj ▸ hk) hc
      rw [h.next]
      omega
  · by_cases more : i + 1 < suf.length
    · rw [h.child_placed more] at hc ⊢
      split
      · exact placed_lt more
      · next e =>
        rw [if_neg e] at hc
        exact absurd rfl hc
    · rw [h.leaf_placed (by omega)] at hk
      cases hk

end Grafted

/-! ### The codes of the grown tree (R164) -/

/-- What the tree LOADCODE walks has in EMPTY and in LOADED: its paths and its codes are the same, and nothing but its root is
without a leaf below. -/
structure Loadable (s : State) (root : NodeIdx) (ar : Arena) : Prop where
  rootLt : root.toNat < ar.next.toNat
  internal : (nodeAt ar.node root).kind = .internal
  closed : Closed ar.node ar.next.toNat
  unique : ∀ {p q c}, follow ar.node root p = some c → follow ar.node root q = some c → p = q
  leads : ∀ sym, s.cvalidAt sym = true → LeadsTo ar.node root (s.code sym) sym
  code : ∀ p sym, LeadsTo ar.node root p sym → s.cvalidAt sym = true ∧ s.code sym = p
  below : ∀ p c, follow ar.node root p = some c → p = [] ∨ ∃ rest sym, LeadsTo ar.node c rest sym

/-- Where leaves bear their paths as codes and lie below every node, one path leads to each node. -/
theorem LeavesAreCodes.unique {s : State} (h : LeavesAreCodes s) {p q : List Bool} {c : NodeIdx}
    (hp : follow s.node s.root p = some c) (hq : follow s.node s.root q = some c) : p = q := by
  obtain ⟨rest, n, hr, leaf⟩ := h.below p c hp
  have ep := (h.code (p ++ rest) n (follow_append_iff.mpr ⟨c, hp, hr⟩) leaf).2
  have eq := (h.code (q ++ rest) n (follow_append_iff.mpr ⟨c, hq, hr⟩) leaf).2
  exact List.append_cancel_right (ep.symm.trans eq)

/-- The tree of a LOADED job. -/
theorem LeavesAreCodes.loadable {s : State} (h : LeavesAreCodes s) (walk : WalkableTree s) (table : TableMatchesTree s) :
    Loadable s s.root s.arena where
  rootLt := walk.root.1
  internal := walk.root.2
  closed := walk.children
  unique := h.unique
  leads := table
  code p sym := fun ⟨n, hp, leaf, e⟩ => e ▸ h.code p n hp leaf
  below p c hp := by
    obtain ⟨rest, n, hr, leaf⟩ := h.below p c hp
    exact .inr ⟨rest, _, n, hr, leaf, rfl⟩

/-- The new tree of an EMPTY job: a lone INTERNAL root. -/
theorem loadable_of_empty {s : State} (none : ∀ sym, s.cvalidAt sym = false) {ar : Arena} (next : ar.next = 1#10)
    (root : nodeAt ar.node 0#9 = Node.internalOf 0#32 NULL NULL) : Loadable s 0#9 ar := by
  have only {p : List Bool} {c : NodeIdx} (hp : follow ar.node 0#9 p = some c) : p = [] ∧ c = 0#9 := by
    cases p with
    | nil => exact ⟨rfl, (follow_nil_iff.mp hp).symm⟩
    | cons b rest =>
      have := (follow_cons_iff.mp hp).2.1
      rw [child_of_internalOf root] at this
      cases b <;> exact absurd rfl this
  have internal : (nodeAt ar.node 0#9).kind = .internal := by rw [root]; rfl
  refine ⟨by rw [next]; decide, internal, fun n b hn _ hc => ?_, fun hp hq => ?_, fun sym valid => ?_,
    fun p sym ⟨n, hp, leaf, _⟩ => ?_, fun p c hp => .inl (only hp).1⟩
  · have e : n = 0#9 := eq_ofNat (by rw [next] at hn; exact Nat.lt_one_iff.mp hn)
    rw [e, child_of_internalOf root] at hc
    cases b <;> exact absurd rfl hc
  · rw [(only hp).1, (only hq).1]
  · rw [none sym] at valid
    cases valid
  · rw [(only hp).2, internal] at leaf
    cases leaf

section Commit
variable {s t : State} {sym : Symbol} {len : BitVec 8} {v : CodeVal} {n : NodeIdx} {pre suf : List Bool} {old : Arena}
  (before : Loadable s t.root old) (graft : Grafted sym t.root n pre suf old t.arena)
  (table : t.table = s.table.assign sym len v) (code : codeBits v len.toNat = pre ++ suf)
  (fresh : s.cvalidAt sym = false)
include table

/-- The other entries of the code table stay. -/
theorem entry_other {other : Symbol} (ne : other ≠ sym) :
    t.cvalidAt other = s.cvalidAt other ∧ t.code other = s.code other := by
  rw [cvalidAt_eq, code_eq, table]
  exact s.table.assign_agree ne len v

include code

theorem entry_new : t.cvalidAt sym = true ∧ t.code sym = pre ++ suf := by
  rw [cvalidAt_eq, code_eq, table, CodeTable.assign_code, code]
  exact ⟨CodeTable.assign_valid _ _ _ _, rfl⟩

include before graft fresh

/-- After the commit each code is the path of its leaf. -/
theorem tableMatches_of_commit : TableMatchesTree t := by
  intro other valid
  show LeadsTo t.node t.root (t.code other) other
  by_cases e : other = sym
  · subst e
    rw [(entry_new table code).2]
    exact graft.leadsTo_new
  · obtain ⟨valid', code'⟩ := entry_other table e
    obtain ⟨c, hc, leaf, hs⟩ := before.leads other (valid' ▸ valid)
    have lt := before.closed.follow_lt before.rootLt hc
    rw [code']
    exact ⟨c, graft.follow_old before.rootLt hc, (graft.kind_old lt).trans leaf, (graft.sym_old lt).trans hs⟩

/-- After the commit the paths to the leaves are the codes, and every node has a leaf below it. -/
theorem leavesAreCodes_of_commit : LeavesAreCodes t where
  code p c hp leaf := by
    obtain hp | ⟨i, hi, rfl, rfl⟩ := graft.follow_new (fun p hp => before.unique hp graft.leads) hp
    · have lt := before.closed.follow_lt before.rootLt hp
      have leaf : (nodeAt old.node c).kind = .leaf := (graft.kind_old lt).symm.trans leaf
      have e : (nodeAt t.node c).sym = (nodeAt old.node c).sym := graft.sym_old lt
      obtain ⟨valid, code'⟩ := before.code p _ ⟨c, hp, leaf, rfl⟩
      have ne : (nodeAt old.node c).sym ≠ sym := by
        rintro rfl
        rw [fresh] at valid
        cases valid
      rw [e, (entry_other table ne).1, (entry_other table ne).2]
      exact ⟨valid, code'⟩
    · by_cases more : i + 1 < suf.length
      · exact absurd ((graft.kind_placed more).symm.trans leaf) (by decide)
      · have e : (nodeAt t.node (old.placed i)).sym = sym := by
          rw [show nodeAt t.node (old.placed i) = Node.leafOf 0#32 sym from graft.leaf_placed (by omega)]
          rfl
        rw [e, List.take_of_length_le (by omega)]
        exact entry_new table code
  below p c hp := by
    have new {p q : List Bool} {c : NodeIdx} (hp : follow t.node t.root p = some c) (e : pre ++ suf = p ++ q) :
        ∃ rest n', follow t.node c rest = some n' ∧ (nodeAt t.node n').kind = .leaf := by
      obtain ⟨n', hn', leaf, -⟩ := graft.leadsTo_new
      rw [e] at hn'
      obtain ⟨x, hx, hr⟩ := follow_append_iff.mp hn'
      cases hx.symm.trans hp
      exact ⟨q, n', hr, leaf⟩
    obtain hp' | ⟨i, hi, rfl, rfl⟩ := graft.follow_new (fun p hp => before.unique hp graft.leads) hp
    · obtain rfl | ⟨rest, other, n', hr, leaf, -⟩ := before.below p c hp'
      · exact new hp (List.nil_append _).symm
      · have lt := before.closed.follow_lt before.rootLt hp'
        exact ⟨rest, n', graft.follow_old lt hr, (graft.kind_old (before.closed.follow_lt lt hr)).trans leaf⟩
    · exact new (q := suf.drop (i + 1)) hp (by rw [List.append_assoc, List.take_append_drop])

end Commit

end Sys2Proof.Machine
end

section
/-! SUPPORT. A good job (10_state.md R46): which registers its phase invariant speaks of, and that every command, event and step
keeps it. -/

namespace Sys2Proof.Machine

/-! ### The phase invariant, one equation for each phase (10_state.md R46) -/

section Phases
variable {s : State}

theorem phaseInv_empty (p : s.phase = .empty) :
    PhaseInv s ↔ NoTree s ∧ Counted s ∧ s.total = 0#32 ∧ s.ndist = 0#9 := by
  rw [PhaseInv, p]

theorem phaseInv_counting (p : s.phase = .counting) :
    PhaseInv s ↔ NoTree s ∧ Counted s ∧ 1 ≤ s.total.toNat ∧ 1 ≤ s.ndist.toNat := by
  rw [PhaseInv, p]

theorem phaseInv_built (p : s.phase = .built) :
    PhaseInv s ↔ WalkableTree s ∧ BuiltTree s ∧ Counted s ∧ 1 ≤ s.ndist.toNat ∧
      (nodeAt s.node s.root).weight = s.total ∧ (∀ sym, s.cvalidAt sym = false) ∧ s.cost = 0#64 := by
  rw [PhaseInv, p]

theorem phaseInv_ready (p : s.phase = .ready) :
    PhaseInv s ↔ WalkableTree s ∧ BuiltTree s ∧ Counted s ∧ 1 ≤ s.ndist.toNat ∧
      (nodeAt s.node s.root).weight = s.total ∧ TableMatchesTree s ∧ LeavesAreCodes s ∧
      (∀ sym, s.cvalidAt sym = true ↔ s.freqAt sym ≠ 0#32) := by
  rw [PhaseInv, p]

theorem phaseInv_loaded (p : s.phase = .loaded) :
    PhaseInv s ↔ WalkableTree s ∧ TableMatchesTree s ∧ LeavesAreCodes s ∧ (∀ sym, s.freqAt sym = 0#32) ∧
      s.total = 0#32 ∧ s.root = 0#9 ∧ s.ndist.toNat = s.validCount ∧ 1 ≤ s.ndist.toNat ∧ 2 ≤ s.next.toNat ∧
      s.cost = 0#64 := by
  rw [PhaseInv, p]

end Phases

/-- The phases in which there is a tree. -/
def hasTree (p : Phase) : Bool := [Phase.built, .ready, .loaded].contains p

/-! The phases in which the commands that change the job may run (30_encoding.md R86). -/

theorem legalIn_count (sym : Symbol) (p : Phase) : legalIn (.count sym) p = !hasTree p := by cases p <;> rfl

theorem legalIn_build (p : Phase) : legalIn .build p = !hasTree p := by cases p <;> rfl

theorem legalIn_decode (n : BitVec 5) (bits : BitVec 16) (p : Phase) : legalIn (.decode n bits) p = hasTree p := rfl

theorem legalIn_gen (p : Phase) : legalIn .gen p = true ↔ p = .built := by cases p <;> simp [legalIn]

theorem legalIn_loadcode (sym : Symbol) (len : BitVec 8) (p : Phase) :
    legalIn (.loadcode sym len) p = true ↔ p = .empty ∨ p = .loaded := by cases p <;> simp [legalIn]

theorem PhaseInv.walkable {s : State} (h : PhaseInv s) (tree : hasTree s.phase = true) : WalkableTree s := by
  cases p : s.phase with
  | empty => rw [p] at tree; cases tree
  | counting => rw [p] at tree; cases tree
  | built => exact ((phaseInv_built p).mp h).1
  | ready => exact ((phaseInv_ready p).mp h).1
  | loaded => exact ((phaseInv_loaded p).mp h).1

theorem PhaseInv.noTree {s : State} (h : PhaseInv s) (tree : hasTree s.phase = false) : NoTree s ∧ Counted s := by
  cases p : s.phase with
  | empty =>
    obtain ⟨noTree, counted, -⟩ := (phaseInv_empty p).mp h
    exact ⟨noTree, counted⟩
  | counting =>
    obtain ⟨noTree, counted, -⟩ := (phaseInv_counting p).mp h
    exact ⟨noTree, counted⟩
  | built => rw [p] at tree; cases tree
  | ready => rw [p] at tree; cases tree
  | loaded => rw [p] at tree; cases tree

/-! ### The registers of the job -/

/-- The state `t` with the registers that `PhaseInv` speaks of taken from `s`, but for CURSOR, which is `c`. -/
def State.withJobAt (t s : State) (c : NodeIdx) : State :=
  { t with
    phase := s.phase, freq := s.freq, total := s.total, ndist := s.ndist, node := s.node, next := s.next, root := s.root
    cvalid := s.cvalid, clen := s.clen, cval := s.cval, cursor := c, cost := s.cost }

/-- `t` has the job of `s`, with CURSOR at `c`. -/
def SameJobAt (s t : State) (c : NodeIdx) : Prop := t = t.withJobAt s c

/-- `t` has the job of `s`. -/
def SameJob (s t : State) : Prop := SameJobAt s t s.cursor

/-- Where CURSOR may be: where a walk can stand, and at NULL without a tree (10_state.md R32). -/
def CursorAt (s : State) (c : NodeIdx) : Prop :=
  if hasTree s.phase = true then c.toNat < s.next.toNat ∧ (nodeAt s.node c).kind = .internal else c = NULL

theorem PhaseInv.cursorAt {s : State} (h : PhaseInv s) : CursorAt s s.cursor := by
  unfold CursorAt
  split
  · next tree => exact (h.walkable tree).cursor
  · next tree => exact (h.noTree (Bool.eq_false_iff.mpr tree)).1.cursor

theorem PhaseInv.root_cursorAt {s : State} (h : PhaseInv s) : CursorAt s s.root := by
  unfold CursorAt
  split
  · next tree => exact (h.walkable tree).root
  · next tree => exact (h.noTree (Bool.eq_false_iff.mpr tree)).1.root

theorem cursorAt_of_tree {s : State} (tree : hasTree s.phase = true) {c : NodeIdx} :
    CursorAt s c ↔ c.toNat < s.next.toNat ∧ (nodeAt s.node c).kind = .internal := by
  rw [CursorAt, if_pos tree]

/-- Nothing but the job's registers counts for the phase invariant, and CURSOR may be where a walk can stand. -/
theorem PhaseInv.withJobAt {s : State} (h : PhaseInv s) (t : State) {c : NodeIdx} (hc : CursorAt s c) :
    PhaseInv (t.withJobAt s c) := by
  cases p : s.phase with
  | empty =>
    obtain ⟨noTree, counted, rest⟩ := (phaseInv_empty p).mp h
    have hc : c = NULL := by simpa [CursorAt, p, hasTree] using hc
    exact (phaseInv_empty (s := t.withJobAt s c) p).mpr ⟨{ noTree with cursor := hc }, { counted with }, rest⟩
  | counting =>
    obtain ⟨noTree, counted, rest⟩ := (phaseInv_counting p).mp h
    have hc : c = NULL := by simpa [CursorAt, p, hasTree] using hc
    exact (phaseInv_counting (s := t.withJobAt s c) p).mpr ⟨{ noTree with cursor := hc }, { counted with }, rest⟩
  | built =>
    obtain ⟨walk, tree, counted, rest⟩ := (phaseInv_built p).mp h
    have hc := (cursorAt_of_tree (by rw [p]; rfl)).mp hc
    exact (phaseInv_built (s := t.withJobAt s c) p).mpr ⟨{ walk with cursor := hc }, { tree with }, { counted with }, rest⟩
  | ready =>
    obtain ⟨walk, tree, counted, some, weight, table, leaves, rest⟩ := (phaseInv_ready p).mp h
    have hc := (cursorAt_of_tree (by rw [p]; rfl)).mp hc
    exact (phaseInv_ready (s := t.withJobAt s c) p).mpr
      ⟨{ walk with cursor := hc }, { tree with }, { counted with }, some, weight, table, { leaves with }, rest⟩
  | loaded =>
    obtain ⟨walk, table, leaves, rest⟩ := (phaseInv_loaded p).mp h
    have hc := (cursorAt_of_tree (by rw [p]; rfl)).mp hc
    exact (phaseInv_loaded (s := t.withJobAt s c) p).mpr ⟨{ walk with cursor := hc }, table, { leaves with }, rest⟩

theorem PhaseInv.sameJobAt {s t : State} (h : PhaseInv s) {c : NodeIdx} (hc : CursorAt s c) (same : SameJobAt s t c) :
    PhaseInv t := by
  rw [same]
  exact h.withJobAt t hc

theorem PhaseInv.sameJob {s t : State} (h : PhaseInv s) (same : SameJob s t) : PhaseInv t :=
  h.sameJobAt h.cursorAt same

theorem Recorded.sameJob {s t : State} (r : Recorded s t) : SameJob s t := by
  obtain rfl | ⟨-, e, info, -, rfl⟩ := r <;> rfl

theorem sameJob_hostRead (idx : BitVec 6) (s : State) : SameJob s (hostRead idx s) := by
  rw [hostRead_frame]
  rfl

theorem sameJob_regWrite (idx : BitVec 6) (v : Word) (s : State) : SameJob s (regWrite idx v s) := by
  rw [regWrite_frame]
  rfl

theorem sameJob_encodeEffect (sym : Symbol) (s : State) : SameJob s (encodeEffect sym s) := by
  obtain r | e := encodeEffect_cases sym s
  · exact r.sameJob
  · rw [e]; rfl

theorem sameJob_flushEffect (s : State) : SameJob s (flushEffect s) := by
  obtain e | e := flushEffect_cases s <;> rw [e] <;> rfl

theorem sameJob_readcodeEffect (sym : Symbol) (s : State) : SameJob s (readcodeEffect sym s) := by
  rw [readcodeEffect_frame]
  rfl

theorem sameJob_readnodeEffect (idx : NodeIdx) (s : State) : SameJob s (readnodeEffect idx s) := by
  rw [readnodeEffect_frame]
  rfl

/-! ### CURSOR (10_state.md R32) -/

/-- DECODE's walk ends where a walk can stand. -/
theorem decodeLoop_cursorAt {s : State} (h : PhaseInv s) (tree : hasTree s.phase = true) (bits : BitVec 16) {left j : Nat}
    {cursor : NodeIdx} {out : List Word} (hc : CursorAt s cursor) :
    CursorAt s (decodeLoop s.node s.root bits left j cursor out).cursor := by
  induction left generalizing j cursor out with
  | zero => exact hc
  | succ left ih =>
    rw [decodeLoop]
    split
    · exact hc
    · next there =>
      split
      · exact ih h.root_cursorAt
      · next hk =>
        obtain ⟨lt, internal⟩ := (cursorAt_of_tree tree).mp hc
        exact ih ((cursorAt_of_tree tree).mpr ⟨(h.walkable tree).children cursor _ lt internal there, kind_ne_leaf.mp hk⟩)

theorem PhaseInv.decodeEffect {s : State} (h : PhaseInv s) (tree : hasTree s.phase = true) (n : BitVec 5)
    (bits : BitVec 16) : PhaseInv (decodeEffect n bits s) := by
  have moved : PhaseInv (s.decoded n bits) := h.sameJobAt (decodeLoop_cursorAt h tree bits h.cursorAt) rfl
  exact moved.sameJob (decodeEffect_recorded n bits s).sameJob

/-- ACKERR puts CURSOR at ROOT (40_control.md R102). -/
theorem PhaseInv.acknowledge {s : State} (h : PhaseInv s) : PhaseInv (acknowledge s) :=
  h.sameJobAt h.root_cursorAt rfl

/-! ### A new job, and its frequencies -/

/-- A job that holds nothing is EMPTY. -/
theorem phaseInv_of_nothing {s : State} (phase : s.phase = .empty) (noTree : NoTree s) (freq : s.freq = [])
    (total : s.total = 0#32) (ndist : s.ndist = 0#9) : PhaseInv s :=
  (phaseInv_empty phase).mpr ⟨noTree, counted_of_nil freq total ndist, total, ndist⟩

theorem phaseInv_resetInput (s : State) : PhaseInv (resetInput s) :=
  phaseInv_of_nothing rfl ⟨rfl, rfl, rfl, fun _ => rfl, rfl⟩ rfl rfl rfl

theorem phaseInv_clearEffect (s : State) : PhaseInv (clearEffect s) :=
  phaseInv_of_nothing rfl ⟨rfl, rfl, rfl, fun _ => rfl, rfl⟩ rfl rfl rfl

theorem PhaseInv.countEffect {s : State} (h : PhaseInv s) (tree : hasTree s.phase = false) (sym : Symbol) :
    PhaseInv (countEffect sym s) := by
  obtain r | ⟨room, e⟩ := countEffect_cases sym s
  · exact h.sameJob r.sameJob
  · rw [e]
    obtain ⟨noTree, counted⟩ := h.noTree tree
    have total := toNat_total_countSymbol sym room
    exact (phaseInv_counting rfl).mpr
      ⟨{ noTree with }, counted.countSymbol sym room, by omega, counted.one_le_ndist_countSymbol sym room⟩

/-! ### The tree and the table -/

theorem PhaseInv.built {s : State} (h : PhaseInv s) (tree : hasTree s.phase = false) (some : s.ndist ≠ 0#9) :
    PhaseInv s.built := by
  obtain ⟨noTree, counted⟩ := h.noTree tree
  have few := counted.ndist_le
  have pos : 1 ≤ s.ndist.toNat := Nat.one_le_iff_ne_zero.mpr fun e => some (BitVec.eq_of_toNat_eq e)
  obtain ⟨built, weight⟩ := counted.builtTree noTree.next pos
  have root := (built.size_bounds pos few).2.1
  have walk := built.walkable pos few ⟨built.root_lt, built.internal _ root built.root_lt⟩
  exact (phaseInv_built rfl).mpr ⟨walk, built, { counted with }, pos, weight, noTree.codes, noTree.cost⟩

theorem PhaseInv.buildEffect {s : State} (h : PhaseInv s) (tree : hasTree s.phase = false) : PhaseInv (buildEffect s) := by
  obtain r | ⟨some, e⟩ := buildEffect_cases s
  · exact h.sameJob r.sameJob
  · rw [e]
    exact h.built tree some

theorem PhaseInv.genEffect {s : State} (h : PhaseInv s) (phase : s.phase = .built) : PhaseInv (genEffect s) := by
  obtain ⟨walk, built, counted, pos, weight, none, -⟩ := (phaseInv_built phase).mp h
  have few := counted.ndist_le
  exact (phaseInv_ready rfl).mpr ⟨{ walk with }, { built with }, { counted with }, pos, weight,
    built.genEffect_matches pos few none, built.genEffect_leavesAreCodes pos few none,
    built.genEffect_codes_counted pos few none⟩

/-! ### LOADCODE -/

/-- The tree LOADCODE walks in a good job is a tree it can extend, with its root at index 0. -/
theorem PhaseInv.loadable {s : State} (h : PhaseInv s) (phase : s.phase = .empty ∨ s.phase = .loaded) :
    Loadable s (loadTree s).1 (loadTree s).2 ∧ (loadTree s).1 = 0#9 := by
  unfold loadTree
  obtain p | p := phase
  · rw [if_pos p]
    have none := ((phaseInv_empty p).mp h).1.codes
    exact ⟨loadable_of_empty none rfl ((nodeAt_put s.arena 0#9 0#9 (Node.internalOf 0#32 NULL NULL)).trans (if_pos rfl)), rfl⟩
  · rw [if_neg (by rw [p]; decide)]
    obtain ⟨walk, table, leaves, -, -, root, -⟩ := (phaseInv_loaded p).mp h
    exact ⟨leaves.loadable walk table, root⟩

theorem validCount_le (s : State) : s.validCount ≤ 256 := by
  simpa [State.validCount] using List.length_filter_le (fun a => Memory.read false s.cvalid a) (List.range Config.nsym)

/-- A new code is counted (10_state.md R46). -/
theorem validCount_assign {s t : State} {sym : Symbol} {len : BitVec 8} {v : CodeVal}
    (table : t.table = s.table.assign sym len v) (fresh : s.cvalidAt sym = false) : t.validCount = s.validCount + 1 := by
  have cvalid : t.cvalid = Memory.write false s.cvalid sym.toNat true := congrArg CodeTable.cvalid table
  have count := length_filter_update (p := fun a => Memory.read false s.cvalid a)
    (q := fun a => Memory.read false t.cvalid a) List.nodup_range (toNat_mem_range sym) fun b hb => by
      rw [cvalid, Memory.read_write_other _ _ _ hb]
  change t.validCount + (if s.cvalidAt sym = true then 1 else 0) =
    s.validCount + (if Memory.read false t.cvalid sym.toNat = true then 1 else 0) at count
  rw [cvalid, Memory.read_write_same, fresh] at count
  simpa using count

theorem validCount_of_none {s : State} (none : ∀ sym, s.cvalidAt sym = false) : s.validCount = 0 := by
  rw [State.validCount, List.length_eq_zero_iff, List.filter_eq_nil_iff]
  intro a ha
  have := none (BitVec.ofNat 8 a)
  rw [State.cvalidAt, BitVec.toNat_ofNat, Nat.mod_eq_of_lt (List.mem_range.mp ha)] at this
  simp [this]

/-- What EMPTY and LOADED share besides the tree. -/
theorem PhaseInv.uncounted {s : State} (h : PhaseInv s) (phase : s.phase = .empty ∨ s.phase = .loaded) :
    (∀ sym, s.freqAt sym = 0#32) ∧ s.total = 0#32 ∧ s.ndist.toNat = s.validCount ∧ s.cost = 0#64 := by
  obtain p | p := phase
  · obtain ⟨noTree, counted, total, ndist⟩ := (phaseInv_empty p).mp h
    exact ⟨counted.freqAt_eq_zero total, total, by rw [ndist, validCount_of_none noTree.codes]; rfl, noTree.cost⟩
  · obtain ⟨-, -, -, freq, total, -, ndist, -, -, cost⟩ := (phaseInv_loaded p).mp h
    exact ⟨freq, total, ndist, cost⟩

section Commit
variable {s t : State} (h : PhaseInv s) (phase : s.phase = .empty ∨ s.phase = .loaded) {sym : Symbol} {len : BitVec 8}
  {n : NodeIdx} {k : Nat} (some : len ≠ 0#8) (fresh : s.cvalidAt sym = false)
  (walk : loadWalk (loadTree s).2.node (codeOperand s.cw len) (len.toNat - 1) (loadTree s).1 = .stopped n k)
  (fits : (loadTree s).2.next.toNat + (k + 1) ≤ Config.nnode)
  (commit : t = loadCommit sym len (codeOperand s.cw len) n k s)
include h phase commit

/-- After the commit CURSOR stands where it stood, and on a new tree at its root. -/
theorem commit_cursor : t.cursor.toNat < (loadTree s).2.next.toNat ∧
    (nodeAt (loadTree s).2.node t.cursor).kind = .internal := by
  obtain ⟨before, root⟩ := h.loadable phase
  have e : t.cursor = if s.phase = .empty then 0#9 else s.cursor := by rw [commit]; rfl
  by_cases p : s.phase = .empty
  · rw [e, if_pos p, ← root]
    exact ⟨before.rootLt, before.internal⟩
  · rw [e, if_neg p, loadTree, if_neg p]
    exact (h.walkable (by rw [phase.resolve_left p]; rfl)).cursor

include some walk fits

/-- The commit grafts the rest of the code onto the node the walk stopped at. -/
theorem commit_grafted : ∃ pre suf, codeBits (codeOperand s.cw len) len.toNat = pre ++ suf ∧
    Grafted sym (loadTree s).1 n pre suf (loadTree s).2 t.arena := by
  have before := (h.loadable phase).1
  obtain ⟨pre, code, leads, internal, free⟩ := loadWalk_stopped walk before.internal
  have pos : len.toNat - 1 + 1 = len.toNat :=
    Nat.sub_add_cancel (Nat.one_le_iff_ne_zero.mpr fun e => some (BitVec.eq_of_toNat_eq e))
  have placed := placePath_placed sym (codeOperand s.cw len) (before.closed.follow_lt before.rootLt leads) fits
  refine ⟨pre, codeBits (codeOperand s.cw len) (k + 1), pos ▸ code, ?_⟩
  rw [show t.arena = placePath sym (codeOperand s.cw len) k n (loadTree s).2 by rw [commit]; rfl]
  refine ⟨before.closed, before.rootLt, leads, internal, free, List.cons_ne_nil _ _, placed, ?_⟩
  rw [placed.next]
  simpa using fits

include fresh

/-- LOADCODE's commit makes a good LOADED job of a good EMPTY or LOADED one. -/
theorem phaseInv_of_commit : PhaseInv t := by
  obtain ⟨before, root⟩ := h.loadable phase
  obtain ⟨freq, total, ndist, cost⟩ := h.uncounted phase
  obtain ⟨pre, suf, code, graft⟩ := commit_grafted h phase some walk fits commit
  obtain ⟨cursorLt, cursorKind⟩ := commit_cursor h phase commit
  have table : t.table = s.table.assign sym len (codeOperand s.cw len) := by rw [commit]; rfl
  have count := validCount_assign table fresh
  have ndist' : t.ndist.toNat = t.validCount := by
    have := validCount_le t
    rw [show t.ndist = s.ndist + 1#9 by rw [commit]; rfl, BitVec.toNat_add, Nat.mod_eq_of_lt (by simp; omega), count, ndist]
    rfl
  have troot : t.root = (loadTree s).1 := by rw [commit]; rfl
  rw [← troot] at before graft root
  have next := graft.next
  have old_lt {j : NodeIdx} (hj : j.toNat < (loadTree s).2.next.toNat) : j.toNat < t.arena.next.toNat := by omega
  have walkable : WalkableTree t := ⟨graft.fits, ⟨old_lt before.rootLt, (graft.kind_old before.rootLt).trans before.internal⟩,
    ⟨old_lt cursorLt, (graft.kind_old cursorLt).trans cursorKind⟩, graft.closed_new⟩
  have two : 2 ≤ t.next.toNat := by
    have := List.length_pos_iff.mpr graft.nonempty
    have := before.rootLt
    rw [arena_next] at next
    omega
  exact (phaseInv_loaded (by rw [commit]; rfl)).mpr ⟨walkable, tableMatches_of_commit before graft table code fresh,
    leavesAreCodes_of_commit before graft table code fresh, by rw [commit]; exact freq, by rw [commit]; exact total, root,
    ndist', by omega, two, by rw [commit]; exact cost⟩

end Commit

theorem PhaseInv.loadcodeEffect {s : State} (h : PhaseInv s) (phase : s.phase = .empty ∨ s.phase = .loaded) (sym : Symbol)
    (len : BitVec 8) : PhaseInv (loadcodeEffect sym len s) := by
  obtain r | ⟨n, k, some, fresh, walk, fits, e⟩ := loadcodeEffect_cases sym len s
  · exact h.sameJob r.sameJob
  · exact phaseInv_of_commit h phase some fresh walk fits e

/-! ### Every step keeps a good job good -/

theorem PhaseInv.exec {i : Instr} {s t : State} (h : PhaseInv s) (e : exec i s = .next t) : PhaseInv t := by
  obtain r | ⟨-, -, legal, rfl⟩ := exec_cases e
  · exact h.sameJob r.sameJob
  cases i with
  | nop => exact h
  | clear => exact phaseInv_clearEffect s
  | count sym => exact h.countEffect (by simpa [legalIn_count] using legal) sym
  | build => exact h.buildEffect (by simpa [legalIn_build] using legal)
  | gen => exact h.genEffect ((legalIn_gen _).mp legal)
  | encode sym => exact h.sameJob (sameJob_encodeEffect sym s)
  | flush => exact h.sameJob (sameJob_flushEffect s)
  | decode n bits => exact h.decodeEffect (legalIn_decode n bits s.phase ▸ legal) n bits
  | decend => exact h.sameJob (decendEffect_recorded s).sameJob
  | loadcode sym len => exact h.loadcodeEffect ((legalIn_loadcode sym len _).mp legal) sym len
  | readcode sym => exact h.sameJob (sameJob_readcodeEffect sym s)
  | readfreq sym => exact h.sameJob rfl
  | readnode idx => exact h.sameJob (sameJob_readnodeEffect idx s)
  | ackerr => exact h.acknowledge

theorem PhaseInv.step {s t : State} (h : PhaseInv s) (e : step s = .next t) : PhaseInv t := by
  have later (rest : List Event) : PhaseInv { s with schedule := rest } := h.sameJob rfl
  have consumed (rest : List Event) : PhaseInv (s.consumed rest) := h.sameJob rfl
  cases step_kind e with
  | idle rest result => rw [result]; exact later rest
  | reads rest idx result => rw [result]; exact (later rest).sameJob (sameJob_hostRead idx _)
  | writes rest idx v result => rw [result]; exact (later rest).sameJob (sameJob_regWrite idx v _)
  | resets rest _ result => rw [result]; exact phaseInv_resetInput _
  | runs rest w i _ _ _ result => exact (consumed rest).exec result
  | illegal rest w result => exact (consumed rest).sameJob (result ▸ (illegalWord_recorded w _).sameJob)

/-- Settles O60: the structure by `Inv.step`, the phase invariant by `PhaseInv.step`. -/
theorem stepKeepsAGoodJob : Obligations.StepKeepsAGoodJob := by
  unfold Obligations.StepKeepsAGoodJob
  exact fun _ _ good e => ⟨good.structural.step e, good.phased.step e⟩

/-- Settles O59: the reset state is what the reset input makes of itself. -/
theorem resetStateIsAGoodJob : Obligations.ResetStateIsAGoodJob := by
  unfold Obligations.ResetStateIsAGoodJob
  exact ⟨resetStateIsWellStructured, phaseInv_resetInput State.reset⟩

end Sys2Proof.Machine
end

section
/-! SUPPORT. The registers on their own: CW, STATUS, the reset values, and which steps and commands may change a register
(10_state.md R25, R27, R37, R41, R48). -/

namespace Sys2Proof.Machine

/-! ### The parts of a concatenation -/

/-- Bits above the low part of a concatenation are the high part's. -/
theorem extractLsb'_above {v w start len : Nat} {x : BitVec v} {y : BitVec w} {z : BitVec len}
    (h : x.extractLsb' start len = z) : (x ++ y).extractLsb' (w + start) len = z := by
  rw [BitVec.extractLsb'_append_eq_of_le (Nat.le_add_right w start), Nat.add_sub_cancel_left, h]

theorem getLsbD_above {v w i : Nat} {x : BitVec v} {y : BitVec w} {b : Bool} (h : x.getLsbD i = b) :
    (x ++ y).getLsbD (w + i) = b := by
  rw [BitVec.getLsbD_append, if_neg (by omega), Nat.add_sub_cancel_left, h]

theorem getLsbD_append_ofBool {v : Nat} (x : BitVec v) (b : Bool) : (x ++ BitVec.ofBool b).getLsbD 0 = b := by
  rw [BitVec.getLsbD_append, if_pos Nat.one_pos, BitVec.getLsbD_ofBool]
  simp

/-! ### CW (10_state.md R37) -/

theorem cw_extract (s : State) (k : Fin 8) : s.cw.extractLsb' (32 * k.val) 32 = s.codew[k] := by
  have low {v : Nat} (x : BitVec v) (y : Word) : (x ++ y).extractLsb' 0 32 = y := BitVec.extractLsb'_append_eq_right
  have up {v start : Nat} {x : BitVec v} {y z : Word} (h : x.extractLsb' start 32 = z) :
      (x ++ y).extractLsb' (32 + start) 32 = z := extractLsb'_above h
  fin_cases k
  · exact low _ _
  · exact up (low _ _)
  · exact up (up (low _ _))
  · exact up (up (up (low _ _)))
  · exact up (up (up (up (low _ _))))
  · exact up (up (up (up (up (low _ _)))))
  · exact up (up (up (up (up (up (low _ _))))))
  · exact up (up (up (up (up (up (up BitVec.extractLsb'_eq_self))))))

/-- A 256-bit value is determined by its eight words. -/
theorem eq_of_words {x y : BitVec 256} (h : ∀ k : Fin 8, x.extractLsb' (32 * k.val) 32 = y.extractLsb' (32 * k.val) 32) :
    x = y := by
  apply BitVec.eq_of_getLsbD_eq
  intro i hi
  have word := congrArg (BitVec.getLsbD · (i % 32)) (h ⟨i / 32, by omega⟩)
  simpa [BitVec.getLsbD_extractLsb', Nat.mod_lt, Nat.div_add_mod] using word

theorem cw_codewOf (s : State) (cw : BitVec 256) : { s with codew := codewOf cw }.cw = cw :=
  eq_of_words fun k => (cw_extract _ k).trans (by simp [codewOf])

/-- Settles O46. -/
theorem cwIsTheCodewRegisters : Obligations.CwIsTheCodewRegisters := by
  unfold Obligations.CwIsTheCodewRegisters
  exact ⟨cw_extract, cw_codewOf⟩

/-! ### STATUS (10_state.md R41) -/

section Status
variable (s : State)

theorem status_busy : s.status.getLsbD 0 = s.busy := getLsbD_append_ofBool _ _

theorem status_phase : s.status.extractLsb' 1 3 = s.phase.code := extractLsb'_above BitVec.extractLsb'_append_eq_right

theorem status_err : s.status.extractLsb' 4 4 = s.err.code :=
  extractLsb'_above (w := 1) (extractLsb'_above (w := 3) BitVec.extractLsb'_append_eq_right)

theorem status_overrun : s.status.getLsbD 8 = s.overrun :=
  getLsbD_above (w := 1) (getLsbD_above (w := 3) (getLsbD_above (w := 4) (getLsbD_append_ofBool _ _)))

theorem status_underflow : s.status.getLsbD 9 = s.underflow :=
  getLsbD_above (w := 1) (getLsbD_above (w := 3) (getLsbD_above (w := 4) (getLsbD_above (w := 1) (getLsbD_append_ofBool _ _))))

theorem status_atRoot : s.status.getLsbD 10 = s.atRoot :=
  getLsbD_above (w := 1) (getLsbD_above (w := 3) (getLsbD_above (w := 4) (getLsbD_above (w := 1) (getLsbD_above (w := 1)
    (getLsbD_append_ofBool _ _)))))

theorem status_reserved : s.status.extractLsb' 11 21 = 0#21 :=
  extractLsb'_above (w := 1) (extractLsb'_above (w := 3) (extractLsb'_above (w := 4) (extractLsb'_above (w := 1)
    (extractLsb'_above (w := 1) BitVec.extractLsb'_append_eq_left))))

end Status

theorem busy_eq (s : State) : s.busy = decide (s.pending ≠ none) := by
  cases h : s.pending <;> simp [State.busy, h]

theorem atRoot_eq (s : State) : s.atRoot = decide (s.root ≠ NULL ∧ s.cursor = s.root) :=
  (Bool.decide_and _ _).symm

theorem phaseCode_le (p : Phase) : p.code.toNat ≤ 4 := by cases p <;> decide

theorem errCode_le (e : ErrCode) : e.code.toNat ≤ 9 := by cases e <;> decide

/-- Settles O47. -/
theorem statusShowsItsFields : Obligations.StatusShowsItsFields := by
  unfold Obligations.StatusShowsItsFields
  refine ⟨fun s => ⟨?_, status_phase s, status_err s, status_overrun s, status_underflow s, ?_, status_reserved s,
    fun _ => rfl, phaseCode_le s.phase, errCode_le s.err⟩, by decide, _, rfl, by decide⟩
  · rw [status_busy, busy_eq]
  · rw [status_atRoot, atRoot_eq]

/-! ### The reset values (10_state.md R48) -/

/-- Settles O51. -/
theorem resetStateIsTheSpecs : Obligations.ResetStateIsTheSpecs := by
  unfold Obligations.ResetStateIsTheSpecs
  refine ⟨rfl, rfl, rfl, rfl, rfl, rfl, fun _ => rfl, rfl, rfl, rfl, rfl, rfl, fun _ => rfl, rfl, rfl, rfl, rfl, rfl, rfl, rfl,
    fun k => ?_⟩
  exact Vector.getElem_replicate k.isLt

/-! ### PHASE (10_state.md R25) -/

/-- A step that leaves the job leaves PHASE. -/
theorem SameJob.phase {s t : State} (h : SameJob s t) : t.phase = s.phase := (congrArg State.phase h : _).trans rfl

/-- The command is one of those that R25 lets change PHASE, with the phases before and after. -/
def Transition (i : Instr) (s t : State) : Prop :=
  (∃ sym, i = .count sym ∧ s.phase = .empty ∧ t.phase = .counting) ∨
    (i = .build ∧ s.phase = .counting ∧ t.phase = .built) ∨ (i = .gen ∧ s.phase = .built ∧ t.phase = .ready) ∨
    ∃ sym len, i = .loadcode sym len ∧ s.phase = .empty ∧ t.phase = .loaded

theorem not_hasTree_iff (p : Phase) : hasTree p = false ↔ p = .empty ∨ p = .counting := by cases p <;> simp [hasTree]

/-- In a good job a command changes PHASE only by the transitions of R25, and then leaves ERR. -/
theorem effectOf_changes_phase {i : Instr} {s : State} (h : PhaseInv s) (legal : legalIn i s.phase = true)
    (changed : (effectOf i s).phase ≠ s.phase) :
    (i = .clear ∧ (effectOf i s).phase = .empty) ∨
      (keptInError i.opcode = false ∧ (effectOf i s).err = s.err ∧ Transition i s (effectOf i s)) := by
  cases i with
  | nop => exact absurd rfl changed
  | clear => exact .inl ⟨rfl, rfl⟩
  | count sym =>
    obtain r | ⟨-, e⟩ := countEffect_cases sym s
    · exact absurd r.sameJob.phase changed
    · rw [show effectOf (.count sym) s = countSymbol sym s from e] at changed ⊢
      rw [legalIn_count, Bool.not_eq_true', not_hasTree_iff] at legal
      have empty := legal.resolve_right fun counting => changed counting.symm
      exact .inr ⟨rfl, rfl, .inl ⟨sym, rfl, empty, rfl⟩⟩
  | build =>
    obtain r | ⟨some, e⟩ := buildEffect_cases s
    · exact absurd r.sameJob.phase changed
    · rw [show effectOf .build s = s.built from e]
      rw [legalIn_build, Bool.not_eq_true', not_hasTree_iff] at legal
      have counting := legal.resolve_left fun empty => some ((phaseInv_empty empty).mp h).2.2.2
      exact .inr ⟨rfl, rfl, .inr (.inl ⟨rfl, counting, rfl⟩)⟩
  | gen => exact .inr ⟨rfl, rfl, .inr (.inr (.inl ⟨rfl, (legalIn_gen _).mp legal, rfl⟩))⟩
  | encode sym => exact absurd (sameJob_encodeEffect sym s).phase changed
  | flush => exact absurd (sameJob_flushEffect s).phase changed
  | decode n bits => exact absurd (decodeEffect_recorded n bits s).sameJob.phase changed
  | decend => exact absurd (decendEffect_recorded s).sameJob.phase changed
  | loadcode sym len =>
    obtain r | ⟨n, k, -, -, -, -, e⟩ := loadcodeEffect_cases sym len s
    · exact absurd r.sameJob.phase changed
    · rw [show effectOf (.loadcode sym len) s = _ from e] at changed ⊢
      have empty := ((legalIn_loadcode sym len _).mp legal).resolve_right fun loaded => changed loaded.symm
      exact .inr ⟨rfl, rfl, .inr (.inr (.inr ⟨sym, len, rfl, empty, rfl⟩))⟩
  | readcode sym => exact absurd (sameJob_readcodeEffect sym s).phase changed
  | readfreq sym => exact absurd rfl changed
  | readnode idx => exact absurd (sameJob_readnodeEffect idx s).phase changed
  | ackerr => exact absurd rfl changed

/-- Settles O54: only a command or the reset input changes PHASE, and a command does so in its effect. -/
theorem phaseChangesOnlyAsListed : Obligations.PhaseChangesOnlyAsListed := by
  unfold Obligations.PhaseChangesOnlyAsListed
  intro s t good e changed
  cases step_kind e with
  | idle rest result => exact absurd (result ▸ rfl) changed
  | reads rest idx result => exact absurd (result ▸ (sameJob_hostRead idx _).phase) changed
  | writes rest idx v result => exact absurd (result ▸ (sameJob_regWrite idx v _).phase) changed
  | resets rest scheduled result => exact .inl ⟨scheduled, by rw [result]; rfl⟩
  | illegal rest w result => exact absurd (result ▸ (illegalWord_recorded w _).sameJob.phase) changed
  | runs rest w i turn _ _ result =>
    have consumed : PhaseInv (s.consumed rest) := good.phased.sameJob rfl
    obtain r | ⟨kept, -, legal, rfl⟩ := exec_cases result
    · exact absurd r.sameJob.phase changed
    obtain ⟨rfl, empty⟩ | ⟨dropped, err, transition⟩ := effectOf_changes_phase consumed legal changed
    · exact .inr (.inl ⟨turn, empty⟩)
    · have none : s.err = .noError := by
        have : (s.consumed rest).err = .noError := by simpa [State.drops, dropped] using kept
        exact this
      refine .inr (.inr ⟨none, err.trans none, ?_⟩)
      obtain ⟨sym, rfl, p⟩ | ⟨rfl, p⟩ | ⟨rfl, p⟩ | ⟨sym, len, rfl, p⟩ := transition
      · exact .inl ⟨sym, turn, p⟩
      · exact .inr (.inl ⟨turn, p⟩)
      · exact .inr (.inr (.inl ⟨turn, p⟩))
      · exact .inr (.inr (.inr ⟨sym, len, turn, p⟩))

/-! ### Which command may change which register (10_state.md R27 to R37) -/

/-- `s` with the registers that the command `i` may change taken from `t`. -/
def State.changedBy (s : State) (i : Instr) (t : State) : State :=
  let u := { s with phase := t.phase, err := t.err, errinfo := t.errinfo }
  match i with
  | .nop | .decend => u
  | .clear =>
    { u with
      freq := t.freq, total := t.total, ndist := t.ndist, next := t.next, root := t.root, cvalid := t.cvalid
      cursor := t.cursor, out := t.out, packbuf := t.packbuf, packcnt := t.packcnt, bitcnt := t.bitcnt, cost := t.cost
      result0 := t.result0, result1 := t.result1, codew := t.codew }
  | .count _ => { u with freq := t.freq, total := t.total, ndist := t.ndist }
  | .build => { u with node := t.node, next := t.next, root := t.root, cursor := t.cursor }
  | .gen => { u with cvalid := t.cvalid, clen := t.clen, cval := t.cval, cost := t.cost }
  | .encode _ => { u with out := t.out, packbuf := t.packbuf, packcnt := t.packcnt, bitcnt := t.bitcnt }
  | .flush => { u with out := t.out, packbuf := t.packbuf, packcnt := t.packcnt }
  | .decode _ _ => { u with cursor := t.cursor, out := t.out }
  | .loadcode _ _ =>
    { u with
      node := t.node, next := t.next, root := t.root, cursor := t.cursor, ndist := t.ndist
      cvalid := t.cvalid, clen := t.clen, cval := t.cval }
  | .readcode _ => { u with result0 := t.result0, result1 := t.result1, codew := t.codew }
  | .readfreq _ | .readnode _ => { u with result0 := t.result0, result1 := t.result1 }
  | .ackerr => { u with overrun := t.overrun, underflow := t.underflow, cursor := t.cursor }

/-- A recorded error is within what any command may change. -/
theorem Recorded.changedBy {s t : State} (r : Recorded s t) (i : Instr) : t = s.changedBy i t := by
  obtain rfl | ⟨-, e, info, -, rfl⟩ := r <;> cases i <;> rfl

theorem decodeEffect_frame (n : BitVec 5) (bits : BitVec 16) (s : State) :
    decodeEffect n bits s = s.changedBy (.decode n bits) (decodeEffect n bits s) := by
  obtain e | ⟨-, e, info, -, e'⟩ := decodeEffect_recorded n bits s
  · rw [e]; rfl
  · rw [e']; rfl

/-- Each command's effect changes only the command's registers. -/
theorem effectOf_frame (i : Instr) (s : State) : effectOf i s = s.changedBy i (effectOf i s) := by
  cases i with
  | nop => rfl
  | clear => rfl
  | count sym =>
    obtain r | ⟨-, e⟩ := countEffect_cases sym s
    · exact r.changedBy _
    · rw [effectOf, e]; rfl
  | build =>
    obtain r | ⟨-, e⟩ := buildEffect_cases s
    · exact r.changedBy _
    · rw [effectOf, e]; rfl
  | gen => rfl
  | encode sym =>
    obtain r | e := encodeEffect_cases sym s
    · exact r.changedBy _
    · rw [effectOf, e]; rfl
  | flush => obtain e | e := flushEffect_cases s <;> rw [effectOf, e] <;> rfl
  | decode n bits => exact decodeEffect_frame n bits s
  | decend => exact (decendEffect_recorded s).changedBy _
  | loadcode sym len =>
    obtain r | ⟨n, k, -, -, -, -, e⟩ := loadcodeEffect_cases sym len s
    · exact r.changedBy _
    · rw [effectOf, e]; rfl
  | readcode sym => rw [effectOf, readcodeEffect_frame]; rfl
  | readfreq sym => rfl
  | readnode idx => rw [effectOf, readnodeEffect_frame]; rfl
  | ackerr => rfl

/-- A command changes only its registers. -/
theorem exec_frame {i : Instr} {s t : State} (e : exec i s = .next t) : t = s.changedBy i t := by
  obtain r | ⟨-, -, -, rfl⟩ := exec_cases e
  · exact r.changedBy i
  · exact effectOf_frame i s

/-- Settles O56: each register read off the command's frame. -/
theorem commandsChangeOnlyTheirRegisters : Obligations.CommandsChangeOnlyTheirRegisters := by
  unfold Obligations.CommandsChangeOnlyTheirRegisters
  intro i s t e
  rw [exec_frame e]
  cases i <;> simp [State.changedBy, Instr.mnemonic]

/-! ### The sticky flags (10_state.md R27) -/

/-- A command other than ACKERR leaves both flags. -/
theorem exec_flags {i : Instr} {s t : State} (e : exec i s = .next t) (other : i ≠ .ackerr) :
    t.overrun = s.overrun ∧ t.underflow = s.underflow := by
  rw [exec_frame e]
  revert other
  cases i <;> simp [State.changedBy]

/-- A Host read clears no flag. -/
theorem hostRead_flags (idx : BitVec 6) (s : State) :
    (hostRead idx s).overrun = s.overrun ∧ (s.underflow = true → (hostRead idx s).underflow = true) := by
  unfold hostRead regRead popOut
  split
  · split
    · exact ⟨rfl, fun _ => rfl⟩
    · exact ⟨rfl, id⟩
  · exact ⟨rfl, id⟩

/-- A Host write clears no flag. -/
theorem regWrite_flags (idx : BitVec 6) (v : Word) (s : State) :
    (s.overrun = true → (regWrite idx v s).overrun = true) ∧ (regWrite idx v s).underflow = s.underflow := by
  unfold regWrite
  split
  · split
    · exact ⟨fun _ => rfl, rfl⟩
    · exact ⟨id, rfl⟩
  · split
    · exact ⟨fun _ => rfl, rfl⟩
    · exact ⟨id, rfl⟩
  · exact ⟨id, rfl⟩

theorem Recorded.flags {s t : State} (r : Recorded s t) : t.overrun = s.overrun ∧ t.underflow = s.underflow := by
  obtain rfl | ⟨-, e, info, -, rfl⟩ := r <;> exact ⟨rfl, rfl⟩

/-- A step keeps a flag that is set, or it runs an ACKERR or is the reset event. -/
theorem step_keeps_flags {s t : State} (e : step s = .next t) :
    ((s.overrun = true → t.overrun = true) ∧ (s.underflow = true → t.underflow = true)) ∨
      s.runsNext .ackerr ∨ s.schedule.head? = some .reset := by
  cases step_kind e with
  | idle rest result => rw [result]; exact .inl ⟨id, id⟩
  | reads rest idx result =>
    obtain ⟨overrun, underflow⟩ := hostRead_flags idx { s with schedule := rest }
    rw [result, overrun]
    exact .inl ⟨id, underflow⟩
  | writes rest idx v result =>
    obtain ⟨overrun, underflow⟩ := regWrite_flags idx v { s with schedule := rest }
    rw [result, underflow]
    exact .inl ⟨overrun, id⟩
  | resets rest scheduled _ => exact .inr (.inr scheduled)
  | runs rest w i turn _ _ result =>
    by_cases ack : i = .ackerr
    · exact .inr (.inl (ack ▸ turn))
    · obtain ⟨overrun, underflow⟩ := exec_flags result ack
      rw [overrun, underflow]
      exact .inl ⟨id, id⟩
  | illegal rest w result =>
    obtain ⟨overrun, underflow⟩ := (illegalWord_recorded w (s.consumed rest)).flags
    rw [result, overrun, underflow]
    exact .inl ⟨id, id⟩

/-- Settles O55. -/
theorem stickyFlagsAreClearedOnlyByAckerr : Obligations.StickyFlagsAreClearedOnlyByAckerr := by
  unfold Obligations.StickyFlagsAreClearedOnlyByAckerr
  intro s t e cleared
  refine (step_keeps_flags e).resolve_left fun ⟨overrun, underflow⟩ => ?_
  obtain ⟨set, clear⟩ | ⟨set, clear⟩ := cleared
  · rw [overrun set] at clear; cases clear
  · rw [underflow set] at clear; cases clear

end Sys2Proof.Machine
end

section
/-! SUPPORT. The host port (20_memory.md R50 to R56): which register stands at which word, what RegRead and RegWrite do
with each, and a Host access as a step of the machine. -/

namespace Sys2Proof.Machine

/-! ### The register map (10_state.md R40) -/

/-- A register stands at the word index of its own. -/
@[simp] theorem ofIdx_idx (r : Reg) : Reg.ofIdx r.idx = r := by
  cases r with
  | codew k => revert k; decide
  | _ => rfl

/-- Below the reserved words the index is that of the register there. -/
theorem idx_ofIdx {idx : BitVec 6} (h : idx.toNat < 28) : (Reg.ofIdx idx).idx = idx := by
  revert idx
  decide

theorem ofIdx_eq_reserved_iff (idx : BitVec 6) : Reg.ofIdx idx = .reserved ↔ 28 ≤ idx.toNat := by
  revert idx
  decide

/-- A register that is not reserved stands at one word only. -/
theorem ofIdx_eq_iff {r : Reg} (named : r ≠ .reserved) (idx : BitVec 6) : Reg.ofIdx idx = r ↔ idx = r.idx := by
  constructor
  · rintro rfl
    rw [idx_ofIdx]
    exact Nat.lt_of_not_le fun past => named ((ofIdx_eq_reserved_iff idx).mpr past)
  · rintro rfl
    exact ofIdx_idx r

theorem ofIdx_eq_codew_iff (idx : BitVec 6) (k : Fin 8) : Reg.ofIdx idx = .codew k ↔ idx.toNat = 20 + k.val := by
  rw [ofIdx_eq_iff (by simp), Reg.idx, ← BitVec.toNat_inj, BitVec.toNat_ofNat,
    Nat.mod_eq_of_lt (by omega : 20 + k.val < 2 ^ 6)]

/-! ### RegRead (20_memory.md R51, R53) -/

theorem popOut_of_nil {s : State} (h : s.out = []) : popOut s = { s with underflow := true } := by simp [popOut, h]

theorem popOut_of_cons {s : State} {w : Word} {out' : List Word} (h : s.out = w :: out') :
    popOut s = { s with out := out' } := by simp [popOut, h]

/-- A read returns the value of the register at the word. -/
theorem regRead_fst (idx : BitVec 6) (s : State) : (regRead idx s).1 = s.regValue (Reg.ofIdx idx) := by
  unfold regRead
  split
  · next h => rw [h]
  · rfl

@[simp] theorem regRead_idx (r : Reg) (s : State) : (regRead r.idx s).1 = s.regValue r := by
  rw [regRead_fst, ofIdx_idx]

/-- A read of any word but OUT_DATA has no side effect (R54). -/
theorem regRead_snd {idx : BitVec 6} (other : idx ≠ 12#6) (s : State) : (regRead idx s).2 = s := by
  unfold regRead
  split
  · next h => exact absurd ((ofIdx_eq_iff (by simp) idx).mp h) other
  · rfl

theorem regRead_outData_of_nil {s : State} (h : s.out = []) : regRead 12#6 s = (0#32, { s with underflow := true }) := by
  rw [← popOut_of_nil h, show (0#32 : Word) = s.regValue .outData by simp [State.regValue, h]]
  rfl

theorem regRead_outData_of_cons {s : State} {w : Word} {out' : List Word} (h : s.out = w :: out') :
    regRead 12#6 s = (w, { s with out := out' }) := by
  rw [← popOut_of_cons h, show w = s.regValue .outData by simp [State.regValue, h]]
  rfl

/-! ### RegWrite (20_memory.md R52) -/

section RegWrite
variable {idx : BitVec 6} {s : State} (v : Word)

theorem regWrite_cmd_free (free : s.pending = none) : regWrite 2#6 v s = { s with pending := some v } := by
  simp [regWrite, Reg.ofIdx, State.busy, free]

theorem regWrite_codew_free {k : Fin 8} (h : Reg.ofIdx idx = .codew k) (free : s.pending = none) :
    regWrite idx v s = { s with codew := s.codew.set k.val v } := by
  simp [regWrite, h, State.busy, free]

/-- While BUSY a write that would take effect is dropped, and sets OVERRUN. -/
theorem regWrite_busy (writable : Reg.ofIdx idx = .cmd ∨ ∃ k, Reg.ofIdx idx = .codew k) (busy : s.pending ≠ none) :
    regWrite idx v s = { s with overrun := true } := by
  have : s.busy = true := by rw [busy_eq, decide_eq_true busy]
  obtain h | ⟨k, h⟩ := writable <;> simp [regWrite, h, this]

theorem regWrite_readOnly (cmd : Reg.ofIdx idx ≠ .cmd) (codew : ∀ k, Reg.ofIdx idx ≠ .codew k) :
    regWrite idx v s = s := by
  unfold regWrite
  split
  · next h => exact absurd h cmd
  · next k h => exact absurd h (codew k)
  · rfl

end RegWrite

/-- Settles O42: each word by its register, and the two sides of a pop. -/
theorem regReadFollowsTheMap : Obligations.RegReadFollowsTheMap := by
  unfold Obligations.RegReadFollowsTheMap
  intro s
  have value (r : Reg) : (regRead r.idx s).1 = s.regValue r := regRead_idx r s
  refine ⟨value .id, value .config, value .cmd, value .status, value .errinfo, value .ndist, value .total, value .root,
    value .next, value .cursor, value .result0, value .result1, value .outCount, value .packcnt, value .packbuf, ?_, ?_,
    fun k => value (.codew k), fun _ _ => regRead_outData_of_cons, regRead_outData_of_nil, fun idx reserved => ?_,
    fun _ other => regRead_snd other s⟩
  · exact (congrArg₂ _ (value .bitcntHi) (value .bitcntLo)).trans BitVec.extractLsb'_append_extractLsb'
  · exact (congrArg₂ _ (value .costHi) (value .costLo)).trans BitVec.extractLsb'_append_extractLsb'
  · have register := (ofIdx_eq_reserved_iff idx).mpr reserved
    exact ⟨by rw [regRead_fst, register]; rfl, fun v => regWrite_readOnly v (by simp [register]) (by simp [register])⟩

/-- Settles O45: the words that take a write are CMD's and those of CODEW. -/
theorem regWriteFollowsTheMap : Obligations.RegWriteFollowsTheMap := by
  unfold Obligations.RegWriteFollowsTheMap
  intro s idx v
  refine ⟨fun writable busy => regWrite_busy v ?_ busy, ?_, fun k h free => ?_, fun cmd codew => ?_⟩
  · obtain h | ⟨low, high⟩ := writable
    · exact .inl ((ofIdx_eq_iff (by simp) idx).mpr h)
    · exact .inr ⟨⟨idx.toNat - 20, by omega⟩, (ofIdx_eq_codew_iff idx _).mpr (by simp; omega)⟩
  · rintro rfl free
    exact regWrite_cmd_free v free
  · exact regWrite_codew_free v ((ofIdx_eq_codew_iff idx k).mpr h) free
  · refine regWrite_readOnly v (fun h => cmd ((ofIdx_eq_iff (by simp) idx).mp h)) fun k h => codew ?_
    have := (ofIdx_eq_codew_iff idx k).mp h
    omega

/-! ### A Host access as a step (20_memory.md R51 to R54, R61) -/

/-- What a read returns does not hang on the events still to come. -/
theorem regRead_fst_schedule (idx : BitVec 6) (s : State) (rest : List Event) :
    (regRead idx { s with schedule := rest }).1 = (regRead idx s).1 := by
  rw [regRead_fst, regRead_fst]
  cases Reg.ofIdx idx <;> rfl

/-- A write neither reads nor changes the events still to come. -/
theorem regWrite_schedule (idx : BitVec 6) (v : Word) (s : State) (rest : List Event) :
    regWrite idx v { s with schedule := rest } = { regWrite idx v s with schedule := rest } := by
  unfold regWrite
  cases Reg.ofIdx idx with
  | cmd => cases free : s.pending <;> simp [State.busy, free]
  | codew k => cases free : s.pending <;> simp [State.busy, free]
  | _ => rfl

/-- A read of any word but OUT_DATA changes only the Host's record. -/
theorem hostRead_of_ne {idx : BitVec 6} (other : idx ≠ 12#6) (s : State) :
    hostRead idx s = { s with hostReads := s.hostReads ++ [(idx, (regRead idx s).1)] } := by
  simp [hostRead, regRead_snd other]

/-- Settles O43. -/
theorem hostAccessIsAStep : Obligations.HostAccessIsAStep := by
  unfold Obligations.HostAccessIsAStep
  refine fun s idx rest => ⟨fun scheduled other => ?_, fun v scheduled => ?_⟩
  · rw [step_of_cons scheduled, happen, hostRead_of_ne other, regRead_fst_schedule]
  · rw [step_of_cons scheduled, happen, regWrite_schedule]

/-- Settles O44. -/
theorem outDataPopsTheFifo : Obligations.OutDataPopsTheFifo := by
  unfold Obligations.OutDataPopsTheFifo
  refine fun s rest scheduled => ⟨fun w out' holds => ?_, fun empty => ?_⟩
  · rw [step_of_cons scheduled, happen, hostRead, regRead_outData_of_cons (s := { s with schedule := rest }) holds]
  · rw [step_of_cons scheduled, happen, hostRead, regRead_outData_of_nil (s := { s with schedule := rest }) empty]

/-! ### A byte-addressed bridge (20_memory.md R50, R56) -/

theorem busAccess_word {off : BitVec 32} (aligned : off.toNat % 4 = 0) (inside : off.toNat < 256)
    (access : BitVec 6 → State → State) (s : State) :
    busAccess off access s = .next (access (BitVec.ofNat 6 (off.toNat / 4)) s) := by
  obtain ⟨h, -⟩ | ⟨-, h, -⟩ | ⟨-, -, e⟩ := busAccess_cases off access s
  · exact absurd aligned h
  · omega
  · exact e

theorem busAccess_misaligned {off : BitVec 32} (misaligned : off.toNat % 4 ≠ 0) (access : BitVec 6 → State → State)
    (s : State) : busAccess off access s = .refused .misalignedOffset := by simp [busAccess, misaligned]

/-- Settles O48. -/
theorem busOffsetsNameWords : Obligations.BusOffsetsNameWords := by
  unfold Obligations.BusOffsetsNameWords
  exact fun s off =>
    ⟨fun aligned inside => ⟨busAccess_word aligned inside hostRead s,
        fun v => busAccess_word aligned inside (fun idx => regWrite idx v) s⟩,
      fun misaligned => ⟨busAccess_misaligned misaligned hostRead s,
        fun v => busAccess_misaligned misaligned (fun idx => regWrite idx v) s⟩⟩

end Sys2Proof.Machine
end

section
/-! SUPPORT. The Engine's hold (20_memory.md R57, R58, R61): what a command waits for, what its step does to PENDING, and
that no Host access takes the step away. -/

namespace Sys2Proof.Machine

/-! ### need(w) and when the Engine's step is enabled (20_memory.md R57) -/

/-- R57's table. -/
theorem need_eq (w : Word) : need w =
    if opcodeOf w = 0x05#8 then 8
    else if opcodeOf w = 0x06#8 then 1
    else if opcodeOf w = 0x07#8 ∧ 1 ≤ (nField (operandOf w)).toNat ∧ (nField (operandOf w)).toNat ≤ 16 then
      (nField (operandOf w)).toNat
    else 0 := by
  simp only [← BitVec.toNat_inj]
  unfold need
  split
  · next op => simp [op]
  · next op => simp [op]
  · next op => simp [op]
  · next notEncode notFlush notDecode => simp [eq_false notEncode, eq_false notFlush, eq_false notDecode]

theorem need_le (w : Word) : need w ≤ 16 := by
  rw [need_eq]
  split_ifs <;> omega

theorem roomFor_iff (s : State) (w : Word) : s.roomFor w = true ↔ s.out.length + need w ≤ s.params.fifoDepth :=
  decide_eq_true_iff

theorem engineEnabled_of_pending {s : State} {w : Word} (h : s.pending = some w) : s.engineEnabled = s.roomFor w := by
  simp [State.engineEnabled, h]

theorem engineEnabled_iff (s : State) :
    s.engineEnabled = true ↔ ∃ w, s.pending = some w ∧ s.out.length + need w ≤ s.params.fifoDepth := by
  cases h : s.pending with
  | none => simp [State.engineEnabled, h]
  | some w => simp [engineEnabled_of_pending h, roomFor_iff]

/-! ### The Engine's turn (20_memory.md R57, R58, 30_encoding.md R90) -/

theorem engineStep_of_ok {w : Word} {i : Instr} (h : decode w = .ok i) (s : State) :
    engineStep w s = exec i { s with pending := none } := by simp [engineStep, h]

theorem engineStep_of_error {w : Word} {e : DecodeError} (h : decode w = .error e) (s : State) :
    engineStep w s = .next (illegalWord w { s with pending := none }) := by simp [engineStep, h]

theorem engineTurn_of_room {s : State} {w : Word} (h : s.pending = some w) (room : s.roomFor w = true) :
    engineTurn s = engineStep w s := by simp [engineTurn, h, room]

theorem engineTurn_of_full {s : State} {w : Word} (h : s.pending = some w) (full : s.roomFor w = false) :
    engineTurn s = .next s := by simp [engineTurn, h, full]

theorem Recorded.pending {s t : State} (r : Recorded s t) : t.pending = s.pending := by
  obtain rfl | ⟨-, e, info, -, rfl⟩ := r <;> rfl

/-- Running a command leaves PENDING to the dispatch. -/
theorem exec_pending {i : Instr} {s t : State} (e : exec i s = .next t) : t.pending = s.pending := by
  rw [exec_frame e]
  cases i <;> rfl

/-- The Engine's step consumes PENDING, whether or not the word is legal. -/
theorem engineStep_consumes (w : Word) (s : State) : ∃ t, engineStep w s = .next t ∧ t.pending = none := by
  cases h : decode w with
  | ok i =>
    obtain ⟨t, e⟩ := exec_next i { s with pending := none }
    exact ⟨t, (engineStep_of_ok h s).trans e, exec_pending e⟩
  | error e =>
    exact ⟨_, engineStep_of_error h s, (illegalWord_recorded w { s with pending := none }).pending⟩

/-- Settles O7. -/
theorem commandWaitsForRoom : Obligations.CommandWaitsForRoom := by
  unfold Obligations.CommandWaitsForRoom
  refine ⟨need_eq, engineEnabled_iff, fun s busy waits => ?_, fun s w h enabled => ?_, fun s depth empty busy => ?_⟩
  · obtain ⟨w, h⟩ := Option.ne_none_iff_exists'.mp busy
    exact engineTurn_of_full h (engineEnabled_of_pending h ▸ waits)
  · exact ⟨engineTurn_of_room h (engineEnabled_of_pending h ▸ enabled), engineStep_consumes w s⟩
  · obtain ⟨w, h⟩ := Option.ne_none_iff_exists'.mp busy
    have depth : 16 ≤ s.params.fifoDepth := depth
    have := need_le w
    exact (engineEnabled_iff s).mpr ⟨w, h, by simp [empty]; omega⟩

/-- Settles O6: with the Engine's turn next, a step is that turn, with the event, if there is one, used up. -/
theorem stepRunsThePendingCommand : Obligations.StepRunsThePendingCommand := by
  unfold Obligations.StepRunsThePendingCommand
  refine fun s w h => ⟨fun fits => ?_, fun full => ?_⟩
  · have room : s.roomFor w = true := (roomFor_iff s w).mpr fits
    have idle (scheduled : s.schedule = []) : step s = engineStep w s :=
      (step_of_nil scheduled).trans (engineTurn_of_room h room)
    have turn (rest : List Event) (scheduled : s.schedule = .engine :: rest) :
        step s = engineStep w { s with schedule := rest } :=
      (step_of_cons scheduled).trans (engineTurn_of_room (s := { s with schedule := rest }) h room)
    exact ⟨fun i spells => ⟨fun scheduled => (idle scheduled).trans (engineStep_of_ok spells _),
      fun rest scheduled => (turn rest scheduled).trans (engineStep_of_ok spells _)⟩, fun _ _ => ⟨idle, turn⟩⟩
  · have room : s.roomFor w = false := decide_eq_false (Nat.not_le_of_lt full)
    exact ⟨fun scheduled => (step_of_nil scheduled).trans (engineTurn_of_full h room), fun rest scheduled =>
      (step_of_cons scheduled).trans (engineTurn_of_full (s := { s with schedule := rest }) h room)⟩

/-! ### A pending command under the Host's accesses (20_memory.md R61, R68) -/

/-- What the Host cannot take from a pending command: the word, CW, and the room there is for it. -/
structure Undisturbed (s t : State) : Prop where
  pending : t.pending = s.pending
  codew : t.codew = s.codew
  params : t.params = s.params
  out : t.out.length ≤ s.out.length

/-- A step that is enabled stays so. -/
theorem Undisturbed.enabled {s t : State} (h : Undisturbed s t) (enabled : s.engineEnabled = true) :
    t.engineEnabled = true := by
  obtain ⟨w, pending, room⟩ := (engineEnabled_iff s).mp enabled
  exact (engineEnabled_iff t).mpr ⟨w, h.pending.trans pending, h.params ▸ (Nat.add_le_add_right h.out _).trans room⟩

theorem undisturbed_hostRead (idx : BitVec 6) (s : State) : Undisturbed s (hostRead idx s) := by
  have frame := hostRead_frame idx s
  exact ⟨frame ▸ rfl, frame ▸ rfl, frame ▸ rfl, hostRead_out_length idx s⟩

/-- While BUSY a write is dropped. -/
theorem undisturbed_regWrite (idx : BitVec 6) (v : Word) {s : State} (busy : s.pending ≠ none) :
    Undisturbed s (regWrite idx v s) := by
  by_cases writable : Reg.ofIdx idx = .cmd ∨ ∃ k, Reg.ofIdx idx = .codew k
  · rw [regWrite_busy v writable busy]
    exact ⟨rfl, rfl, rfl, Nat.le_refl _⟩
  · obtain ⟨cmd, codew⟩ := not_or.mp writable
    rw [regWrite_readOnly v cmd (not_exists.mp codew)]
    exact ⟨rfl, rfl, rfl, Nat.le_refl _⟩

/-- A Host event is a read or a write, through a bridge or not. -/
theorem happen_host {e : Event} {s t : State} (engine : e ≠ .engine) (reset : e ≠ .reset) (h : happen e s = .next t) :
    ∃ idx, t = hostRead idx s ∨ ∃ v, t = regWrite idx v s := by
  cases e with
  | engine => exact absurd rfl engine
  | reset => exact absurd rfl reset
  | read idx => exact ⟨idx, .inl (Host.Outcome.next.inj h).symm⟩
  | write idx v => exact ⟨idx, .inr ⟨v, (Host.Outcome.next.inj h).symm⟩⟩
  | busRead off =>
    obtain ⟨idx, e⟩ := busAccess_next h
    exact ⟨idx, .inl e⟩
  | busWrite off v =>
    obtain ⟨idx, e⟩ := busAccess_next (access := fun idx => regWrite idx v) h
    exact ⟨idx, .inr ⟨v, e⟩⟩

/-- Settles O49. -/
theorem hostCannotTouchAPendingCommand : Obligations.HostCannotTouchAPendingCommand := by
  unfold Obligations.HostCannotTouchAPendingCommand
  intro s t e rest w pending scheduled engine reset h
  rw [step_of_cons scheduled] at h
  have kept : Undisturbed { s with schedule := rest } t := by
    obtain ⟨idx, rfl | ⟨v, rfl⟩⟩ := happen_host engine reset h
    · exact undisturbed_hostRead idx _
    · exact undisturbed_regWrite idx v (by simp [pending])
  exact ⟨kept.pending.trans pending, kept.codew, kept.enabled⟩

end Sys2Proof.Machine
end

section
/-! SUPPORT. Command words: what the decoder answers on every word, said once row by row of the opcode table
(30_encoding.md R84, R85), and the obligations about encoding and about the phases of R86. -/

namespace Sys2Proof.Machine

/-! ### An operand without reserved bits is made of its fields (30_encoding.md R81, R82) -/

section Operand
variable {a mask : BitVec 24}

theorem bit_of_reserved (h : a &&& mask = 0#24) {i : Nat} (reserved : mask.getLsbD i = true) : a.getLsbD i = false := by
  simpa [reserved] using congrArg (·.getLsbD i) h

theorem operand_Z (h : a &&& 0xFFFFFF#24 = 0#24) : 0#24 = a :=
  h.symm.trans BitVec.and_allOnes

theorem operand_S (h : a &&& 0xFFFF00#24 = 0#24) : 0#16 ++ symField a = a := by
  have mask : ∀ i < 24, ¬ i < 8 → (0xFFFF00#24).getLsbD i = true := by decide
  refine BitVec.eq_of_getLsbD_eq fun i hi => ?_
  rw [formatS_bit]
  by_cases low : i < 8
  · simp [symField, low]
  · simp [low, bit_of_reserved h (mask i hi low)]

theorem operand_I (h : a &&& 0xFFFE00#24 = 0#24) : 0#15 ++ idxField a = a := by
  have mask : ∀ i < 24, ¬ i < 9 → (0xFFFE00#24).getLsbD i = true := by decide
  refine BitVec.eq_of_getLsbD_eq fun i hi => ?_
  rw [formatI_bit]
  by_cases low : i < 9
  · simp [idxField, low]
  · simp [low, bit_of_reserved h (mask i hi low)]

theorem operand_L (h : a &&& 0xFF0000#24 = 0#24) : 0#8 ++ lenField a ++ symField a = a := by
  have mask : ∀ i < 24, ¬ i < 16 → (0xFF0000#24).getLsbD i = true := by decide
  refine BitVec.eq_of_getLsbD_eq fun i hi => ?_
  rw [formatL_bit]
  split
  · next low => simp [symField, low]
  · next high =>
    by_cases mid : i < 16
    · simp [lenField, mid, show i - 8 < 8 by omega, show 8 + (i - 8) = i by omega]
    · simp [mid, bit_of_reserved h (mask i hi mid)]

theorem operand_D (h : a &&& 0xE00000#24 = 0#24) : 0#3 ++ nField a ++ bitsField a = a := by
  have mask : ∀ i < 24, ¬ i < 21 → (0xE00000#24).getLsbD i = true := by decide
  refine BitVec.eq_of_getLsbD_eq fun i hi => ?_
  rw [formatD_bit]
  split
  · next low => simp [bitsField, low]
  · next high =>
    by_cases mid : i < 21
    · simp [nField, mid, show i - 16 < 5 by omega, show 16 + (i - 16) = i by omega]
    · simp [mid, bit_of_reserved h (mask i hi mid)]

end Operand

/-! ### The round trip from a command (30_encoding.md R80 to R84) -/

theorem unlessReserved_of_zero {mask a : BitVec 24} (h : a &&& mask = 0#24) (i : Instr) :
    unlessReserved mask a i = .ok i := by simp [unlessReserved, h]

theorem wellFormed_decode_iff {n : BitVec 5} {bits : BitVec 16} :
    (Instr.decode n bits).wellFormed = true ↔ 1 ≤ n.toNat ∧ n.toNat ≤ 16 := by simp [Instr.wellFormed]

theorem decode_encode {i : Instr} (wf : i.wellFormed = true) : decode (encode i) = .ok i := by
  unfold decode
  rw [opcodeOf_encode, operandOf_encode]
  cases i with
  | nop | clear | build | gen | flush | decend | ackerr => rfl
  | count | encode | readcode | readfreq | loadcode | readnode =>
    simp [Instr.opcode, Instr.operand, unlessReserved_of_zero]
  | decode n bits => simp [Instr.opcode, Instr.operand, wellFormed_decode_iff.mp wf]

/-- Settles O1. -/
theorem encodedCommandDecodesBack : Obligations.EncodedCommandDecodesBack := by
  unfold Obligations.EncodedCommandDecodesBack
  exact fun i wf => decode_encode wf

/-! ### What the decoder answers on every word (30_encoding.md R84, R85) -/

/-- Row `r` has the opcode of the word `w`, and `i` is the row's command with the fields of `w`: what `w` decodes to, unless
`w` has a reserved bit or `i` a bad count. -/
structure ReadsAs (w : Word) (r : OpcodeRow) (i : Instr) : Prop where
  row : r ∈ opcodeRows
  rowOpcode : opcodeOf r.value = opcodeOf w
  mnemonic : i.mnemonic = r.mnemonic
  opcode : i.opcode = opcodeOf w
  operand : operandOf w &&& operandOf r.mask = 0#24 → i.operand = operandOf w
  decodes : decode w =
    if operandOf w &&& operandOf r.mask = 0#24 then if i.wellFormed then .ok i else .error .decodeCount
    else .error .reservedOperandBits

/-- The rows stand in the order of their opcodes (30_encoding.md R83). -/
theorem opcodeOf_row : ∀ k : Fin 14, opcodeOf opcodeRows[k].value = BitVec.ofNat 8 k := by decide

theorem readsAs_of_opcode {w : Word} {i : Instr} (k : Fin 14) (opcode : (opcodeOf w).toNat = k)
    (mnemonic : i.mnemonic = opcodeRows[k].mnemonic) (own : i.opcode = BitVec.ofNat 8 k)
    (operand : operandOf w &&& operandOf opcodeRows[k].mask = 0#24 → i.operand = operandOf w)
    (decodes : decode w =
      if operandOf w &&& operandOf opcodeRows[k].mask = 0#24 then if i.wellFormed then .ok i else .error .decodeCount
      else .error .reservedOperandBits) : ReadsAs w opcodeRows[k] i := by
  have opcode : BitVec.ofNat 8 k = opcodeOf w := by simp [← opcode]
  exact ⟨List.getElem_mem _, (opcodeOf_row k).trans opcode, mnemonic, own.trans opcode, operand, decodes⟩

theorem decode_cases (w : Word) :
    (∃ r i, ReadsAs w r i) ∨ 0x0E ≤ (opcodeOf w).toNat ∧ decode w = .error .reservedOpcode := by
  have answer := decode.eq_def w
  dsimp only at answer
  split at answer
  case h_1 op => exact .inl ⟨_, .nop, readsAs_of_opcode 0 op rfl rfl operand_Z answer⟩
  case h_2 op => exact .inl ⟨_, .clear, readsAs_of_opcode 1 op rfl rfl operand_Z answer⟩
  case h_3 op => exact .inl ⟨_, .count _, readsAs_of_opcode 2 op rfl rfl operand_S answer⟩
  case h_4 op => exact .inl ⟨_, .build, readsAs_of_opcode 3 op rfl rfl operand_Z answer⟩
  case h_5 op => exact .inl ⟨_, .gen, readsAs_of_opcode 4 op rfl rfl operand_Z answer⟩
  case h_6 op => exact .inl ⟨_, .encode _, readsAs_of_opcode 5 op rfl rfl operand_S answer⟩
  case h_7 op => exact .inl ⟨_, .flush, readsAs_of_opcode 6 op rfl rfl operand_Z answer⟩
  case h_8 op =>
    simp only [← wellFormed_decode_iff (bits := bitsField (operandOf w))] at answer
    exact .inl ⟨_, .decode _ _, readsAs_of_opcode 7 op rfl rfl operand_D answer⟩
  case h_9 op => exact .inl ⟨_, .decend, readsAs_of_opcode 8 op rfl rfl operand_Z answer⟩
  case h_10 op => exact .inl ⟨_, .loadcode _ _, readsAs_of_opcode 9 op rfl rfl operand_L answer⟩
  case h_11 op => exact .inl ⟨_, .readcode _, readsAs_of_opcode 10 op rfl rfl operand_S answer⟩
  case h_12 op => exact .inl ⟨_, .readfreq _, readsAs_of_opcode 11 op rfl rfl operand_S answer⟩
  case h_13 op => exact .inl ⟨_, .readnode _, readsAs_of_opcode 12 op rfl rfl operand_I answer⟩
  case h_14 op => exact .inl ⟨_, .ackerr, readsAs_of_opcode 13 op rfl rfl operand_Z answer⟩
  case h_15 => exact .inr ⟨by simp only [imp_false] at *; omega, answer⟩

/-- A row is known by its opcode. -/
theorem row_of_opcode : ∀ r ∈ opcodeRows, ∀ r' ∈ opcodeRows, opcodeOf r.value = opcodeOf r'.value → r = r' := by decide

/-- A row is known by its mnemonic. -/
theorem row_of_mnemonic : ∀ r ∈ opcodeRows, ∀ r' ∈ opcodeRows, r.mnemonic = r'.mnemonic → r = r' := by decide

theorem rowOpcode_lt : ∀ r ∈ opcodeRows, (opcodeOf r.value).toNat < 0x0E := by decide

section ReadsAs
variable {w : Word} {r : OpcodeRow} {i : Instr} (h : ReadsAs w r i)
include h

theorem ReadsAs.opcode_lt : (opcodeOf w).toNat < 0x0E := h.rowOpcode ▸ rowOpcode_lt r h.row

/-- A row with the word's opcode is the one the word is read by. -/
theorem ReadsAs.row_unique {r' : OpcodeRow} (mem : r' ∈ opcodeRows) (opcode : opcodeOf r'.value = opcodeOf w) : r' = r :=
  row_of_opcode r' mem r h.row (opcode.trans h.rowOpcode.symm)

theorem ReadsAs.decode_eq_ok_iff {j : Instr} : decode w = .ok j ↔
    operandOf w &&& operandOf r.mask = 0#24 ∧ i.wellFormed = true ∧ i = j := by
  rw [h.decodes]
  split_ifs <;> simp [*]

theorem ReadsAs.decode_eq_reservedOperandBits_iff :
    decode w = .error .reservedOperandBits ↔ operandOf w &&& operandOf r.mask ≠ 0#24 := by
  rw [h.decodes]
  split_ifs <;> simp [*]

theorem ReadsAs.decode_eq_decodeCount_iff :
    decode w = .error .decodeCount ↔ operandOf w &&& operandOf r.mask = 0#24 ∧ i.wellFormed = false := by
  rw [h.decodes]
  split_ifs <;> simp [*]

theorem ReadsAs.decode_ne_reservedOpcode : decode w ≠ .error .reservedOpcode := by
  rw [h.decodes]
  split_ifs <;> simp

theorem ReadsAs.encode_eq (unreserved : operandOf w &&& operandOf r.mask = 0#24) : encode i = w := by
  rw [encode, h.opcode, h.operand unreserved, word_eq_fields]

end ReadsAs

/-! ### The round trip from a word (30_encoding.md R85) -/

theorem readsAs_of_decode {w : Word} {i : Instr} (h : decode w = .ok i) : ∃ r, ReadsAs w r i := by
  obtain ⟨r, j, reads⟩ | ⟨-, refused⟩ := decode_cases w
  · obtain ⟨-, -, rfl⟩ := reads.decode_eq_ok_iff.mp h
    exact ⟨r, reads⟩
  · cases refused.symm.trans h

/-- Settles O2. -/
theorem decodedCommandEncodesBack : Obligations.DecodedCommandEncodesBack := by
  unfold Obligations.DecodedCommandEncodesBack
  intro w i h
  obtain ⟨r, reads⟩ := readsAs_of_decode h
  obtain ⟨unreserved, wf, -⟩ := reads.decode_eq_ok_iff.mp h
  exact ⟨wf, reads.encode_eq unreserved⟩

/-! ### The rows of the opcode table (30_encoding.md R84) -/

/-- A row's mask covers the whole opcode, and its value is 0 below the opcode. -/
theorem row_fields : ∀ r ∈ opcodeRows,
    r.mask = 0xFF#8 ++ operandOf r.mask ∧ r.value = opcodeOf r.value ++ 0#24 := by decide

theorem append_inj {p q : BitVec 8} {a b : BitVec 24} : (p ++ a : Word) = q ++ b ↔ p = q ∧ a = b := by
  refine ⟨fun h => ⟨?_, ?_⟩, fun ⟨hp, ha⟩ => hp ▸ ha ▸ rfl⟩
  · simpa using congrArg opcodeOf h
  · simpa using congrArg operandOf h

/-- A word is a row's under its mask when it has the row's opcode and none of its reserved bits. -/
theorem masked_iff {r : OpcodeRow} (mem : r ∈ opcodeRows) (w : Word) : w &&& r.mask = r.value ↔
    opcodeOf r.value = opcodeOf w ∧ operandOf w &&& operandOf r.mask = 0#24 := by
  obtain ⟨mask, value⟩ := row_fields r mem
  have fields : w &&& r.mask = (opcodeOf w ++ (operandOf w &&& operandOf r.mask) : Word) := by
    calc w &&& r.mask
      _ = (opcodeOf w ++ operandOf w : Word) &&& (0xFF#8 ++ operandOf r.mask : Word) := by rw [word_eq_fields, ← mask]
      _ = _ := by rw [BitVec.and_append, show opcodeOf w &&& 0xFF#8 = opcodeOf w from BitVec.and_allOnes]
  rw [fields, value, append_inj, opcodeOf_append]
  exact and_congr_left' eq_comm

/-- Only DECODE has a field that can make a command ill formed. -/
theorem wellFormed_iff (i : Instr) : i.wellFormed = true ↔
    i.mnemonic ≠ "DECODE" ∨ 1 ≤ (nField i.operand).toNat ∧ (nField i.operand).toNat ≤ 16 := by
  cases i with
  | decode n bits => simp [wellFormed_decode_iff, Instr.mnemonic, Instr.operand]
  | _ => simp [Instr.wellFormed, Instr.mnemonic]

theorem spelledBy_iff {r : OpcodeRow} {w : Word} : r.spelledBy w = true ↔ w &&& r.mask = r.value ∧
    (r.mnemonic ≠ "DECODE" ∨ 1 ≤ (nField (operandOf w)).toNat ∧ (nField (operandOf w)).toNat ≤ 16) := by
  simp [OpcodeRow.spelledBy]

theorem opcode_of_spelledBy {r : OpcodeRow} {w : Word} (mem : r ∈ opcodeRows) (h : r.spelledBy w = true) :
    opcodeOf r.value = opcodeOf w := ((masked_iff mem w).mp (spelledBy_iff.mp h).1).1

/-- The row that reads a word is spelled by it exactly when the word is legal. -/
theorem ReadsAs.spelledBy_iff {w : Word} {r : OpcodeRow} {i : Instr} (h : ReadsAs w r i) :
    r.spelledBy w = true ↔ decode w = .ok i := by
  rw [Machine.spelledBy_iff, masked_iff h.row, h.decode_eq_ok_iff, wellFormed_iff, h.mnemonic]
  constructor
  · rintro ⟨⟨-, unreserved⟩, count⟩
    exact ⟨unreserved, h.operand unreserved ▸ count, rfl⟩
  · rintro ⟨unreserved, count, -⟩
    exact ⟨⟨h.rowOpcode, unreserved⟩, h.operand unreserved ▸ count⟩

theorem spelledBy_iff_decode {r : OpcodeRow} (mem : r ∈ opcodeRows) (w : Word) :
    r.spelledBy w = true ↔ ∃ i, decode w = .ok i ∧ i.mnemonic = r.mnemonic := by
  constructor
  · intro spelled
    have opcode := opcode_of_spelledBy mem spelled
    obtain ⟨r', i, reads⟩ | ⟨big, -⟩ := decode_cases w
    · obtain rfl := reads.row_unique mem opcode
      exact ⟨i, reads.spelledBy_iff.mp spelled, reads.mnemonic⟩
    · exact absurd (opcode ▸ rowOpcode_lt r mem) (Nat.not_lt_of_le big)
  · rintro ⟨i, ok, mnemonic⟩
    obtain ⟨r', reads⟩ := readsAs_of_decode ok
    obtain rfl := row_of_mnemonic r mem r' reads.row (mnemonic.symm.trans reads.mnemonic)
    exact reads.spelledBy_iff.mpr ok

theorem row_of_command (i : Instr) : ∃ r ∈ opcodeRows, r.mnemonic = i.mnemonic := by
  cases i <;> simp [opcodeRows, Instr.mnemonic]

/-- Settles O3. -/
theorem wordSpellsItsTableRow : Obligations.WordSpellsItsTableRow := by
  unfold Obligations.WordSpellsItsTableRow
  refine ⟨fun r mem w => spelledBy_iff_decode mem w, row_of_command, fun w r mem r' mem' h h' => ?_⟩
  exact row_of_opcode r mem r' mem' ((opcode_of_spelledBy mem h).trans (opcode_of_spelledBy mem' h').symm)

/-! ### Illegal words (30_encoding.md R85) -/

theorem decode_eq_reservedOpcode_iff (w : Word) : decode w = .error .reservedOpcode ↔ 0x0E ≤ (opcodeOf w).toNat := by
  obtain ⟨r, i, reads⟩ | ⟨big, refused⟩ := decode_cases w
  · exact iff_of_false reads.decode_ne_reservedOpcode (Nat.not_le_of_lt reads.opcode_lt)
  · exact iff_of_true refused big

theorem decode_eq_reservedOperandBits_iff (w : Word) : decode w = .error .reservedOperandBits ↔
    ∃ r ∈ opcodeRows, opcodeOf w = opcodeOf r.value ∧ operandOf w &&& operandOf r.mask ≠ 0#24 := by
  obtain ⟨r, i, reads⟩ | ⟨big, refused⟩ := decode_cases w
  · rw [reads.decode_eq_reservedOperandBits_iff]
    refine ⟨fun bits => ⟨r, reads.row, reads.rowOpcode.symm, bits⟩, ?_⟩
    rintro ⟨r', mem, opcode, bits⟩
    exact reads.row_unique mem opcode.symm ▸ bits
  · refine iff_of_false (by simp [refused]) ?_
    rintro ⟨r, mem, opcode, -⟩
    exact absurd (opcode ▸ rowOpcode_lt r mem) (Nat.not_lt_of_le big)

theorem row_decode_iff : ∀ r ∈ opcodeRows, r.mnemonic = "DECODE" ↔ r = opcodeRows[7] := by decide

theorem decode_eq_decodeCount_iff (w : Word) : decode w = .error .decodeCount ↔
    opcodeOf w = 0x07#8 ∧ operandOf w &&& 0xE00000#24 = 0#24 ∧
      ((nField (operandOf w)).toNat = 0 ∨ 17 ≤ (nField (operandOf w)).toNat) := by
  obtain ⟨r, i, reads⟩ | ⟨big, refused⟩ := decode_cases w
  · rw [reads.decode_eq_decodeCount_iff, ← Bool.not_eq_true, wellFormed_iff, reads.mnemonic]
    constructor
    · rintro ⟨unreserved, count⟩
      rw [← reads.operand unreserved, ← reads.rowOpcode]
      obtain ⟨isDecode, count⟩ := not_or.mp count
      obtain rfl := (row_decode_iff r reads.row).mp (not_not.mp isDecode)
      exact ⟨rfl, reads.operand unreserved ▸ unreserved, by omega⟩
    · rintro ⟨opcode, unreserved, count⟩
      obtain rfl := (reads.row_unique (r' := opcodeRows[7]) (by decide) ((opcodeOf_row 7).trans opcode.symm)).symm
      rw [reads.operand unreserved]
      exact ⟨unreserved, not_or.mpr ⟨not_not.mpr rfl, by omega⟩⟩
  · refine iff_of_false (by simp [refused]) fun ⟨opcode, _⟩ => ?_
    rw [opcode] at big
    exact absurd big (by decide)

/-- An illegal word, executed with no error recorded, raises IllegalCommand. -/
theorem engineStep_illegal {w : Word} {e : DecodeError} (illegal : decode w = .error e) {s : State}
    (err : s.err = .noError) : engineStep w s = .next { s with
      pending := none, err := .illegalCommand, errinfo := opcodeOf w ++ operandOf w } := by
  have err' : { s with pending := none }.err = .noError := err
  rw [engineStep_of_error illegal, illegalWord, if_neg (by simp [drops_of_noError err']), raise_of_noError err']

/-- Settles O4. -/
theorem illegalWordRaisesIllegalCommand : Obligations.IllegalWordRaisesIllegalCommand := by
  unfold Obligations.IllegalWordRaisesIllegalCommand
  exact fun w => ⟨decode_eq_reservedOpcode_iff w, decode_eq_reservedOperandBits_iff w, decode_eq_decodeCount_iff w,
    fun _ _ illegal err => engineStep_illegal illegal err⟩

/-! ### The phases of the commands (30_encoding.md R86) -/

/-- Outside its phases a well-formed command, executed with no error recorded, raises SequenceError with the phase. -/
theorem exec_outside {i : Instr} {s : State} (wf : i.wellFormed = true) (err : s.err = .noError)
    (illegal : legalIn i s.phase = false) :
    exec i s = .next { s with err := .sequenceError, errinfo := i.opcode ++ s.phase.code.setWidth 24 } := by
  rw [exec_eq_command, ← raise_of_noError err]
  simp [command, drops_of_noError err, wf, illegal]

/-- In its phases it has its effect. -/
theorem exec_inside {i : Instr} {s : State} (wf : i.wellFormed = true) (err : s.err = .noError)
    (legal : legalIn i s.phase = true) : exec i s = .next (effectOf i s) := by
  rw [exec_eq_command]
  exact command_runs _ (drops_of_noError err _) wf legal

theorem phaseRow_of_mnemonic : ∀ row ∈ phaseTable, ∀ row' ∈ phaseTable, row.1 = row'.1 → row = row' := by decide

/-- The model's `legalIn` is the command's row of the phase table. -/
theorem legalIn_phaseRow (i : Instr) (p : Phase) :
    ∃ row ∈ phaseTable, i.mnemonic = row.1 ∧ (legalIn i p = true ↔ p ∈ row.2) := by
  cases i with
  | nop | clear | ackerr | readcode | readfreq | readnode =>
    cases p <;> simp [phaseTable, Instr.mnemonic, legalIn]
  | _ => simp [phaseTable, Instr.mnemonic, legalIn]

theorem legalIn_iff {row : String × List Phase} (mem : row ∈ phaseTable) {i : Instr} (h : i.mnemonic = row.1) (p : Phase) :
    legalIn i p = true ↔ p ∈ row.2 := by
  obtain ⟨row', mem', h', legal⟩ := legalIn_phaseRow i p
  rwa [phaseRow_of_mnemonic row mem row' mem' (h.symm.trans h')]

theorem raise_err_ne {s : State} {e e' : ErrCode} (before : s.err ≠ e') (ne : e ≠ e') (op : BitVec 8)
    (detail : BitVec 24) : (raise op e detail s).err ≠ e' := by
  unfold raise
  split
  · exact ne
  · exact before

theorem ite_err_ne {c : Prop} [Decidable c] {t u : State} {e : ErrCode} (ht : t.err ≠ e) (hu : u.err ≠ e) :
    (if c then t else u).err ≠ e := by
  split
  · exact ht
  · exact hu

section EffectErr
variable {s : State} (h : s.err ≠ .sequenceError)
include h

theorem decodeEffect_err_ne (n : BitVec 5) (bits : BitVec 16) : (decodeEffect n bits s).err ≠ .sequenceError := by
  unfold decodeEffect
  dsimp only
  split
  · exact h
  · exact raise_err_ne (s := s.decoded n bits) h (by decide) _ _

theorem loadcodeEffect_err_ne (sym : Symbol) (len : BitVec 8) : (loadcodeEffect sym len s).err ≠ .sequenceError := by
  have refused (e : ErrCode) (ne : e ≠ .sequenceError) (detail : BitVec 24) :=
    raise_err_ne h ne (Instr.loadcode sym len).opcode detail
  have table := refused .corruptTable (by decide)
  refine ite_err_ne (table _) (ite_err_ne (table _) (ite_err_ne (table _) ?_))
  dsimp only
  split
  · exact table _
  · exact table _
  · exact ite_err_ne (refused .nodeOverflow (by decide) _) h

/-- SequenceError is the dispatch's alone: no command's effect raises it. -/
theorem effectOf_err_ne (i : Instr) : (effectOf i s).err ≠ .sequenceError := by
  cases i with
  | nop | gen | readfreq => exact h
  | clear | ackerr => exact ErrCode.noConfusion
  | count | build => exact ite_err_ne (raise_err_ne h (by decide) _ _) h
  | encode | decend => exact ite_err_ne h (raise_err_ne h (by decide) _ _)
  | flush | readcode | readnode => exact ite_err_ne h h
  | decode n bits => exact decodeEffect_err_ne h n bits
  | loadcode sym len => exact loadcodeEffect_err_ne h sym len

end EffectErr

/-- Settles O9. -/
theorem outOfPhaseRaisesSequenceError : Obligations.OutOfPhaseRaisesSequenceError := by
  unfold Obligations.OutOfPhaseRaisesSequenceError
  intro row mem i s mnemonic wf err
  have legal := legalIn_iff mem mnemonic s.phase
  refine ⟨fun outside => ?_, fun inside => ?_⟩
  · exact exec_outside wf err (Bool.eq_false_iff.mpr (outside ∘ legal.mp))
  · exact ⟨_, exec_inside wf err (legal.mpr inside), effectOf_err_ne (by simp [err]) i⟩

/-! ### Words of the tables -/

/-- Settles O5, by evaluation. -/
theorem wordsOfTheTableDecode : Obligations.WordsOfTheTableDecode := by
  unfold Obligations.WordsOfTheTableDecode
  exact ⟨rfl, rfl, rfl, rfl, rfl, rfl, rfl, rfl, rfl, rfl⟩

end Sys2Proof.Machine
end

section
/-! SUPPORT. The control commands (40_control.md R100 to R102), with what they share: a kept command runs in every state, and
a word with a reserved operand bit is an illegal word of its row. -/

namespace Sys2Proof.Machine

/-! ### Words with reserved operand bits (30_encoding.md R85 (b), R90) -/

/-- With an error recorded, an illegal word is dropped, or raises to no effect because the first error stands. -/
theorem engineStep_illegal_of_error {w : Word} {e : DecodeError} (illegal : decode w = .error e) {s : State}
    (err : s.err ≠ .noError) : engineStep w s = .next { s with pending := none } := by
  have err' : { s with pending := none }.err ≠ .noError := err
  rw [engineStep_of_error illegal, illegalWord, raise_of_error err', ite_self]

theorem decode_reserved {r : OpcodeRow} (mem : r ∈ opcodeRows) {a : BitVec 24} (bits : a &&& operandOf r.mask ≠ 0#24) :
    decode (opcodeOf r.value ++ a) = .error .reservedOperandBits :=
  (decode_eq_reservedOperandBits_iff _).mpr ⟨r, mem, opcodeOf_append _ _, (operandOf_append _ _).symm ▸ bits⟩

/-- Every row's reserved operand bits raise IllegalCommand. -/
theorem raisesOnReserved_row {r : OpcodeRow} (mem : r ∈ opcodeRows) {op : BitVec 8} {mask : BitVec 24}
    (opcode : opcodeOf r.value = op) (reserved : operandOf r.mask = mask) : RaisesOnReserved op mask := by
  subst opcode reserved
  intro s a bits
  have illegal := decode_reserved mem bits
  refine ⟨fun err => ?_, engineStep_illegal_of_error illegal⟩
  rw [engineStep_illegal illegal err, opcodeOf_append, operandOf_append]

/-! ### Commands that run in every state (30_encoding.md R86, R90) -/

/-- The commands kept in the error state are well formed and legal in every phase. -/
theorem runs_of_kept {i : Instr} (kept : keptInError i.opcode = true) (p : Phase) :
    i.wellFormed = true ∧ legalIn i p = true := by
  cases i with
  | nop | clear | readcode | readfreq | readnode | ackerr => exact ⟨rfl, rfl⟩
  | _ => cases kept

theorem exec_kept {i : Instr} (kept : keptInError i.opcode = true) (s : State) : exec i s = .next (effectOf i s) := by
  obtain ⟨wf, legal⟩ := runs_of_kept kept s.phase
  rw [exec_eq_command]
  exact command_runs _ (drops_of_kept kept s) wf legal

/-! ### NOP, CLEAR and ACKERR -/

/-- Settles O13. -/
theorem nopChangesNothing : Obligations.NopChangesNothing := by
  unfold Obligations.NopChangesNothing
  exact ⟨rfl, exec_kept (i := .nop) rfl, raisesOnReserved_row (r := opcodeRows[0]) (List.getElem_mem _) rfl rfl, rfl⟩

/-- Settles O14. -/
theorem clearStartsANewJob : Obligations.ClearStartsANewJob := by
  unfold Obligations.ClearStartsANewJob
  refine ⟨rfl, fun s => ⟨clearEffect s, exec_kept (i := .clear) rfl s, fun _ => ⟨rfl, rfl⟩, rfl, rfl, rfl, rfl, rfl, rfl, rfl,
    rfl, rfl, rfl, rfl, rfl, fun k => ?codew, rfl, rfl, rfl, rfl, rfl, rfl, rfl, rfl, rfl, rfl⟩,
    raisesOnReserved_row (r := opcodeRows[1]) (List.getElem_mem _) rfl rfl⟩
  case codew => exact Vector.getElem_replicate k.isLt

/-- With a root, the cursor ACKERR leaves there makes AT_ROOT 1. -/
theorem atRoot_acknowledge {s : State} (root : s.root ≠ NULL) : (acknowledge s).atRoot = true := by
  rw [atRoot_eq]
  exact decide_eq_true ⟨root, rfl⟩

/-- Settles O15. -/
theorem ackerrReturnsFromTheError : Obligations.AckerrReturnsFromTheError := by
  unfold Obligations.AckerrReturnsFromTheError
  exact ⟨rfl, fun s => ⟨acknowledge s, exec_kept (i := .ackerr) rfl s, rfl, atRoot_acknowledge⟩,
    raisesOnReserved_row (r := opcodeRows[13]) (List.getElem_mem _) rfl rfl⟩

end Sys2Proof.Machine
end

section
/-! SUPPORT. The frequency counter COUNT (41_frequency.md R120, R121), with what the commands' rules share: a word is the
bitwise or of its opcode and its operand, and a command outside its row of the phase table raises SequenceError. -/

namespace Sys2Proof.Machine

/-! ### The words of the commands (30_encoding.md R80 to R82) -/

/-- A command's word as the assembler statements write it: its row's opcode bits, or-ed with its operand. -/
theorem encode_eq_or (i : Instr) : encode i = (i.opcode ++ 0#24) ||| i.operand.setWidth 32 := by
  rw [← BitVec.setWidth_eq (encode i), ← BitVec.setWidth_eq (i.opcode ++ 0#24), encode,
    BitVec.setWidth_append_eq_shiftLeft_setWidth_or, BitVec.setWidth_append_eq_shiftLeft_setWidth_or]
  simp

/-- Zero bits in front of a field change no extension of it. -/
theorem setWidth_zero_append {v : Nat} (k w : Nat) (x : BitVec v) : (0#k ++ x).setWidth w = x.setWidth w := by
  simp [BitVec.setWidth_append_eq_shiftLeft_setWidth_or]

/-- The detail of an error about a symbol is the operand that names it (30_encoding.md R82, 41_frequency.md R120). -/
theorem symDetail_eq_append (sym : Symbol) : symDetail sym = 0#16 ++ sym := BitVec.setWidth_eq_append (by decide)

/-! ### Commands out of phase (30_encoding.md R86) -/

/-- Every row of the phase table lists the phases outside which its command raises SequenceError. -/
theorem raisesOutside_row {row : String × List Phase} (mem : row ∈ phaseTable) {i : Instr} (mnemonic : i.mnemonic = row.1)
    (wf : i.wellFormed = true) : RaisesOutside i row.2 := fun s err outside =>
  exec_outside wf err (Bool.eq_false_iff.mpr (outside ∘ (legalIn_iff mem mnemonic s.phase).mp))

/-! ### COUNT -/

theorem freqAt_countSymbol_other {sym other : Symbol} (ne : other ≠ sym) (s : State) :
    (countSymbol sym s).freqAt other = s.freqAt other :=
  read_countSymbol_other sym s (ne ∘ BitVec.eq_of_toNat_eq)

section Exec
variable (sym : Symbol) {s : State} (err : s.err = .noError) (phase : s.phase = .empty ∨ s.phase = .counting)
include err phase

/-- In EMPTY and COUNTING a COUNT has its effect. -/
theorem exec_count : exec (.count sym) s = .next (countEffect sym s) :=
  exec_inside rfl err (by rw [legalIn_count, (not_hasTree_iff _).mpr phase]; rfl)

theorem exec_count_of_room (room : s.total ≠ 0xFFFFFFFF#32) : exec (.count sym) s = .next (countSymbol sym s) := by
  rw [exec_count sym err phase, countEffect, if_neg room]

theorem exec_count_of_full (full : s.total = 0xFFFFFFFF#32) :
    exec (.count sym) s = .next { s with err := .countOverflow, errinfo := 0x02#8 ++ (0#16 ++ sym : BitVec 24) } := by
  rw [exec_count sym err phase, countEffect, if_pos full, raise_of_noError err, symDetail_eq_append]
  rfl

end Exec

/-- Settles O16. -/
theorem countAddsOneOccurrence : Obligations.CountAddsOneOccurrence := by
  unfold Obligations.CountAddsOneOccurrence
  refine ⟨fun sym => ?word, fun sym s err phase => ⟨fun room => ?counted, exec_count_of_full sym err phase⟩,
    fun sym => raisesOutside_row (row := phaseTable[6]) (List.getElem_mem _) rfl rfl,
    raisesOnReserved_row (r := opcodeRows[2]) (List.getElem_mem _) rfl rfl⟩
  case word =>
    rw [encode_eq_or, Instr.opcode, Instr.operand, setWidth_zero_append 16 32 sym]
    rfl
  case counted =>
    exact ⟨countSymbol sym s, exec_count_of_room sym err phase room, freqAt_countSymbol sym s,
      fun _ ne => freqAt_countSymbol_other ne s, rfl, rfl, rfl⟩

/-- A COUNT that leaves no error found room in TOTAL and counted. -/
theorem count_of_noError {sym : Symbol} {s t : State} (err : s.err = .noError)
    (phase : s.phase = .empty ∨ s.phase = .counting) (e : exec (.count sym) s = .next t) (ok : t.err = .noError) :
    s.total ≠ 0xFFFFFFFF#32 ∧ t = countSymbol sym s := by
  by_cases full : s.total = 0xFFFFFFFF#32
  · cases e.symm.trans (exec_count_of_full sym err phase full)
    cases ok
  · exact ⟨full, Host.Outcome.next.inj (e.symm.trans (exec_count_of_room sym err phase full))⟩

/-- Settles O17: the counters are what they count before and after, and TOTAL, which bounds each FREQ, had room. -/
theorem countWrapsNoCounter : Obligations.CountWrapsNoCounter := by
  unfold Obligations.CountWrapsNoCounter
  intro sym s t good phase e ok err
  obtain ⟨room, rfl⟩ := count_of_noError err phase e ok
  obtain ⟨-, counted⟩ := good.phased.noTree ((not_hasTree_iff _).mpr phase)
  have counted' := counted.countSymbol sym room
  exact ⟨toNat_freqAt_countSymbol counted sym room, toNat_total_countSymbol sym room, counted'.freqAt_le_total sym,
    toNat_ndist_countSymbol counted sym room, counted'.ndist_le⟩

end Sys2Proof.Machine
end

section
/-! SUPPORT. What BUILD's merges do (42_tree_builder.md R140 to R147): pop_min by the key order, the greedy rule each merge
follows, and that this rule and the leaves determine the tree. -/

namespace Sys2Proof.Machine

/-! ### The key order (R140, R141) -/

/-- The key (weight, index) of a node, in lexicographic order. -/
def key (m : Memory Node) (n : NodeIdx) : ℕ ×ₗ ℕ := toLex ((nodeAt m n).weight.toNat, n.toNat)

theorem keyBefore_iff (m : Memory Node) (i j : NodeIdx) : keyBefore m i j = true ↔ key m i < key m j := by
  simp [keyBefore, key, Prod.Lex.toLex_lt_toLex, BitVec.lt_def, BitVec.toNat_inj]

theorem key_le_iff (m : Memory Node) (i j : NodeIdx) : key m i ≤ key m j ↔ (nodeAt m i).weight < (nodeAt m j).weight ∨
    ((nodeAt m i).weight = (nodeAt m j).weight ∧ i.toNat ≤ j.toNat) := by
  simp [key, Prod.Lex.toLex_le_toLex, BitVec.lt_def, BitVec.toNat_inj]

theorem key_injective (m : Memory Node) : Function.Injective (key m) := fun _ _ e =>
  BitVec.eq_of_toNat_eq (congrArg (fun k => (ofLex k).2) e)

theorem key_congr {m m' : Memory Node} {n : NodeIdx} (h : nodeAt m n = nodeAt m' n) : key m n = key m' n := by
  rw [key, key, h]

/-! ### pop_min (R141) -/

theorem key_leastKey_le (m : Memory Node) (i : NodeIdx) (rest : List NodeIdx) :
    ∀ j ∈ i :: rest, key m (leastKey m i rest) ≤ key m j := by
  induction rest generalizing i with
  | nil => exact fun j mem => (congrArg (key m) (List.mem_singleton.mp mem)).ge
  | cons i' rest ih =>
    rw [leastKey]
    have least (c : NodeIdx) (hi : key m c ≤ key m i) (hi' : key m c ≤ key m i') :
        ∀ j ∈ i :: i' :: rest, key m (leastKey m c rest) ≤ key m j := by
      have ⟨first, others⟩ := List.forall_mem_cons.mp (ih c)
      exact List.forall_mem_cons.mpr ⟨first.trans hi, List.forall_mem_cons.mpr ⟨first.trans hi', others⟩⟩
    split
    · next before => exact least i' ((keyBefore_iff m i' i).mp before).le le_rfl
    · next notBefore => exact least i le_rfl (not_lt.mp (mt (keyBefore_iff m i' i).mpr notBefore))

theorem popMin_eq_none_iff (m : Memory Node) (pq : List NodeIdx) : popMin m pq = none ↔ pq = [] :=
  ⟨popMin_eq_none, fun e => e ▸ rfl⟩

/-- pop_min takes an index of least key. -/
theorem popMin_least {m : Memory Node} {pq rest : List NodeIdx} {a : NodeIdx} (h : popMin m pq = some (a, rest)) :
    ∀ j ∈ rest, key m a ≤ key m j := by
  cases pq with
  | nil => cases h
  | cons i others =>
    cases h
    exact fun j mem => key_leastKey_le m i others j (List.mem_of_mem_erase mem)

/-- Settles O18. -/
theorem popMinTakesTheLeastKey : Obligations.PopMinTakesTheLeastKey := by
  unfold Obligations.PopMinTakesTheLeastKey
  exact fun m pq => ⟨popMin_eq_none_iff m pq, fun a rest h =>
    ⟨(popMin_perm h).symm, fun j mem => (key_le_iff m a j).mp (popMin_least h j mem)⟩⟩

/-! ### The greedy rule (R143, R144) -/

/-- Among the nodes that satisfy `free`, `a` has the least key and `b` the least of the others. -/
structure LeastPair (m : Memory Node) (free : NodeIdx → Prop) (a b : NodeIdx) : Prop where
  first : free a
  second : free b
  ne : a ≠ b
  firstLeast : ∀ k, free k → k ≠ a → key m a < key m k
  secondLeast : ∀ k, free k → k ≠ a → k ≠ b → key m b < key m k

/-- Two pops take the two nodes of least key. -/
theorem leastPair_of_popMin {m : Memory Node} {pq pq₁ rest : List NodeIdx} {a b : NodeIdx} (distinct : pq.Nodup)
    (first : popMin m pq = some (a, pq₁)) (second : popMin m pq₁ = some (b, rest)) : LeastPair m (· ∈ pq) a b := by
  have perm := popMin_perm first
  have perm₁ := popMin_perm second
  have b_mem : b ∈ pq₁ := perm₁.mem_iff.mpr List.mem_cons_self
  have left {k : NodeIdx} (hk : k ∈ pq) (ne : k ≠ a) : k ∈ pq₁ := List.mem_of_ne_of_mem ne (perm.mem_iff.mp hk)
  exact {
    first := perm.mem_iff.mpr List.mem_cons_self
    second := perm.mem_iff.mpr (List.mem_cons_of_mem a b_mem)
    ne := fun e => (List.nodup_cons.mp (perm.nodup_iff.mp distinct)).1 (e ▸ b_mem)
    firstLeast := fun k hk ne =>
      lt_of_le_of_ne (popMin_least first k (left hk ne)) ((key_injective m).ne ne.symm)
    secondLeast := fun k hk nea neb =>
      lt_of_le_of_ne (popMin_least second k (List.mem_of_ne_of_mem neb (perm₁.mem_iff.mp (left hk nea))))
        ((key_injective m).ne neb.symm) }

theorem LeastPair.congr {m m' : Memory Node} {free free' : NodeIdx → Prop} {a b : NodeIdx} (h : LeastPair m free a b)
    (same : ∀ k, free k ↔ free' k) (agree : ∀ k, free k → nodeAt m k = nodeAt m' k) : LeastPair m' free' a b where
  first := (same a).mp h.first
  second := (same b).mp h.second
  ne := h.ne
  firstLeast k hk ne := by
    have hk := (same k).mpr hk
    rw [← key_congr (agree a h.first), ← key_congr (agree k hk)]
    exact h.firstLeast k hk ne
  secondLeast k hk nea neb := by
    have hk := (same k).mpr hk
    rw [← key_congr (agree b h.second), ← key_congr (agree k hk)]
    exact h.secondLeast k hk nea neb

/-- The key order leaves no choice of the two. -/
theorem LeastPair.unique {m : Memory Node} {free : NodeIdx → Prop} {a b a' b' : NodeIdx} (h : LeastPair m free a b)
    (h' : LeastPair m free a' b') : a = a' ∧ b = b' := by
  have first : a = a' := by
    by_contra ne
    exact lt_asymm (h.firstLeast a' h'.first (Ne.symm ne)) (h'.firstLeast a h.first ne)
  subst first
  refine ⟨rfl, ?_⟩
  by_contra ne
  exact lt_asymm (h.secondLeast b' h'.second h'.ne.symm (Ne.symm ne)) (h'.secondLeast b h.second h.ne.symm ne)

/-- The nodes not yet merged once `next` nodes are made: those that are no child of an INTERNAL node made so far (R141). -/
def Free (m : Memory Node) (leaves next : Nat) (k : NodeIdx) : Prop :=
  k.toNat < next ∧ ∀ p, Slot leaves next p → child m p.1 p.2 ≠ k

theorem unmerged_iff_free (s : State) (n k : NodeIdx) : Unmerged s n k ↔ Free s.node s.ndist.toNat n.toNat k :=
  and_congr_right' ⟨fun h p slot => h p.1 p.2 slot.1 slot.2, fun h p b le lt => h (p, b) ⟨le, lt⟩⟩

/-- The queue holds the nodes not yet merged (R141). -/
theorem Forest.mem_queue_iff {seed : Memory Node} {leaves total : Nat} {ar : Arena} {pq : List NodeIdx}
    (h : Forest seed leaves total ar pq) (k : NodeIdx) : k ∈ pq ↔ Free ar.node leaves ar.next.toNat k := by
  refine ⟨fun mem => ⟨h.lt k mem, fun p slot e => h.root p slot (e ▸ mem)⟩, fun ⟨lt, free⟩ => ?_⟩
  by_contra merged
  obtain ⟨p, slot, e⟩ := h.covered k lt merged
  exact free p slot e

theorem free_congr {m m' : Memory Node} {leaves next : Nat}
    (agree : ∀ j : NodeIdx, j.toNat < next → nodeAt m j = nodeAt m' j) (k : NodeIdx) : Free m leaves next k ↔ Free m' leaves next k :=
  and_congr_right' (forall₂_congr fun p slot => by rw [child_congr (agree p.1 slot.2)])

/-- Node `n` merges the two nodes of least key among those not yet merged before it, the least on the left. -/
def MergesLeast (m : Memory Node) (leaves : Nat) (n : NodeIdx) : Prop :=
  ∃ a b, nodeAt m n = mergeNode m a b ∧ LeastPair m (Free m leaves n.toNat) a b

/-- What the next merge is depends only on the nodes below it. -/
theorem LeastPair.of_agree {m m' : Memory Node} {leaves next : Nat} {a b : NodeIdx}
    (h : LeastPair m (Free m leaves next) a b) (agree : ∀ j : NodeIdx, j.toNat < next → nodeAt m j = nodeAt m' j) :
    mergeNode m a b = mergeNode m' a b ∧ LeastPair m' (Free m' leaves next) a b :=
  ⟨by rw [mergeNode, mergeNode, agree a h.first.1, agree b h.second.1],
    h.congr (free_congr agree) fun k free => agree k free.1⟩

/-- Every INTERNAL node made so far is such a merge. -/
def Greedy (m : Memory Node) (leaves next : Nat) : Prop :=
  ∀ n : NodeIdx, leaves ≤ n.toNat → n.toNat < next → MergesLeast m leaves n

/-- The greedy rule and the leaves determine every node (R147). -/
theorem Greedy.unique {m m' : Memory Node} {leaves next : Nat} (h : Greedy m leaves next) (h' : Greedy m' leaves next)
    (same : ∀ n : NodeIdx, n.toNat < leaves → nodeAt m n = nodeAt m' n) (n : NodeIdx) (lt : n.toNat < next) :
    nodeAt m n = nodeAt m' n := by
  by_cases leaf : n.toNat < leaves
  · exact same n leaf
  · have le := Nat.le_of_not_lt leaf
    have agree (j : NodeIdx) (hj : j.toNat < n.toNat) : nodeAt m j = nodeAt m' j :=
      Greedy.unique h h' same j (Nat.lt_trans hj lt)
    obtain ⟨a, b, node, pair⟩ := h n le lt
    obtain ⟨a', b', node', pair'⟩ := h' n le lt
    obtain ⟨e, pair⟩ := pair.of_agree agree
    obtain ⟨rfl, rfl⟩ := pair.unique pair'
    rw [node, node', e]
termination_by n.toNat

/-- One merge of the nodes popped keeps the greedy rule. -/
theorem Forest.merge_greedy {seed : Memory Node} {leaves total : Nat} {ar : Arena} {pq pq₁ rest : List NodeIdx}
    {a b : NodeIdx} (h : Forest seed leaves total ar pq) (few : leaves ≤ 256) (greedy : Greedy ar.node leaves ar.next.toNat)
    (first : popMin ar.node pq = some (a, pq₁)) (second : popMin ar.node pq₁ = some (b, rest)) :
    Greedy (merged ar a b).2.node leaves (merged ar a b).2.next.toNat := by
  have popped := (popMin_perm first).trans ((popMin_perm second).cons a)
  have old (j : NodeIdx) (hj : j.toNat < ar.next.toNat) : nodeAt ar.node j = nodeAt (merged ar a b).2.node j :=
    (h.merged_old popped few hj).symm
  intro n le lt
  obtain lt | rfl := h.merged_lt popped few lt
  · obtain ⟨a', b', node, pair⟩ := greedy n le lt
    obtain ⟨e, pair⟩ := pair.of_agree fun j hj => old j (Nat.lt_trans hj lt)
    exact ⟨a', b', (old n lt).symm.trans (node.trans e), pair⟩
  · have pair := (leastPair_of_popMin h.distinct first second).congr h.mem_queue_iff fun _ _ => rfl
    obtain ⟨e, pair⟩ := pair.of_agree old
    rw [← h.merged_fst popped few] at pair
    exact ⟨a, b, (h.merged_new popped few).trans e, pair⟩

/-- A property of the arena and the queue that each merge of the two nodes popped keeps holds once the merge loop ends. -/
theorem mergeLoop_induction {P : Arena → List NodeIdx → Prop}
    (merge : ∀ {ar : Arena} {pq pq₁ rest : List NodeIdx} {a b : NodeIdx}, P ar pq → popMin ar.node pq = some (a, pq₁) →
      popMin ar.node pq₁ = some (b, rest) → P (merged ar a b).2 ((merged ar a b).1 :: rest))
    {rounds : Nat} {ar : Arena} {pq : List NodeIdx} (start : P ar pq) (nonempty : pq ≠ []) (enough : pq.length ≤ rounds) :
    P (mergeLoop rounds ar pq).2 [(mergeLoop rounds ar pq).1] := by
  induction rounds generalizing ar pq with
  | zero => exact absurd (List.length_eq_zero_iff.mp (Nat.le_zero.mp enough)) nonempty
  | succ rounds ih =>
    rw [mergeLoop]
    split
    · next none => exact absurd (popMin_eq_none none) nonempty
    · next a pq₁ first =>
      have popped := popMin_perm first
      split
      · next none =>
        rw [popMin_eq_none none, List.perm_singleton] at popped
        exact popped ▸ start
      · next b rest second =>
        refine ih (merge start first second) (List.cons_ne_nil _ _) ?_
        have := (popped.trans ((popMin_perm second).cons a)).length_eq
        simp only [List.length_cons] at this ⊢
        omega

/-! ### The tree BUILD makes (R142 to R145) -/

/-- The arena with the leaves, and the queue that holds them. -/
def State.leaves (s : State) : Arena × List NodeIdx := addLeaves s.freq (List.range Config.nsym) s.arena []

section Built
variable {s : State} (counted : Counted s) (next : s.next = 0#10)
include next

theorem seeded_leaves : Seeded s.freq (List.range Config.nsym) s.leaves.1 s.leaves.2 := by
  have nothing : Seeded s.freq [] s.arena [] := by
    rw [State.arena, next]
    exact seeded_nil s.freq s.node
  have all := nothing.addLeaves (rest := List.range Config.nsym) (by rw [List.length_range]; decide)
  rwa [List.nil_append] at all

include counted

theorem toNat_next_leaves : s.leaves.1.next.toNat = s.ndist.toNat := (seeded_leaves next).next.trans counted.ndist.symm

/-- The tree of one symbol (R145). -/
theorem built_single (one : s.ndist = 1#9) : s.built.root.toNat = 1 ∧ s.built.next.toNat = 2 ∧
    nodeAt s.built.node s.built.root = Node.internalOf (nodeAt s.leaves.1.node 0#9).weight 0#9 NULL ∧
    ∀ n : NodeIdx, n.toNat < 1 → nodeAt s.built.node n = nodeAt s.leaves.1.node n := by
  have tree : (s.built.root, s.built.arena) = singleRoot s.leaves.1 := if_pos one
  exact singleRoot_spec tree (by rw [toNat_next_leaves counted next, one]; rfl)

/-- With two symbols or more the merges end in one tree, and each follows the greedy rule (R143, R144). -/
theorem built_greedy (pos : 1 ≤ s.ndist.toNat) (two : s.ndist ≠ 1#9) :
    Forest s.leaves.1.node s.ndist.toNat s.freqSum s.built.arena [s.built.root] ∧
      Greedy s.built.node s.ndist.toNat s.built.next.toNat := by
  have few := counted.ndist_le
  have noWrap : s.freqSum < 2 ^ 32 := counted.total ▸ s.total.isLt
  have seeded := seeded_leaves next
  have size := toNat_next_leaves counted next
  have forest := seeded.forest (size ▸ pos)
  rw [size] at forest
  have start : Greedy s.leaves.1.node s.ndist.toNat s.leaves.1.next.toNat := fun n le lt => by omega
  have tree : (s.built.root, s.built.arena) = mergeLoop s.leaves.2.length s.leaves.1 s.leaves.2 := if_neg two
  obtain ⟨root, arena⟩ := Prod.mk.inj tree
  rw [← arena_node, ← arena_next s.built, root, arena]
  refine mergeLoop_induction (P := fun ar pq => Forest s.leaves.1.node s.ndist.toNat s.freqSum ar pq ∧
    Greedy ar.node s.ndist.toNat ar.next.toNat) ?_ ⟨forest, start⟩ forest.nonempty le_rfl
  intro ar pq pq₁ rest a b ⟨h, greedy⟩ first second
  have popped := (popMin_perm first).trans ((popMin_perm second).cons a)
  exact ⟨h.merge popped few noWrap, h.merge_greedy few greedy first second⟩

/-- BUILD's leaves are still there when the tree is made. -/
theorem built_leaves {n : NodeIdx} (lt : n.toNat < s.ndist.toNat) :
    nodeAt s.built.node n = nodeAt s.leaves.1.node n := by
  by_cases one : s.ndist = 1#9
  · obtain ⟨-, -, -, kept⟩ := built_single counted next one
    exact kept n (by rwa [one] at lt)
  · exact (built_greedy counted next (by omega) one).1.kept n lt

/-- The leaf at index `n` is that of the n-th counted symbol (R142). -/
theorem built_leafOf {n : NodeIdx} (lt : n.toNat < s.ndist.toNat) : ∃ a,
    (countedSymbols s.freq (List.range Config.nsym))[n.toNat]? = some a ∧
      nodeAt s.built.node n = Node.leafOf (s.freqAt (BitVec.ofNat 8 a)) (BitVec.ofNat 8 a) := by
  have size := toNat_next_leaves counted next
  obtain ⟨a, symbol, -, -, leaf⟩ := (seeded_leaves next).leafAt (t := s.built)
    (fun n lt => built_leaves counted next (size ▸ lt)) (size ▸ lt)
  exact ⟨a, symbol, leaf⟩

end Built

/-! ### Determinism (R147) -/

section Determinism
variable {s s' : State} (same : ∀ sym, s.freqAt sym = s'.freqAt sym)
include same

theorem countedSymbols_congr :
    countedSymbols s.freq (List.range Config.nsym) = countedSymbols s'.freq (List.range Config.nsym) :=
  List.filter_congr fun a mem => by
    have small := List.mem_range.mp mem
    rw [← freqAt_ofNat s small, ← freqAt_ofNat s' small, same]

variable (counted : Counted s) (counted' : Counted s')
include counted counted'

theorem ndist_congr : s.ndist = s'.ndist := BitVec.eq_of_toNat_eq (by
  rw [counted.ndist, counted'.ndist]
  exact congrArg List.length (countedSymbols_congr same))

variable (next : s.next = 0#10) (next' : s'.next = 0#10)
include next next'

theorem built_leaves_congr {n : NodeIdx} (lt : n.toNat < s.ndist.toNat) :
    nodeAt s.built.node n = nodeAt s'.built.node n := by
  obtain ⟨a, symbol, leaf⟩ := built_leafOf counted next lt
  obtain ⟨a', symbol', leaf'⟩ := built_leafOf counted' next' (ndist_congr same counted counted' ▸ lt)
  rw [countedSymbols_congr same] at symbol
  obtain rfl : a = a' := Option.some.inj (symbol.symm.trans symbol')
  rw [leaf, leaf', same]

variable (pos : 1 ≤ s.ndist.toNat)
include pos

theorem built_size_congr : s.built.root = s'.built.root ∧ s.built.next = s'.built.next := by
  have ndist := ndist_congr same counted counted'
  obtain ⟨size, root⟩ := (counted.builtTree next pos).1.size
  obtain ⟨size', root'⟩ := (counted'.builtTree next' (ndist ▸ pos)).1.size
  have next_eq : s.built.next.toNat = s'.built.next.toNat := by
    rw [size, size']
    show (if s.ndist = 1#9 then 2 else 2 * s.ndist.toNat - 1) = if s'.ndist = 1#9 then 2 else 2 * s'.ndist.toNat - 1
    rw [ndist]
  exact ⟨BitVec.eq_of_toNat_eq (by omega), BitVec.eq_of_toNat_eq next_eq⟩

/-- Equal frequencies give equal trees: one symbol by its leaf, more by the greedy rule. -/
theorem built_node_congr {n : NodeIdx} (lt : n.toNat < s.built.next.toNat) :
    nodeAt s.built.node n = nodeAt s'.built.node n := by
  have ndist := ndist_congr same counted counted'
  have leaves (n : NodeIdx) := built_leaves_congr same counted counted' next next' (n := n)
  obtain ⟨root_eq, next_eq⟩ := built_size_congr same counted counted' next next' pos
  by_cases one : s.ndist = 1#9
  · have one' := ndist ▸ one
    obtain ⟨root, size, top, kept⟩ := built_single counted next one
    obtain ⟨-, -, top', kept'⟩ := built_single counted' next' one'
    by_cases leaf : n.toNat < s.ndist.toNat
    · exact leaves n leaf
    · have : s.ndist.toNat = 1 := by rw [one]; rfl
      obtain rfl : n = s.built.root := BitVec.eq_of_toNat_eq (by omega)
      rw [top, root_eq, top', ← kept 0#9 (by decide), ← kept' 0#9 (by decide), leaves 0#9 (by rw [this]; decide)]
  · have greedy := (built_greedy counted next pos one).2
    have greedy' := (built_greedy counted' next' (ndist ▸ pos) (ndist ▸ one)).2
    rw [← ndist, ← next_eq] at greedy'
    exact greedy.unique greedy' leaves n lt

end Determinism

/-! ### BUILD -/

section Exec
variable {s : State} (err : s.err = .noError)
include err

/-- In EMPTY and COUNTING a BUILD has its effect. -/
theorem exec_build (phase : s.phase = .empty ∨ s.phase = .counting) : exec .build s = .next (buildEffect s) :=
  exec_inside rfl err (by rw [legalIn_build, (not_hasTree_iff _).mpr phase]; rfl)

theorem exec_build_of_nothing (phase : s.phase = .empty ∨ s.phase = .counting) (nothing : s.ndist = 0#9) :
    exec .build s = .next { s with err := .emptyInput, errinfo := 0x03000000#32 } := by
  rw [exec_build err phase, buildEffect, if_pos nothing, raise_of_noError err]
  rfl

theorem exec_build_of_counting (phase : s.phase = .counting) (pos : 1 ≤ s.ndist.toNat) :
    exec .build s = .next s.built := by
  rw [exec_build err (.inr phase), buildEffect, if_neg fun nothing => by simp [nothing] at pos]
  rfl

end Exec

/-- Settles O19. -/
theorem buildOfNothingRaisesEmptyInput : Obligations.BuildOfNothingRaisesEmptyInput := by
  unfold Obligations.BuildOfNothingRaisesEmptyInput
  exact ⟨rfl, fun s err phase nothing => exec_build_of_nothing err phase nothing,
    raisesOutside_row (row := phaseTable[7]) (List.getElem_mem _) rfl rfl,
    raisesOnReserved_row (r := opcodeRows[3]) (List.getElem_mem _) rfl rfl⟩

/-- Settles O20: the phase invariant of BUILT says it of the state BUILD leaves. -/
theorem buildMakesAStrictTree : Obligations.BuildMakesAStrictTree := by
  unfold Obligations.BuildMakesAStrictTree
  intro s good phase err
  obtain ⟨noTree, counted, -, pos⟩ := (phaseInv_counting phase).mp good.phased
  have inv := good.phased.built (by rw [phase]; rfl) fun nothing => by simp [nothing] at pos
  obtain ⟨walk, tree, -, -, weight, -⟩ := (phaseInv_built rfl).mp inv
  have root : s.built.root ≠ NULL := ne_NULL_of_lt (Nat.lt_of_lt_of_le walk.root.1 walk.bound)
  have atRoot : s.built.atRoot = true := by
    rw [atRoot_eq]
    exact decide_eq_true ⟨root, rfl⟩
  exact ⟨s.built, exec_build_of_counting err phase pos, rfl, rfl, atRoot, tree, walk, weight, rfl⟩

/-- Settles O21: the greedy rule of the merges, with the queue as the nodes not yet merged. -/
theorem buildMergesTheTwoLeastNodes : Obligations.BuildMergesTheTwoLeastNodes := by
  unfold Obligations.BuildMergesTheTwoLeastNodes
  intro s t good phase err two e n le lt
  obtain ⟨noTree, counted, -, pos⟩ := (phaseInv_counting phase).mp good.phased
  obtain rfl : s.built = t := Host.Outcome.next.inj ((exec_build_of_counting err phase pos).symm.trans e)
  have notOne : s.ndist ≠ 1#9 := fun one => by simp [one] at two
  obtain ⟨a, b, node, pair⟩ := (built_greedy counted noTree.next pos notOne).2 n le lt
  simp only [unmerged_iff_free, keyBefore_iff, node]
  exact ⟨pair.first, pair.second, pair.ne, pair.firstLeast, pair.secondLeast⟩

/-- Settles O22: equal frequencies give the same leaves, and the greedy rule the same merges. -/
theorem buildDependsOnlyOnFrequencies : Obligations.BuildDependsOnlyOnFrequencies := by
  unfold Obligations.BuildDependsOnlyOnFrequencies
  intro s s' good good' phase phase' err err' same
  obtain ⟨noTree, counted, -, pos⟩ := (phaseInv_counting phase).mp good.phased
  obtain ⟨noTree', counted', -, pos'⟩ := (phaseInv_counting phase').mp good'.phased
  obtain ⟨root, next⟩ := built_size_congr same counted counted' noTree.next noTree'.next pos
  exact ⟨s.built, s'.built, exec_build_of_counting err phase pos, exec_build_of_counting err' phase' pos', root, next,
    fun n => built_node_congr same counted counted' noTree.next noTree'.next pos⟩

end Sys2Proof.Machine
end

section
/-! SUPPORT. GEN as a command (43_code_table.md R160 to R162): no code that leads to a leaf begins another, code
values fit their lengths, code lengths are the depths of the leaves, and COST does not wrap. -/

namespace Sys2Proof.Machine

/-! ### Codes that are paths (43_code_table.md R162 (c), R164) -/

/-- No path goes on below a leaf, so no code that leads to one begins another. -/
theorem TableMatchesTree.prefixFree {s : State} (h : TableMatchesTree s) : PrefixFree s := by
  rintro sym sym' valid valid' ⟨rest, e⟩
  obtain ⟨n, hn, leaf, sym_n⟩ := h sym valid
  obtain ⟨n', hn', -, sym_n'⟩ := h sym' valid'
  rw [← e, follow_append_iff] at hn'
  obtain ⟨x, hx, rest⟩ := hn'
  obtain rfl : n = x := Option.some.inj (hn.symm.trans hx)
  rw [← sym_n, ← sym_n', (follow_of_leaf leaf rest).2]

theorem length_code (s : State) (sym : Symbol) : (s.code sym).length = (s.clenAt sym).toNat := length_codeBits _ _

/-! ### The code values Visit writes (R161) -/

/-- Each code value of the table fits its length (10_state.md R31). -/
def CodeTable.Fits (t : CodeTable) : Prop :=
  ∀ sym, t.valid sym = true →
    (Memory.read 0#255 t.cval sym.toNat).toNat < 2 ^ (Memory.read 0#8 t.clen sym.toNat).toNat

theorem CodeTable.Fits.assign {t : CodeTable} (h : t.Fits) (sym : Symbol) {len : BitVec 8} {v : CodeVal}
    (fits : v.toNat < 2 ^ len.toNat) : (t.assign sym len v).Fits := by
  intro other valid
  by_cases e : other = sym
  · subst e
    simpa only [CodeTable.assign, Memory.read_write_same] using fits
  · have ne : other.toNat ≠ sym.toNat := fun e' => e (BitVec.eq_of_toNat_eq e')
    rw [(t.assign_agree e len v).1] at valid
    simpa only [CodeTable.assign, Memory.read_write_other _ _ _ ne] using h other valid

/-- The value of a child's path fits one bit more. -/
theorem toNat_visitSide_lt {v : CodeVal} {l : Nat} (fits : v.toNat < 2 ^ l) (b : Bool) :
    (if b then 2 * v + 1 else 2 * v).toNat < 2 ^ (l + 1) := by
  have double : (2 * v).toNat ≤ 2 * v.toNat := (BitVec.toNat_mul 2 v).trans_le (Nat.mod_le _ _)
  cases b
  · exact Nat.lt_of_le_of_lt double (by omega)
  · have plus : (2 * v + 1).toNat ≤ (2 * v).toNat + 1 := (BitVec.toNat_add (2 * v) 1).trans_le (Nat.mod_le _ _)
    exact Nat.lt_of_le_of_lt plus (by omega)

/-- Visit writes values that fit their lengths, where no code is longer than MAXLEN. -/
theorem visit_fits (m : Memory Node) {depth : Nat} {n : NodeIdx} {v : CodeVal} {l : Nat} {t : CodeTable} (h : t.Fits)
    (fits : v.toNat < 2 ^ l) (short : ∀ p n', follow m n p = some n' → l + p.length ≤ Config.maxLen) :
    (visit m depth n v l t).Fits := by
  induction depth generalizing n v l t with
  | zero => exact h
  | succ depth ih =>
    by_cases hk : (nodeAt m n).kind = .leaf
    · have hl : (BitVec.ofNat 8 l).toNat = l :=
        Nat.mod_eq_of_lt (Nat.lt_succ_of_le (short [] n (follow_nil_iff.mpr rfl)))
      rw [visit_leaf hk]
      exact h.assign _ (by rwa [hl])
    · have hk := kind_ne_leaf.mp hk
      have side (b : Bool) {t : CodeTable} (h : t.Fits) : (visitSide m depth n b v l t).Fits := by
        unfold visitSide
        split
        · exact h
        · next hc =>
          refine ih h (toNat_visitSide_lt fits b) fun p n' hp => ?_
          have := short (b :: p) n' (follow_cons_iff.mpr ⟨hk, hc, hp⟩)
          rw [List.length_cons] at this
          omega
      rw [visit_internal hk]
      exact side true (side false h)

/-! ### The table GEN writes over BUILD's tree (R162) -/

section Generated
variable {s : State} (h : BuiltTree s)
include h

/-- A path from the root to a leaf has at least one bit, and at most N − 1, or one (R162 (d)). -/
theorem BuiltTree.length_leadsTo (pos : 1 ≤ s.ndist.toNat) (few : s.ndist.toNat ≤ 256) {p : List Bool} {sym : Symbol}
    (hp : LeadsTo s.node s.root p sym) : 1 ≤ p.length ∧ p.length ≤ max 1 (s.ndist.toNat - 1) := by
  have root := (h.size_bounds pos few).2.1
  obtain ⟨size, top⟩ := h.size
  constructor
  · obtain ⟨_, bit, rfl, -⟩ := (leadsTo_of_internal (h.internal _ root h.root_lt) p sym).mp hp
    exact Nat.succ_pos _
  · obtain ⟨n, hn, -⟩ := hp
    have := (h.follow_below h.root_lt hn).2
    split at size
    · next one =>
      have : s.ndist.toNat = 1 := by rw [one]; rfl
      omega
    · omega

variable (pos : 1 ≤ s.ndist.toNat) (few : s.ndist.toNat ≤ 256) (none : ∀ sym, s.cvalidAt sym = false)
include pos few none

theorem BuiltTree.genEffect_length {sym : Symbol} (valid : (genEffect s).cvalidAt sym = true) :
    1 ≤ ((genEffect s).clenAt sym).toNat ∧ ((genEffect s).clenAt sym).toNat ≤ max 1 (s.ndist.toNat - 1) := by
  obtain ⟨iff, code⟩ := h.genEffect_code pos few none sym
  obtain ⟨p, hp⟩ := iff.mp valid
  rw [← length_code, code p hp]
  exact h.length_leadsTo pos few hp

theorem BuiltTree.genEffect_fits : (genEffect s).table.Fits := by
  obtain ⟨-, -, bound⟩ := h.size_bounds pos few
  refine visit_fits s.node (fun sym valid => ?_) (by decide) fun p n' hp => ?_
  · exact absurd ((none sym).symm.trans valid) Bool.false_ne_true
  · have := (h.follow_below h.root_lt hp).2
    omega

end Generated

/-! ### COST (10_state.md R35, 43_code_table.md R160) -/

/-- The exact sum fits COST: it has 256 terms, each a 32-bit count times an 8-bit length. -/
theorem encodedLength_lt (freq : Memory Word) (t : CodeTable) : encodedLength freq t < 2 ^ 64 := by
  have bound : encodedLength freq t ≤ (List.range Config.nsym).length • (2 ^ 32 * 2 ^ 8) := by
    rw [encodedLength, ← List.length_map (as := List.range Config.nsym)]
    refine List.sum_le_card_nsmul _ _ fun x mem => ?_
    obtain ⟨a, -, rfl⟩ := List.mem_map.mp mem
    split
    · exact Nat.mul_le_mul (BitVec.isLt _).le (BitVec.isLt _).le
    · exact Nat.zero_le _
  rw [List.length_range] at bound
  exact Nat.lt_of_le_of_lt bound (by decide)

/-- COST as GEN leaves it is the sum over the symbols of FREQ times CLEN, exact. -/
theorem toNat_cost_genEffect (s : State) : (genEffect s).cost.toNat = ((List.range 256).map fun a =>
    if (genEffect s).cvalidAt (BitVec.ofNat 8 a) then
      (s.freqAt (BitVec.ofNat 8 a)).toNat * ((genEffect s).clenAt (BitVec.ofNat 8 a)).toNat else 0).sum := by
  have noWrap : (genEffect s).cost.toNat = encodedLength s.freq (generatedTable s) :=
    Nat.mod_eq_of_lt (encodedLength_lt _ _)
  rw [noWrap, encodedLength]
  refine congrArg List.sum (List.map_congr_left fun a mem => ?_)
  have index : (BitVec.ofNat 8 a).toNat = a := Nat.mod_eq_of_lt (List.mem_range.mp mem)
  simp only [State.cvalidAt, State.freqAt, State.clenAt, index]
  rfl

/-! ### GEN -/

theorem exec_gen {s : State} (err : s.err = .noError) (phase : s.phase = .built) :
    exec .gen s = .next (genEffect s) :=
  exec_inside rfl err ((legalIn_gen _).mpr phase)

/-- Settles O23: over BUILD's tree each counted symbol has one leaf, and Visit writes the leaf's path. -/
theorem genWritesTheTreePaths : Obligations.GenWritesTheTreePaths := by
  unfold Obligations.GenWritesTheTreePaths
  refine ⟨rfl, fun s good phase err => ?_, raisesOutside_row (row := phaseTable[8]) (List.getElem_mem _) rfl rfl,
    raisesOnReserved_row (r := opcodeRows[4]) (List.getElem_mem _) rfl rfl⟩
  obtain ⟨-, tree, counted, pos, -, none, -⟩ := (phaseInv_built phase).mp good.phased
  have few := counted.ndist_le
  have paths := tree.genEffect_matches pos few none
  refine ⟨genEffect s, exec_gen err phase, tree.genEffect_codes_counted pos few none, paths, paths.prefixFree,
    fun sym valid => ?_, toNat_cost_genEffect s, rfl⟩
  obtain ⟨one, most⟩ := tree.genEffect_length pos few none valid
  exact ⟨one, most, tree.genEffect_fits pos few none sym valid⟩

end Sys2Proof.Machine
end

section
/-! SUPPORT. LOADCODE as a command (43_code_table.md R163, R164, 60_exceptions.md R244): its checks in their order,
where its walk along a code ends, and the path it places. -/

namespace Sys2Proof.Machine

/-! ### The staged code value (10_state.md R31, R37) -/

theorem bitsBeyond_eq_false_iff (cw : BitVec 256) (len : BitVec 8) :
    bitsBeyond cw len = false ↔ cw.toNat < 2 ^ len.toNat := by
  rw [bitsBeyond, decide_eq_false_iff_not, not_not, ← BitVec.toNat_inj, BitVec.toNat_ushiftRight,
    Nat.shiftRight_eq_div_pow, BitVec.toNat_zero, Nat.div_eq_zero_iff_lt (Nat.two_pow_pos _)]

/-- A value that fits its length is stored as it is. -/
theorem toNat_codeOperand {cw : BitVec 256} {len : BitVec 8} (fits : cw.toNat < 2 ^ len.toNat) :
    (codeOperand cw len).toNat = cw.toNat := by
  have masked : cw &&& ~~~(BitVec.allOnes 256 <<< len.toNat) = cw := by
    ext i hi
    by_cases low : i < len.toNat
    · simp [low]
    · have zero : cw[i] = false :=
        Nat.testBit_lt_two_pow (Nat.lt_of_lt_of_le fits (Nat.pow_le_pow_right (by decide) (Nat.le_of_not_lt low)))
      simp [zero]
  have short : 2 ^ len.toNat ≤ 2 ^ 255 := Nat.pow_le_pow_right (by decide) (Nat.le_of_lt_succ len.isLt)
  rw [codeOperand, masked, BitVec.toNat_setWidth, Nat.mod_eq_of_lt (Nat.lt_of_lt_of_le fits short)]

/-! ### The bits of a code by their positions (10_state.md R31) -/

theorem drop_codeBits (v : CodeVal) (len k : Nat) : (codeBits v len).drop k = codeBits v (len - k) := by
  induction len generalizing k with
  | zero => simp [codeBits]
  | succ len ih =>
    cases k with
    | zero => rfl
    | succ k => rw [codeBits, List.drop_succ_cons, ih, Nat.succ_sub_succ]

theorem getD_codeBits (v : CodeVal) {len k : Nat} (hk : k < len) :
    (codeBits v len).getD k false = codeBit v (len - 1 - k) := by
  induction len generalizing k with
  | zero => exact absurd hk (Nat.not_lt_zero k)
  | succ len ih =>
    cases k with
    | zero => rfl
    | succ k =>
      rw [codeBits, List.getD_cons_succ, ih (Nat.lt_of_succ_lt_succ hk)]
      exact congrArg (codeBit v) (by omega)

/-! ### Where the walk ends (R163) -/

section Walk
variable {m : Memory Node} {v : CodeVal} {k k' : Nat} {n n' : NodeIdx}

theorem loadWalk_of_null (free : child m n (codeBit v k) = NULL) : loadWalk m v k n = .stopped n k := by
  rw [loadWalk.eq_def]
  exact if_pos free

section There
variable {c : NodeIdx} (bit : child m n (codeBit v k) = c) (there : c ≠ NULL)
include bit there

theorem loadWalk_of_leaf (leaf : (nodeAt m c).kind = .leaf) : loadWalk m v k n = .oldPrefixesNew := by
  subst bit
  rw [loadWalk.eq_def]
  exact (if_neg there).trans (if_pos leaf)

variable (internal : (nodeAt m c).kind = .internal)
include internal

theorem loadWalk_of_last (last : k = 0) : loadWalk m v k n = .newPrefixesOld := by
  subst bit last
  rw [loadWalk, if_neg there, if_neg (by rw [internal]; decide)]

theorem loadWalk_of_more (more : k = k' + 1) : loadWalk m v k n = loadWalk m v k' c := by
  subst bit more
  rw [loadWalk, if_neg there, if_neg (by rw [internal]; decide)]

end There

/-- The walk goes along the first bits of the code as long as they lead to an INTERNAL node. -/
theorem loadWalk_follow {pre : List Bool} (code : codeBits v (k + 1) = pre ++ codeBits v (k' + 1))
    (leads : follow m n pre = some n') (internal : (nodeAt m n').kind = .internal) :
    loadWalk m v k n = loadWalk m v k' n' := by
  induction pre generalizing k n with
  | nil =>
    obtain rfl : k = k' := by simpa using congrArg List.length code
    rw [follow_nil_iff.mp leads]
  | cons b pre ih =>
    rw [codeBits, List.cons_append, List.cons.injEq] at code
    obtain ⟨bit, tail⟩ := code
    obtain ⟨-, there, leads⟩ := follow_cons_iff.mp leads
    obtain ⟨j, rfl⟩ : ∃ j, k = j + 1 := by
      have := congrArg List.length tail
      rw [List.length_append, length_codeBits, length_codeBits] at this
      exact ⟨k - 1, by omega⟩
    have passed : (nodeAt m (child m n b)).kind = .internal := by
      cases pre with
      | nil => rw [follow_nil_iff.mp leads, internal]
      | cons _ _ => exact (follow_cons_iff.mp leads).1
    rw [loadWalk_of_more (by rw [bit]) there passed rfl]
    exact ih tail leads

/-- The walk ends with reason 4 where some first bits of the code lead to a LEAF. -/
theorem loadWalk_oldPrefixesNew (root : (nodeAt m n).kind = .internal) {p : List Bool}
    (prefixes : p <+: codeBits v (k + 1)) (leads : follow m n p = some n') (leaf : (nodeAt m n').kind = .leaf) :
    loadWalk m v k n = .oldPrefixesNew := by
  obtain ⟨rest, code⟩ := prefixes
  rcases List.eq_nil_or_concat p with rfl | ⟨pre, b, rfl⟩
  · rw [follow_nil_iff.mp leads, leaf] at root
    cases root
  · rw [List.concat_eq_append] at leads code
    obtain ⟨x, pre_leads, internal, step, there⟩ := follow_snoc_iff.mp leads
    rw [List.append_assoc] at code
    have left : codeBits v (k - pre.length + 1) = b :: rest := by
      have short := congrArg List.length code
      simp only [List.length_append, List.length_singleton, length_codeBits] at short
      rw [show k - pre.length + 1 = k + 1 - pre.length by omega, ← drop_codeBits, ← code, List.drop_left]
      rfl
    have bit : codeBit v (k - pre.length) = b := (List.cons.inj left).1
    rw [loadWalk_follow (k' := k - pre.length) (by rw [left, ← code]; rfl) pre_leads internal]
    exact loadWalk_of_leaf (by rw [bit, step]) there leaf

/-- The walk ends with reason 5 where the whole code leads to an INTERNAL node. -/
theorem loadWalk_newPrefixesOld (leads : follow m n (codeBits v (k + 1)) = some n')
    (internal : (nodeAt m n').kind = .internal) : loadWalk m v k n = .newPrefixesOld := by
  have last : codeBits v (k + 1) = (codeBits v (k + 1)).take k ++ codeBits v (0 + 1) := by
    rw [← Nat.add_sub_cancel_left k (0 + 1), ← drop_codeBits, List.take_append_drop]
  rw [last] at leads
  obtain ⟨x, pre_leads, here, step, there⟩ := follow_snoc_iff.mp leads
  rw [loadWalk_follow last pre_leads here]
  exact loadWalk_of_last step there internal rfl

/-- The walk stops where `StopsAt` says. -/
theorem StopsAt.loadWalk (h : StopsAt m n (codeBits v (k + 1)) k' n') : loadWalk m v k n = .stopped n' (k - k') := by
  obtain ⟨short, leads, internal, free⟩ := h
  rw [length_codeBits] at short
  rw [getD_codeBits v short, Nat.add_sub_cancel] at free
  have rest : (codeBits v (k + 1)).drop k' = codeBits v (k - k' + 1) := by
    rw [drop_codeBits, show k + 1 - k' = k - k' + 1 by omega]
  rw [loadWalk_follow (by rw [← rest, List.take_append_drop]) leads internal]
  exact loadWalk_of_null free

end Walk

/-- A walk along bits from an INTERNAL node stops, or meets a LEAF, or goes along all of them. -/
theorem stopsAt_or_leads {m : Memory Node} {n : NodeIdx} (internal : (nodeAt m n).kind = .internal) (bits : List Bool) :
    (∃ k n', StopsAt m n bits k n') ∨
      (∃ p n', p <+: bits ∧ follow m n p = some n' ∧ (nodeAt m n').kind = .leaf) ∨ ∃ n', follow m n bits = some n' := by
  induction bits generalizing n with
  | nil => exact .inr (.inr ⟨n, follow_nil_iff.mpr rfl⟩)
  | cons b rest ih =>
    by_cases free : child m n b = NULL
    · exact .inl ⟨0, n, Nat.succ_pos _, follow_nil_iff.mpr rfl, internal, free⟩
    have step {p : List Bool} {n' : NodeIdx} (hp : follow m (child m n b) p = some n') :
        follow m n (b :: p) = some n' :=
      follow_cons_iff.mpr ⟨internal, free, hp⟩
    by_cases leaf : (nodeAt m (child m n b)).kind = .leaf
    · exact .inr (.inl ⟨[b], _, ⟨rest, rfl⟩, step (follow_nil_iff.mpr rfl), leaf⟩)
    · obtain ⟨k, n', short, leads, stop⟩ | ⟨p, n', prefixes, leads, leaf⟩ | ⟨n', leads⟩ := ih (kind_ne_leaf.mp leaf)
      · exact .inl ⟨k + 1, n', Nat.succ_lt_succ short, step leads, stop⟩
      · exact .inr (.inl ⟨b :: p, n', (List.prefix_cons_inj b).mpr prefixes, step leads, leaf⟩)
      · exact .inr (.inr ⟨n', step leads⟩)

/-- In a tree LOADCODE can extend, the walk along a code that extends no loaded code and that none extends stops. -/
theorem Loadable.stopsAt {s : State} {root : NodeIdx} {ar : Arena} (h : Loadable s root ar) {code : List Bool}
    (nonempty : code ≠ [])
    (free : ∀ sym, s.cvalidAt sym = true → ¬ s.code sym <+: code ∧ ¬ code <+: s.code sym) :
    ∃ k n, StopsAt ar.node root code k n := by
  obtain stop | ⟨p, n, prefixes, leads, leaf⟩ | ⟨n, leads⟩ := stopsAt_or_leads h.internal code
  · exact stop
  · obtain ⟨valid, rfl⟩ := h.code p _ ⟨n, leads, leaf, rfl⟩
    exact absurd prefixes (free _ valid).1
  · obtain ⟨rest, sym, n', goes, leaf⟩ := (h.below code n leads).resolve_left nonempty
    obtain ⟨valid, e⟩ := h.code (code ++ rest) sym ⟨n', follow_append_iff.mpr ⟨n, leads, goes⟩, leaf⟩
    exact absurd (e ▸ List.prefix_append _ _) (free sym valid).2

/-! ### The tree walked, and the code -/

/-- The tree of a LOADED job is walked as it is. -/
theorem loadTree_of_loaded {s : State} (phase : s.phase = .loaded) : loadTree s = (s.root, s.arena) := by
  rw [loadTree, if_neg (by rw [phase]; decide)]

/-- In EMPTY the tree walked is a lone INTERNAL root at index 0. -/
theorem loadTree_of_empty {s : State} (phase : s.phase = .empty) :
    (loadTree s).1 = 0#9 ∧ (loadTree s).2.next = 1#10 ∧
      nodeAt (loadTree s).2.node 0#9 = Node.internalOf 0#32 NULL NULL := by
  rw [loadTree, if_pos phase]
  refine ⟨rfl, rfl, ?_⟩
  rw [nodeAt_put, if_pos rfl]

/-- The code a LOADCODE of this length adds, first bit first. -/
def State.stagedCode (s : State) (len : BitVec 8) : List Bool := codeBits (codeOperand s.cw len) len.toNat

/-- How the walk along it ends. -/
def State.stagedWalk (s : State) (len : BitVec 8) : LoadWalk :=
  loadWalk (loadTree s).2.node (codeOperand s.cw len) (len.toNat - 1) (loadTree s).1

theorem length_stagedCode (s : State) (len : BitVec 8) : (s.stagedCode len).length = len.toNat := length_codeBits _ _

/-! ### The checks in their order (60_exceptions.md R244) -/

/-- Only CorruptTable is recorded, by a LOADCODE of `sym` and with this reason. -/
def State.refusedTable (s : State) (sym : Symbol) (reason : BitVec 4) : State :=
  { s with err := .corruptTable, errinfo := 0x09#8 ++ (0#12 ++ reason ++ sym : BitVec 24) }

/-- What the end of the walk decides. -/
def State.afterWalk (s : State) (sym : Symbol) (len : BitVec 8) : LoadWalk → State
  | .oldPrefixesNew => s.refusedTable sym 4#4
  | .newPrefixesOld => s.refusedTable sym 5#4
  | .stopped n k =>
    if Config.nnode < (loadTree s).2.next.toNat + (k + 1) then
      { s with err := .nodeOverflow, errinfo := 0x09#8 ++ (0#16 ++ sym : BitVec 24) }
    else loadCommit sym len (codeOperand s.cw len) n k s

/-- What LOADCODE asks of an entry before it walks (R163, reasons 1 to 3). -/
structure Acceptable (s : State) (sym : Symbol) (len : BitVec 8) : Prop where
  nonzero : len ≠ 0#8
  fresh : s.cvalidAt sym = false
  fits : s.cw.toNat < 2 ^ len.toNat

section Exec
variable {sym : Symbol} {len : BitVec 8} {s : State} (err : s.err = .noError)
  (phase : s.phase = .empty ∨ s.phase = .loaded)
include err

theorem raise_corruptTable (reason : BitVec 4) :
    raise (Instr.loadcode sym len).opcode .corruptTable (tableDetail reason sym) s = s.refusedTable sym reason :=
  raise_of_noError err _ _ _

include phase

/-- In EMPTY and LOADED a LOADCODE has its effect. -/
theorem exec_loadcode : exec (.loadcode sym len) s = .next (loadcodeEffect sym len s) :=
  exec_inside rfl err ((legalIn_loadcode sym len _).mpr phase)

theorem exec_loadcode_of_zero (zero : len = 0#8) : exec (.loadcode sym len) s = .next (s.refusedTable sym 1#4) := by
  rw [exec_loadcode err phase, loadcodeEffect, if_pos zero, ← raise_corruptTable err]

theorem exec_loadcode_of_valid (nonzero : len ≠ 0#8) (valid : s.cvalidAt sym = true) :
    exec (.loadcode sym len) s = .next (s.refusedTable sym 2#4) := by
  rw [exec_loadcode err phase, loadcodeEffect, if_neg nonzero, if_pos valid, ← raise_corruptTable err]

theorem exec_loadcode_of_beyond (nonzero : len ≠ 0#8) (fresh : s.cvalidAt sym = false)
    (beyond : 2 ^ len.toNat ≤ s.cw.toNat) : exec (.loadcode sym len) s = .next (s.refusedTable sym 3#4) := by
  have beyond : bitsBeyond s.cw len = true := by
    rw [← Bool.not_eq_false, bitsBeyond_eq_false_iff]
    exact Nat.not_lt.mpr beyond
  rw [exec_loadcode err phase, loadcodeEffect, if_neg nonzero, if_neg (Bool.eq_false_iff.mp fresh), if_pos beyond,
    ← raise_corruptTable err]

variable (accept : Acceptable s sym len)
include accept

/-- Past the first three checks the end of the walk decides. -/
theorem exec_loadcode_of_acceptable :
    exec (.loadcode sym len) s = .next (s.afterWalk sym len (s.stagedWalk len)) := by
  have within := Bool.eq_false_iff.mp ((bitsBeyond_eq_false_iff s.cw len).mpr accept.fits)
  rw [exec_loadcode err phase, loadcodeEffect, if_neg accept.nonzero, if_neg (Bool.eq_false_iff.mp accept.fresh),
    if_neg within, State.stagedWalk]
  dsimp only
  split
  · next walk => rw [walk, State.afterWalk, raise_corruptTable err]
  · next walk => rw [walk, State.afterWalk, raise_corruptTable err]
  · next walk =>
    rw [walk, State.afterWalk, raise_of_noError err, symDetail_eq_append]
    rfl

end Exec

/-! ### How the walk along the staged code ends -/

section Staged
variable {sym : Symbol} {len : BitVec 8} {s : State} (nonzero : len ≠ 0#8)
include nonzero

theorem pred_len_add_one : len.toNat - 1 + 1 = len.toNat :=
  Nat.sub_add_cancel (Nat.one_le_iff_ne_zero.mpr fun e => nonzero (BitVec.eq_of_toNat_eq e))

theorem stagedCode_eq : s.stagedCode len = codeBits (codeOperand s.cw len) (len.toNat - 1 + 1) := by
  rw [pred_len_add_one nonzero, State.stagedCode]

theorem stagedWalk_of_stopsAt {k : Nat} {n : NodeIdx}
    (stop : StopsAt (loadTree s).2.node (loadTree s).1 (s.stagedCode len) k n) :
    s.stagedWalk len = .stopped n (len.toNat - 1 - k) := by
  rw [stagedCode_eq nonzero] at stop
  exact stop.loadWalk

variable (tree : Loadable s (loadTree s).1 (loadTree s).2) (valid : s.cvalidAt sym = true)
include tree valid

/-- A code that extends a loaded one meets its LEAF. -/
theorem stagedWalk_of_extends (extended : s.code sym <+: s.stagedCode len) : s.stagedWalk len = .oldPrefixesNew := by
  obtain ⟨n, leads, leaf, -⟩ := tree.leads sym valid
  rw [stagedCode_eq nonzero] at extended
  exact loadWalk_oldPrefixesNew tree.internal extended leads leaf

/-- A code that a longer loaded one extends ends at an INTERNAL node. -/
theorem stagedWalk_of_extended (longer : s.stagedCode len <+: s.code sym) (ne : s.stagedCode len ≠ s.code sym) :
    s.stagedWalk len = .newPrefixesOld := by
  obtain ⟨n, leads, -⟩ := tree.leads sym valid
  obtain ⟨rest, code⟩ := longer
  rw [← code, follow_append_iff] at leads
  obtain ⟨x, leads, more⟩ := leads
  rw [stagedCode_eq nonzero] at leads
  cases rest with
  | nil => exact absurd ((List.append_nil _).symm.trans code) ne
  | cons b rest => exact loadWalk_newPrefixesOld leads (follow_cons_iff.mp more).1

end Staged

/-! ### The path placed (R163, R164) -/

/-- The path of the last bits of a code, placed where its first bits lead. -/
theorem PathPlaced.append {sym : Symbol} {suf : List Bool} {n : NodeIdx} {old new : Arena}
    (h : PathPlaced sym suf 0 n old new) (pre : List Bool) : PathPlaced sym (pre ++ suf) pre.length n old new where
  next := by rw [h.next, List.length_append, Nat.add_sub_cancel_left, Nat.sub_zero]
  kept := h.kept
  stop := by rw [List.getD_append_right _ _ _ _ le_rfl, Nat.sub_self, h.stop]
  placed j le lt := by
    obtain ⟨i, rfl⟩ := Nat.exists_eq_add_of_le le
    rw [List.length_append, Nat.add_lt_add_iff_left] at lt
    simp only [List.length_append, Nat.add_assoc, Nat.add_sub_cancel_left, Nat.add_right_inj,
      List.getD_append_right _ _ _ _ (Nat.le_add_right _ _)]
    exact h.placed i (Nat.zero_le i) lt

section Stopped
variable {sym : Symbol} {len : BitVec 8} {s : State} (accept : Acceptable s sym len) {k : Nat} {n : NodeIdx}
  (stop : StopsAt (loadTree s).2.node (loadTree s).1 (s.stagedCode len) k n)

/-- The state after the commit of the staged code where the walk along it stopped at node `n` before bit `k`. -/
def State.added (s : State) (sym : Symbol) (len : BitVec 8) (k : Nat) (n : NodeIdx) : State :=
  loadCommit sym len (codeOperand s.cw len) n (len.toNat - 1 - k) s

include stop

theorem StopsAt.lt_len : k < len.toNat := length_stagedCode s len ▸ stop.1

/-- The commit allocates a node for each bit from `k` on. -/
theorem StopsAt.left : len.toNat - 1 - k + 1 = len.toNat - k := by
  have := stop.lt_len
  omega

include accept

section Exec
variable (err : s.err = .noError) (phase : s.phase = .empty ∨ s.phase = .loaded)
include err phase

theorem exec_loadcode_of_overflow (full : 511 < (loadTree s).2.next.toNat + (len.toNat - k)) :
    exec (.loadcode sym len) s =
      .next { s with err := .nodeOverflow, errinfo := 0x09#8 ++ (0#16 ++ sym : BitVec 24) } := by
  rw [exec_loadcode_of_acceptable err phase accept, stagedWalk_of_stopsAt accept.nonzero stop, State.afterWalk,
    stop.left, if_pos full]

theorem exec_loadcode_of_room (room : (loadTree s).2.next.toNat + (len.toNat - k) ≤ 511) :
    exec (.loadcode sym len) s = .next (s.added sym len k n) := by
  rw [exec_loadcode_of_acceptable err phase accept, stagedWalk_of_stopsAt accept.nonzero stop, State.afterWalk,
    stop.left, if_neg (Nat.not_lt.mpr room)]
  rfl

end Exec

section Grown
variable (h : PhaseInv s) (phase : s.phase = .empty ∨ s.phase = .loaded)
  (room : (loadTree s).2.next.toNat + (len.toNat - k) ≤ 511)
include h phase room

theorem phaseInv_added : PhaseInv (s.added sym len k n) :=
  phaseInv_of_commit h phase accept.nonzero accept.fresh (stagedWalk_of_stopsAt accept.nonzero stop)
    (stop.left.symm ▸ room) rfl

/-- The commit grafts the bits from `k` on onto node `n`. -/
theorem grafted_added : Grafted sym (loadTree s).1 n ((s.stagedCode len).take k) ((s.stagedCode len).drop k)
    (loadTree s).2 (s.added sym len k n).arena := by
  obtain ⟨pre, suf, code, graft⟩ := commit_grafted (t := s.added sym len k n) h phase accept.nonzero
    (stagedWalk_of_stopsAt accept.nonzero stop) (stop.left.symm ▸ room) rfl
  obtain rfl : pre = (s.stagedCode len).take k := (h.loadable phase).1.unique graft.leads stop.2.1
  obtain rfl : suf = (s.stagedCode len).drop k :=
    List.append_cancel_left (code.symm.trans (List.take_append_drop k _).symm)
  exact graft

theorem pathPlaced_added :
    PathPlaced sym (s.stagedCode len) k n (loadTree s).2 (s.added sym len k n).arena := by
  have placed := (grafted_added accept stop h phase room).placed.append ((s.stagedCode len).take k)
  rwa [List.take_append_drop, List.length_take, Nat.min_eq_left (Nat.le_of_lt stop.1)] at placed

/-- After the commit the job is LOADED: its codes are the paths of its leaves, and its root is at index 0. -/
theorem added_table : TableMatchesTree (s.added sym len k n) ∧ (s.added sym len k n).root = 0#9 := by
  obtain ⟨-, table, -, -, -, root, -⟩ := (phaseInv_loaded rfl).mp (phaseInv_added accept stop h phase room)
  exact ⟨table, root⟩

end Grown

end Stopped

/-- The commit writes the entry of its symbol and no other. -/
theorem entry_added (s : State) (sym : Symbol) (len : BitVec 8) (k : Nat) (n : NodeIdx) (other : Symbol) :
    (s.added sym len k n).cvalidAt other = (if other = sym then true else s.cvalidAt other) ∧
      (s.added sym len k n).clenAt other = (if other = sym then len else s.clenAt other) ∧
      (s.added sym len k n).cvalAt other = if other = sym then codeOperand s.cw len else s.cvalAt other :=
  ⟨cvalidAt_assign s sym other len (codeOperand s.cw len), clenAt_assign s sym other len (codeOperand s.cw len),
    cvalAt_assign s sym other len (codeOperand s.cw len)⟩

/-! ### The first code (R163) -/

section First
variable {sym : Symbol} {len : BitVec 8} {s : State} (phase : s.phase = .empty)
include phase

/-- The first new node in EMPTY is node 1. -/
theorem placed_of_empty (i : Nat) : (loadTree s).2.placed i = BitVec.ofNat 9 (i + 1) := by
  rw [Arena.placed, (loadTree_of_empty phase).2.1, Nat.add_comm]
  rfl

/-- A first code of any length fits. -/
theorem room_of_empty (len : BitVec 8) : (loadTree s).2.next.toNat + (len.toNat - 0) ≤ 511 := by
  have := len.isLt
  have : (loadTree s).2.next.toNat = 1 := by
    rw [(loadTree_of_empty phase).2.1]
    rfl
  omega

/-- In EMPTY the walk stops at the root, before the first bit. -/
theorem stopsAt_of_empty (nonzero : len ≠ 0#8) :
    StopsAt (loadTree s).2.node (loadTree s).1 (s.stagedCode len) 0 0#9 := by
  obtain ⟨root, -, lone⟩ := loadTree_of_empty phase
  have pos := pred_len_add_one nonzero
  refine ⟨by rw [length_stagedCode]; omega, follow_nil_iff.mpr root, by rw [lone]; rfl, ?_⟩
  rw [child_of_internalOf lone]
  exact ite_self _

variable (h : PhaseInv s) (accept : Acceptable s sym len)
include h accept

/-- The commit grafts the whole of the first code onto the new root. -/
theorem grafted_of_empty :
    Grafted sym 0#9 0#9 [] (s.stagedCode len) (loadTree s).2 (s.added sym len 0 0#9).arena := by
  have graft := grafted_added accept (stopsAt_of_empty phase accept.nonzero) h (.inl phase) (room_of_empty phase len)
  rwa [(loadTree_of_empty phase).1, List.take_zero, List.drop_zero] at graft

/-- The first code leads to its LEAF at node `len`. -/
theorem leaf_of_empty : follow (s.added sym len 0 0#9).node 0#9 (s.stagedCode len) = some (BitVec.ofNat 9 len.toNat) ∧
    nodeAt (s.added sym len 0 0#9).node (BitVec.ofNat 9 len.toNat) = Node.leafOf 0#32 sym := by
  have graft := grafted_of_empty phase h accept
  have last : len.toNat - 1 + 1 = (s.stagedCode len).length := by
    rw [length_stagedCode, pred_len_add_one accept.nonzero]
  have leads := graft.follow_placed (Nat.lt_of_succ_le last.le)
  have leaf := graft.leaf_placed last
  rw [placed_of_empty phase, last, length_stagedCode] at leads leaf
  rw [List.nil_append, List.take_of_length_le (length_stagedCode s len).le] at leads
  exact ⟨leads, leaf⟩

end First

/-! ### LOADCODE -/

/-- Settles O24: the checks in their order. -/
theorem loadcodeRefusesABadEntry : Obligations.LoadcodeRefusesABadEntry := by
  unfold Obligations.LoadcodeRefusesABadEntry
  refine ⟨fun sym len => ?word, fun sym len s err phase => ⟨exec_loadcode_of_zero err phase,
      exec_loadcode_of_valid err phase, exec_loadcode_of_beyond err phase⟩,
    fun sym len => raisesOutside_row (row := phaseTable[13]) (List.getElem_mem _) rfl rfl,
    raisesOnReserved_row (r := opcodeRows[9]) (List.getElem_mem _) rfl rfl⟩
  case word =>
    rw [encode_eq_or, Instr.opcode, Instr.operand, BitVec.setWidth_append_eq_shiftLeft_setWidth_or,
      setWidth_zero_append 8 32 len, ← BitVec.or_assoc]
    rfl

/-- Settles O25: the walk meets the LEAF of a code the new one extends, and ends above that of one that extends it. -/
theorem loadcodeKeepsTheTablePrefixFree : Obligations.LoadcodeKeepsTheTablePrefixFree := by
  unfold Obligations.LoadcodeKeepsTheTablePrefixFree
  intro sym sym' len s good phase err nonzero fresh fits valid
  have accept : Acceptable s sym len := ⟨nonzero, fresh, fits⟩
  have tree := (good.phased.loadable (.inr phase)).1
  have ends := exec_loadcode_of_acceptable err (.inr phase) accept
  refine ⟨fun extended => ?_, fun extended ne => ?_⟩
  · rwa [stagedWalk_of_extends nonzero tree valid extended] at ends
  · rwa [stagedWalk_of_extended nonzero tree valid extended ne] at ends

/-- Settles O26: the walk stops, and the commit grafts the rest of the path where it did. -/
theorem loadcodeAddsTheCode : Obligations.LoadcodeAddsTheCode := by
  unfold Obligations.LoadcodeAddsTheCode
  intro sym len s good phase err nonzero fresh fits code root old free
  have accept : Acceptable s sym len := ⟨nonzero, fresh, fits⟩
  have nonempty : s.stagedCode len ≠ [] := fun e => by
    have := congrArg List.length e
    rw [length_stagedCode, ← pred_len_add_one nonzero] at this
    cases this
  refine ⟨loadTree_of_empty, fun loaded => Prod.mk.inj (loadTree_of_loaded loaded),
    (good.phased.loadable phase).1.stopsAt nonempty free, fun k n stop room => ?_⟩
  have entry := entry_added s sym len k n
  obtain ⟨valid, length, value⟩ := entry sym
  obtain ⟨table, root⟩ := added_table accept stop good.phased phase room
  refine ⟨s.added sym len k n, exec_loadcode_of_room accept stop err phase room, err, valid.trans (if_pos rfl),
    length.trans (if_pos rfl), ?_, fun other ne => ?_, pathPlaced_added accept stop good.phased phase room, table,
    table.prefixFree, rfl, root, rfl, rfl⟩
  · rw [value, if_pos rfl, toNat_codeOperand fits]
  · simpa only [if_neg ne] using entry other

/-- Settles O27: the path of the first code hangs from a new root, and its nodes always fit. -/
theorem firstLoadcodeMakesTheTree : Obligations.FirstLoadcodeMakesTheTree := by
  unfold Obligations.FirstLoadcodeMakesTheTree
  intro sym len s good phase err nonzero fits
  obtain ⟨noTree, -, -, ndist⟩ := (phaseInv_empty phase).mp good.phased
  have accept : Acceptable s sym len := ⟨nonzero, noTree.codes sym, fits⟩
  have stop := stopsAt_of_empty phase nonzero
  have room := room_of_empty phase len
  have graft := grafted_of_empty phase good.phased accept
  obtain ⟨-, next, lone⟩ := loadTree_of_empty phase
  obtain ⟨leads, leaf⟩ := leaf_of_empty phase good.phased accept
  have root := (added_table accept stop good.phased (.inl phase) room).2
  have cursor : (s.added sym len 0 0#9).cursor = 0#9 := if_pos phase
  refine ⟨s.added sym len 0 0#9, exec_loadcode_of_room accept stop err (.inl phase) room, rfl, err, root, cursor,
    ?_, ?_, ?_, ?_, leads, leaf⟩
  · rw [atRoot_eq, root, cursor]
    decide
  · rw [← arena_next, graft.next, next, length_stagedCode, Nat.add_comm]
    rfl
  · show s.ndist + 1#9 = 1#9
    rw [ndist]
    rfl
  · rw [← arena_node, graft.kind_old graft.rootLt, lone]
    rfl

/-- Settles O28: the walk stops at the node the premises give, and the path does not fit. -/
theorem loadcodeRefusesWhenNodesRunOut : Obligations.LoadcodeRefusesWhenNodesRunOut := by
  unfold Obligations.LoadcodeRefusesWhenNodesRunOut
  intro sym len s k n phase err nonzero fresh fits short _ internal leads free full
  rw [← getD_codeBits _ short] at free
  have tree := loadTree_of_loaded phase
  have stop : StopsAt (loadTree s).2.node (loadTree s).1 (s.stagedCode len) k n := by
    rw [tree]
    exact ⟨by rwa [length_stagedCode], leads, internal, free⟩
  exact exec_loadcode_of_overflow ⟨nonzero, fresh, fits⟩ stop err (.inr phase) (by rwa [tree])

end Sys2Proof.Machine
end

section
/-! SUPPORT. The encoder (44_encoder.md R180 to R183): PutBit appends one bit to the stream, so ENCODE appends a code and a
message its codes; and where a bit of the stream stands in the words of OUT. -/

namespace Sys2Proof.Machine

/-! ### The stream as words (10_state.md R34, R180) -/

@[simp] theorem length_wordBits (w : Word) (n : Nat) : (wordBits w n).length = n := by simp [wordBits]

/-- The bits of whole words, in order. -/
def wordsBits (words : List Word) : List Bool := (words.map fun w => wordBits w 32).flatten

theorem wordsBits_concat (words : List Word) (w : Word) : wordsBits (words ++ [w]) = wordsBits words ++ wordBits w 32 := by
  simp [wordsBits]

theorem length_wordsBits (words : List Word) : (wordsBits words).length = 32 * words.length := by
  simp [wordsBits, List.length_flatten, Function.comp_def, Nat.mul_comm]

theorem stream_eq_wordsBits (p : Packer) : p.stream = wordsBits p.out ++ wordBits p.packbuf p.packcnt.toNat := rfl

theorem length_stream (p : Packer) : p.stream.length = 32 * p.out.length + p.packcnt.toNat := by
  rw [stream_eq_wordsBits, List.length_append, length_wordsBits, length_wordBits]

/-! ### Appending bits (R180) -/

/-- PutBit writes its bit at position 31 − cnt and leaves every other bit. -/
theorem getLsbD_setPackBit_eq (buf : Word) (cnt : Nat) {i : Nat} (b : Bool) (hi : i < 32) :
    (setPackBit buf cnt b).getLsbD i = if i + cnt = 31 then b else buf.getLsbD i := by
  have at31 : ((0x80000000#32 : Word) >>> cnt).getLsbD i = decide (i + cnt = 31) := by
    rw [BitVec.getLsbD_ushiftRight, show (0x80000000#32 : Word) = BitVec.twoPow 32 31 by decide, BitVec.getLsbD_twoPow]
    simp; omega
  unfold setPackBit
  cases b
  · rw [if_neg Bool.false_ne_true, BitVec.getLsbD_and, BitVec.getLsbD_not, at31]
    by_cases here : i + cnt = 31 <;> simp [here, hi]
  · rw [if_pos rfl, BitVec.getLsbD_or, at31]
    by_cases here : i + cnt = 31 <;> simp [here]

theorem wordBits_setPackBit (buf : Word) {cnt : Nat} (b : Bool) (hcnt : cnt < 32) :
    wordBits (setPackBit buf cnt b) (cnt + 1) = wordBits buf cnt ++ [b] := by
  rw [wordBits, List.range_succ, List.map_append]
  congr 1
  · refine List.map_congr_left fun j mem => ?_
    have lt := List.mem_range.mp mem
    rw [getLsbD_setPackBit_eq _ _ _ (by omega), if_neg (by omega)]
  · rw [List.map_singleton, getLsbD_setPackBit_eq _ _ _ (by omega), if_pos (by omega)]

theorem stream_putBit (b : Bool) (p : Packer) : (putBit b p).stream = p.stream ++ [b] := by
  have bits := wordBits_setPackBit p.packbuf b p.packcnt.isLt
  rw [stream_eq_wordsBits p, List.append_assoc]
  unfold putBit
  dsimp only
  split
  · next full =>
    rw [← bits, full, stream_eq_wordsBits, wordsBits_concat]
    exact List.append_nil _
  · next room =>
    have count : (p.packcnt + 1#5).toNat = p.packcnt.toNat + 1 := by
      rw [BitVec.toNat_add_of_lt (by simp; omega)]
      rfl
    rw [← bits, ← count]
    rfl

theorem bitcnt_putBit (b : Bool) (p : Packer) : (putBit b p).bitcnt = p.bitcnt + 1#64 := by
  unfold putBit
  dsimp only
  split <;> rfl

theorem out_prefix_putBit (b : Bool) (p : Packer) : p.out <+: (putBit b p).out := by
  unfold putBit
  dsimp only
  split
  · exact List.prefix_append _ _
  · exact List.prefix_rfl

/-- PutBit of each bit of a list, in order. -/
def Packer.putBits (p : Packer) (bits : List Bool) : Packer := bits.foldl (fun p b => putBit b p) p

theorem putBits_cons (p : Packer) (b : Bool) (bits : List Bool) : p.putBits (b :: bits) = (putBit b p).putBits bits := rfl

theorem putBits_append (p : Packer) (bits rest : List Bool) :
    p.putBits (bits ++ rest) = (p.putBits bits).putBits rest := List.foldl_append

theorem stream_putBits (p : Packer) (bits : List Bool) : (p.putBits bits).stream = p.stream ++ bits := by
  induction bits generalizing p with
  | nil => exact (List.append_nil _).symm
  | cons b bits ih => rw [putBits_cons, ih, stream_putBit, List.append_assoc, List.singleton_append]

theorem bitcnt_putBits (p : Packer) (bits : List Bool) :
    (p.putBits bits).bitcnt = p.bitcnt + BitVec.ofNat 64 bits.length := by
  induction bits generalizing p with
  | nil => exact (BitVec.add_zero _).symm
  | cons b bits ih =>
    rw [putBits_cons, ih, bitcnt_putBit, List.length_cons, Nat.add_comm, BitVec.ofNat_add, BitVec.add_assoc]

theorem out_prefix_putBits (p : Packer) (bits : List Bool) : p.out <+: (p.putBits bits).out := by
  induction bits generalizing p with
  | nil => exact List.prefix_rfl
  | cons b bits ih => exact (out_prefix_putBit b p).trans (ih _)

/-- The loop of R181 sends the bits of the code, first code bit first. -/
theorem putCode_eq_putBits (v : CodeVal) (len : Nat) (p : Packer) : putCode v len p = p.putBits (codeBits v len) := by
  induction len generalizing p with
  | zero => rfl
  | succ j ih => exact ih _

theorem packed_eq_putBits (s : State) (sym : Symbol) : s.packed sym = s.packer.putBits (s.code sym) :=
  putCode_eq_putBits _ _ _

theorem stream_packed (s : State) (sym : Symbol) : (s.packed sym).stream = s.packer.stream ++ s.code sym := by
  rw [packed_eq_putBits, stream_putBits]

theorem bitcnt_packed (s : State) (sym : Symbol) :
    (s.packed sym).bitcnt = s.bitcnt + (s.clenAt sym).setWidth 64 := by
  rw [packed_eq_putBits, bitcnt_putBits, length_code, BitVec.ofNat_toNat, packer_bitcnt]

theorem out_prefix_packed (s : State) (sym : Symbol) : s.out <+: (s.packed sym).out := by
  rw [packed_eq_putBits]
  exact out_prefix_putBits s.packer _

/-! ### ENCODE and FLUSH (R181, R182) -/

theorem legalIn_encode (sym : Symbol) (p : Phase) : legalIn (.encode sym) p = true ↔ p = .ready ∨ p = .loaded := by
  simp [legalIn]

theorem legalIn_flush (p : Phase) : legalIn .flush p = true ↔ p = .ready ∨ p = .loaded := by
  simp [legalIn]

theorem flushEffect_of_empty {s : State} (empty : s.packcnt = 0#5) : flushEffect s = s := if_pos empty

theorem flushEffect_of_pending {s : State} (pending : s.packcnt ≠ 0#5) :
    flushEffect s = { s with out := s.out ++ [s.packbuf], packbuf := 0#32, packcnt := 0#5 } := if_neg pending

section Exec
variable {s : State} (err : s.err = .noError) (phase : s.phase = .ready ∨ s.phase = .loaded)
include err phase

theorem exec_encode_of_valid {sym : Symbol} (valid : s.cvalidAt sym = true) :
    exec (.encode sym) s = .next (s.withPacker (s.packed sym)) := by
  rw [exec_inside rfl err ((legalIn_encode sym _).mpr phase)]
  exact congrArg _ (if_pos valid)

theorem exec_encode_of_missing {sym : Symbol} (missing : s.cvalidAt sym = false) :
    exec (.encode sym) s =
      .next { s with err := .missingSymbol, errinfo := 0x05#8 ++ (0#16 ++ sym : BitVec 24) } := by
  rw [exec_inside rfl err ((legalIn_encode sym _).mpr phase), effectOf, encodeEffect, if_neg (by simp [missing]),
    raise_of_noError err, symDetail_eq_append]
  rfl

theorem exec_flush : exec .flush s = .next (flushEffect s) := exec_inside rfl err ((legalIn_flush _).mpr phase)

end Exec

/-- Settles O29. -/
theorem encodeAppendsTheCode : Obligations.EncodeAppendsTheCode := by
  unfold Obligations.EncodeAppendsTheCode
  refine ⟨fun sym => ?word, fun sym s err phase => ⟨fun valid => ?appended, exec_encode_of_missing err phase⟩,
    fun sym => raisesOutside_row (row := phaseTable[9]) (List.getElem_mem _) rfl rfl,
    raisesOnReserved_row (r := opcodeRows[5]) (List.getElem_mem _) rfl rfl⟩
  case word =>
    rw [encode_eq_or, Instr.opcode, Instr.operand, setWidth_zero_append 16 32 sym]
    rfl
  case appended =>
    exact ⟨s.withPacker (s.packed sym), exec_encode_of_valid err phase valid, stream_packed s sym, bitcnt_packed s sym,
      putCode_padded _ _ (p := s.packer), out_prefix_packed s sym, packed_out_length s sym, rfl⟩

/-- Settles O31. -/
theorem flushPushesThePartialWord : Obligations.FlushPushesThePartialWord := by
  unfold Obligations.FlushPushesThePartialWord
  refine ⟨rfl, fun s err phase => ⟨fun empty => ?_, fun pending => ?_⟩,
    raisesOutside_row (row := phaseTable[10]) (List.getElem_mem _) rfl rfl,
    raisesOnReserved_row (r := opcodeRows[6]) (List.getElem_mem _) rfl rfl⟩
  · rw [exec_flush err phase, flushEffect_of_empty empty]
  · rw [exec_flush err phase, flushEffect_of_pending pending]

/-! ### Messages (R183) -/

/-- The state after the ENCODEs of a message: its codes appended one after another. -/
def State.encoded (s : State) (msg : List Symbol) : State :=
  s.withPacker (s.packer.putBits (msg.map s.code).flatten)

/-- Encoding a message with its first symbol encoded already. -/
theorem encoded_cons (s : State) (sym : Symbol) (msg : List Symbol) :
    s.encoded (sym :: msg) = (s.withPacker (s.packed sym)).encoded msg := by
  rw [packed_eq_putBits, State.encoded, List.map_cons, List.flatten_cons, putBits_append]
  rfl

theorem runCommands_encode {msg : List Symbol} {s : State} (err : s.err = .noError)
    (phase : s.phase = .ready ∨ s.phase = .loaded) (valid : ∀ sym ∈ msg, s.cvalidAt sym = true) :
    runCommands (msg.map Instr.encode) s = .next (s.encoded msg) := by
  induction msg generalizing s with
  | nil => rfl
  | cons sym msg ih =>
    obtain ⟨here, later⟩ := List.forall_mem_cons.mp valid
    rw [List.map_cons, runCommands, exec_encode_of_valid err phase here, encoded_cons]
    exact ih (s := s.withPacker (s.packed sym)) err phase later

theorem stream_encoded {s : State} (msg : List Symbol) (out : s.out = []) (packcnt : s.packcnt = 0#5) :
    (s.encoded msg).packer.stream = (msg.map s.code).flatten := by
  have empty : s.packer.stream = [] := by simp [Packer.stream, out, packcnt, wordBits]
  rw [State.encoded, withPacker_packer, stream_putBits, empty, List.nil_append]

/-- Settles O32. -/
theorem encodedMessageIsItsCodes : Obligations.EncodedMessageIsItsCodes := by
  unfold Obligations.EncodedMessageIsItsCodes
  intro msg s err phase valid out packcnt
  exact ⟨s.encoded msg, runCommands_encode err phase valid, stream_encoded msg out packcnt, bitcnt_putBits _ _⟩

/-! ### Where a bit of the stream stands (R180) -/

/-- Bit k of whole words is bit 31 − (k mod 32) of word ⌊k/32⌋. -/
theorem getElem?_wordsBits {words : List Word} {k : Nat} (hk : k < 32 * words.length) :
    (wordsBits words)[k]? = some ((words.getD (k / 32) 0#32).getLsbD (31 - k % 32)) := by
  induction words generalizing k with
  | nil => exact absurd hk (Nat.not_lt_zero k)
  | cons w words ih =>
    rw [wordsBits, List.map_cons, List.flatten_cons, ← wordsBits]
    by_cases first : k < 32
    · rw [List.getElem?_append_left (by simpa using first), Nat.div_eq_of_lt first, Nat.mod_eq_of_lt first]
      simp [wordBits, first]
    · obtain ⟨j, rfl⟩ := Nat.exists_eq_add_of_le (Nat.not_lt.mp first)
      rw [List.getElem?_append_right (by simp), length_wordBits, Nat.add_sub_cancel_left, Nat.add_comm 32 j,
        Nat.add_div_right _ (by decide), Nat.add_mod_right, List.getD_cons_succ]
      exact ih (by rw [List.length_cons] at hk; omega)

/-- So it is of any bits those words begin with. -/
theorem getElem?_of_prefix_wordsBits {bits : List Bool} {words : List Word} (begins : bits <+: wordsBits words) {k : Nat}
    (hk : k < bits.length) : bits[k]? = some ((words.getD (k / 32) 0#32).getLsbD (31 - k % 32)) := by
  rw [← getElem?_wordsBits (hk.trans_le (length_wordsBits words ▸ begins.length_le))]
  obtain ⟨rest, e⟩ := begins
  rw [← e, List.getElem?_append_left hk]

theorem wordBits_prefix (w : Word) {n : Nat} (hn : n ≤ 32) : wordBits w n <+: wordBits w 32 := by
  obtain ⟨rest, full⟩ := Nat.exists_eq_add_of_le hn
  rw [full, wordBits, wordBits, List.range_add, List.map_append]
  exact List.prefix_append _ _

/-- The stream is what OUT with PACKBUF behind it begins with. -/
theorem stream_prefix (p : Packer) : p.stream <+: wordsBits (p.out ++ [p.packbuf]) := by
  rw [wordsBits_concat, stream_eq_wordsBits, List.prefix_append_right_inj]
  exact wordBits_prefix p.packbuf p.packcnt.isLt.le

/-- FLUSH leaves the stream in OUT alone, with padding behind it. -/
theorem stream_prefix_flushEffect (s : State) : s.packer.stream <+: wordsBits (flushEffect s).out := by
  by_cases empty : s.packcnt = 0#5
  · rw [flushEffect_of_empty empty, stream_eq_wordsBits, packer_packcnt, empty]
    simp [wordBits]
  · rw [flushEffect_of_pending empty]
    exact stream_prefix s.packer

theorem length_out_flushEffect (s : State) : (flushEffect s).out.length = (s.packer.stream.length + 31) / 32 := by
  have lt := s.packcnt.isLt
  rw [length_stream, packer_out, packer_packcnt]
  by_cases empty : s.packcnt = 0#5
  · rw [flushEffect_of_empty empty, empty]
    simp; omega
  · have pos : s.packcnt.toNat ≠ 0 := fun zero => empty (BitVec.eq_of_toNat_eq zero)
    rw [flushEffect_of_pending empty]
    simp; omega

/-- Settles O30: the codes are the stream, which stands in the words of OUT and PACKBUF, and after FLUSH in those of OUT. -/
theorem streamBitStandsInItsWord : Obligations.StreamBitStandsInItsWord := by
  unfold Obligations.StreamBitStandsInItsWord
  intro msg s err phase valid out packcnt
  rw [← stream_encoded msg out packcnt]
  exact ⟨s.encoded msg, runCommands_encode err phase valid, (length_stream _).symm,
    fun k => getElem?_of_prefix_wordsBits (stream_prefix _), flushEffect (s.encoded msg),
    exec_flush (s := s.encoded msg) err phase, length_out_flushEffect _,
    fun k => getElem?_of_prefix_wordsBits (stream_prefix_flushEffect _)⟩

end Sys2Proof.Machine
end

section
/-! SUPPORT. The decoder (45_decoder.md R200 to R202): DECODE's loop is the tree walk of its bits, walks compose, a code walked
from the root gives its symbol back, and the commands of R91 feed exactly the bits of the stream. -/

namespace Sys2Proof.Machine

/-! ### The tree walk (R200) -/

section Walk
variable {m : Memory Node} {root n c : NodeIdx} {b : Bool}

theorem exists_walkBits_singleton (there : child m n b ≠ NULL) : ∃ got, walkBits m root [b] n = some got := by
  simp only [walkBits, if_neg there]
  split <;> exact ⟨_, rfl⟩

/-- A walk goes on where its first part ends. -/
theorem walkBits_append_iff {p q : List Bool} {syms : List Symbol} :
    walkBits m root (p ++ q) n = some (c, syms) ↔ ∃ x first rest, walkBits m root p n = some (x, first) ∧
      walkBits m root q x = some (c, rest) ∧ syms = first ++ rest := by
  induction p generalizing n syms with
  | nil => simp [walkBits]
  | cons b p ih =>
    rw [List.cons_append, walkBits, walkBits]
    split
    · simp
    split
    · simp only [Option.map_eq_some_iff, Prod.exists, Prod.mk.injEq]
      constructor
      · rintro ⟨_, _, h, rfl, rfl⟩
        obtain ⟨x, first, rest, hp, hq, rfl⟩ := ih.mp h
        exact ⟨x, _, rest, ⟨x, first, hp, rfl, rfl⟩, hq, rfl⟩
      · rintro ⟨_, _, rest, ⟨x, first, hp, rfl, rfl⟩, hq, rfl⟩
        exact ⟨c, first ++ rest, ih.mpr ⟨x, first, rest, hp, hq, rfl⟩, rfl, rfl⟩
    · exact ih

/-- Walking a path that leads from an INTERNAL node to a LEAF recovers its symbol and returns to the root. -/
theorem walkBits_of_leadsTo {p : List Bool} {sym : Symbol} (internal : (nodeAt m n).kind = .internal)
    (leads : LeadsTo m n p sym) : walkBits m root p n = some (root, [sym]) := by
  induction p generalizing n with
  | nil =>
    obtain ⟨_, _, e, -⟩ := (leadsTo_of_internal internal [] sym).mp leads
    cases e
  | cons b p ih =>
    obtain ⟨_, _, e, there, leads⟩ := (leadsTo_of_internal internal _ sym).mp leads
    cases e
    rw [walkBits, if_neg there]
    split
    · next leaf =>
      obtain ⟨n', path, -, rfl⟩ := leads
      obtain ⟨rfl, rfl⟩ := follow_of_leaf leaf path
      rfl
    · next inner => exact ih (kind_ne_leaf.mp inner) leads

end Walk

/-! ### The bits of an operand -/

/-- The first `k` bits DECODE takes from its operand, in order. -/
def streamBits (bits : BitVec 16) (k : Nat) : List Bool := (List.range k).map (streamBit bits)

theorem operandBits_eq (n : BitVec 5) (bits : BitVec 16) : operandBits n bits = streamBits bits n.toNat := rfl

theorem streamBits_succ (bits : BitVec 16) (k : Nat) : streamBits bits (k + 1) = streamBits bits k ++ [streamBit bits k] := by
  rw [streamBits, List.range_succ, List.map_append, List.map_singleton, streamBits]

theorem take_operandBits {n : BitVec 5} {j : Nat} (hj : j < n.toNat) (bits : BitVec 16) :
    (operandBits n bits).take j = streamBits bits j := by
  rw [operandBits, ← List.map_take, List.take_range, Nat.min_eq_left hj.le, streamBits]

/-- Past the first `a` bits an operand goes on as the operand shifted left by `a`. -/
theorem streamBits_add (bits : BitVec 16) {a b : Nat} (fits : a + b ≤ 16) :
    streamBits bits (a + b) = streamBits bits a ++ streamBits (bits <<< a) b := by
  rw [streamBits, List.range_add, List.map_append, List.map_map, streamBits, streamBits]
  refine congrArg _ (List.map_congr_left fun j mem => ?_)
  have lt := List.mem_range.mp mem
  rw [Function.comp_apply, streamBit, streamBit, BitVec.getLsbD_shiftLeft, decide_eq_true (by omega),
    decide_eq_false (by omega), Bool.true_and, Bool.not_false, Bool.true_and]
  exact congrArg bits.getLsbD (by omega)

/-- The upper half of a word holds its first 16 bits. -/
theorem streamBits_upper (w : Word) {k : Nat} (hk : k ≤ 16) : streamBits (w.extractLsb' 16 16) k = wordBits w k := by
  refine List.map_congr_left fun j mem => ?_
  have lt := List.mem_range.mp mem
  rw [streamBit, BitVec.getLsbD_extractLsb', decide_eq_true (by omega), Bool.true_and]
  exact congrArg w.getLsbD (by omega)

/-- The lower half goes on from there. -/
theorem wordBits_halves (w : Word) {k : Nat} (hk : k ≤ 16) :
    streamBits (w.extractLsb' 16 16) 16 ++ streamBits (w.extractLsb' 0 16) k = wordBits w (16 + k) := by
  rw [streamBits_upper w le_rfl, wordBits, wordBits, List.range_add, List.map_append, List.map_map]
  refine congrArg _ (List.map_congr_left fun j mem => ?_)
  have lt := List.mem_range.mp mem
  rw [streamBit, BitVec.getLsbD_extractLsb', decide_eq_true (by omega), Bool.true_and, Function.comp_apply]
  exact congrArg w.getLsbD (by omega)

/-- A code of at most 16 bits, left-aligned, is the operand whose bits are the code's. -/
theorem streamBits_code (v : CodeVal) {len : Nat} (short : len ≤ 16) :
    streamBits (v.setWidth 16 <<< (16 - len)) len = codeBits v len := by
  refine List.ext_getElem (by simp [streamBits]) fun j _ hj => ?_
  rw [length_codeBits] at hj
  rw [← List.getD_eq_getElem (codeBits v len) false, getD_codeBits v hj]
  simp only [streamBits, List.getElem_map, List.getElem_range, streamBit, BitVec.getLsbD_shiftLeft,
    BitVec.getLsbD_setWidth, codeBit]
  rw [decide_eq_true (by omega), decide_eq_false (by omega), decide_eq_true (by omega)]
  exact congrArg v.getLsbD (by omega)

/-! ### DECODE's loop is the tree walk -/

section Loop
variable {m : Memory Node} {root n c : NodeIdx} {bits : BitVec 16} {syms : List Symbol}

theorem decodeLoop_of_step {j : Nat} (walk : walkBits m root [streamBit bits j] n = some (c, syms)) (left : Nat)
    (out : List Word) : decodeLoop m root bits (left + 1) j n out =
      decodeLoop m root bits left (j + 1) c (out ++ syms.map (·.setWidth 32)) := by
  rw [walkBits] at walk
  rw [decodeLoop]
  split at walk
  · cases walk
  · next there =>
    rw [if_neg there]
    split at walk
    · next leaf => cases walk; rw [if_pos leaf]; rfl
    · next inner => cases walk; rw [if_neg inner, List.map_nil, List.append_nil]

theorem decodeLoop_of_null {j : Nat} (free : child m n (streamBit bits j) = NULL) (left : Nat) (out : List Word) :
    decodeLoop m root bits (left + 1) j n out = ⟨n, out, some (treeDetail j (streamBit bits j) n)⟩ := by
  rw [decodeLoop]
  exact if_pos free

/-- The loop is where the walk of the first `k` bits ends, with the bits from `k` on still to take. -/
theorem decodeLoop_of_walk {k : Nat} (walk : walkBits m root (streamBits bits k) n = some (c, syms)) (left : Nat)
    (out : List Word) : decodeLoop m root bits (k + left) 0 n out =
      decodeLoop m root bits left k c (out ++ syms.map (·.setWidth 32)) := by
  induction k generalizing c syms left with
  | zero => cases walk; rw [List.map_nil, List.append_nil, Nat.zero_add]
  | succ k ih =>
    rw [streamBits_succ, walkBits_append_iff] at walk
    obtain ⟨x, first, last, walk, step, rfl⟩ := walk
    rw [Nat.add_right_comm, Nat.add_assoc, ih walk, decodeLoop_of_step step, List.map_append, List.append_assoc]

/-- A walk goes along all the bits, or along the first of them to a NULL child. -/
theorem walkBits_or_null (m : Memory Node) (root n : NodeIdx) (bits : BitVec 16) (k : Nat) :
    (∃ c syms, walkBits m root (streamBits bits k) n = some (c, syms)) ∨
      ∃ j c syms, j < k ∧ walkBits m root (streamBits bits j) n = some (c, syms) ∧ child m c (streamBit bits j) = NULL := by
  induction k with
  | zero => exact .inl ⟨n, [], rfl⟩
  | succ k ih =>
    obtain ⟨c, syms, walk⟩ | ⟨j, c, syms, lt, walk, free⟩ := ih
    · by_cases free : child m c (streamBit bits k) = NULL
      · exact .inr ⟨k, c, syms, Nat.lt_succ_self k, walk, free⟩
      · obtain ⟨⟨c', last⟩, step⟩ := exists_walkBits_singleton (root := root) free
        rw [streamBits_succ]
        exact .inl ⟨c', syms ++ last, walkBits_append_iff.mpr ⟨c, syms, last, walk, step, rfl⟩⟩
    · exact .inr ⟨j, c, syms, Nat.lt_succ_of_lt lt, walk, free⟩

end Loop

/-! ### DECODE and DECEND (R200, R201) -/

theorem hasTree_iff (p : Phase) : hasTree p = true ↔ p = .built ∨ p = .ready ∨ p = .loaded := by simp [hasTree]

theorem legalIn_decend (p : Phase) : legalIn .decend p = hasTree p := rfl

/-- The state after a walk to `c` that recovered `syms`. -/
def State.walked (s : State) (c : NodeIdx) (syms : List Symbol) : State :=
  { s with cursor := c, out := s.out ++ syms.map (·.setWidth 32) }

theorem walked_walked (s : State) (x c : NodeIdx) (first rest : List Symbol) :
    (s.walked x first).walked c rest = s.walked c (first ++ rest) := by
  simp [State.walked]

theorem walked_cursor_nil (s : State) : s.walked s.cursor [] = s := by simp [State.walked]

section Exec
variable {s : State} (err : s.err = .noError) (phase : s.phase = .built ∨ s.phase = .ready ∨ s.phase = .loaded)
include err phase

section Decode
variable {n : BitVec 5} {bits : BitVec 16} (pos : 1 ≤ n.toNat) (most : n.toNat ≤ 16)
include pos most

theorem exec_decode : exec (.decode n bits) s = .next (decodeEffect n bits s) :=
  exec_inside (wellFormed_decode_iff.mpr ⟨pos, most⟩) err ((hasTree_iff _).mpr phase)

variable {c : NodeIdx} {syms : List Symbol}

theorem exec_decode_of_walk (walk : walkBits s.node s.root (operandBits n bits) s.cursor = some (c, syms)) :
    exec (.decode n bits) s = .next (s.walked c syms) := by
  have run : decodeRun n bits s = ⟨c, s.out ++ syms.map (·.setWidth 32), none⟩ := decodeLoop_of_walk walk 0 s.out
  rw [exec_decode err phase pos most, decodeEffect, run]
  rfl

theorem exec_decode_of_null {j : Nat} (lt : j < n.toNat)
    (walk : walkBits s.node s.root (streamBits bits j) s.cursor = some (c, syms))
    (free : child s.node c (streamBit bits j) = NULL) :
    exec (.decode n bits) s = .next { s.walked c syms with
      err := .corruptTree, errinfo := 0x07#8 ++ treeDetail j (streamBit bits j) c } := by
  obtain ⟨left, hn⟩ : ∃ left, n.toNat = j + (left + 1) := ⟨n.toNat - j - 1, by omega⟩
  have run : decodeRun n bits s =
      ⟨c, s.out ++ syms.map (·.setWidth 32), some (treeDetail j (streamBit bits j) c)⟩ := by
    rw [decodeRun, hn, decodeLoop_of_walk walk, decodeLoop_of_null free]
  rw [exec_decode err phase pos most, decodeEffect, run]
  exact congrArg _ (raise_of_noError (s := s.walked c syms) err _ _ _)

/-- A DECODE that leaves no error walked all its bits. -/
theorem decode_of_noError {t : State} (e : exec (.decode n bits) s = .next t) (ok : t.err = .noError) :
    ∃ c syms, walkBits s.node s.root (operandBits n bits) s.cursor = some (c, syms) ∧ t = s.walked c syms := by
  obtain ⟨c, syms, walk⟩ | ⟨j, c, syms, lt, walk, free⟩ := walkBits_or_null s.node s.root s.cursor bits n.toNat
  · exact ⟨c, syms, walk, Host.Outcome.next.inj (e.symm.trans (exec_decode_of_walk err phase pos most walk))⟩
  · cases e.symm.trans (exec_decode_of_null err phase pos most lt walk free)
    cases ok

end Decode

theorem exec_decend : exec .decend s = .next (decendEffect s) := exec_inside rfl err ((hasTree_iff _).mpr phase)

theorem exec_decend_of_root (root : s.cursor = s.root) : exec .decend s = .next s := by
  rw [exec_decend err phase, decendEffect, if_pos root]

theorem exec_decend_of_inside (inside : s.cursor ≠ s.root) : exec .decend s =
    .next { s with err := .truncatedStream, errinfo := 0x08#8 ++ (0#15 ++ s.cursor : BitVec 24) } := by
  rw [exec_decend err phase, decendEffect, if_neg inside, raise_of_noError err, cursorDetail,
    BitVec.setWidth_eq_append (by decide)]
  rfl

end Exec

/-- Settles O33: DECODE's loop is the tree walk, up to a NULL child where it meets one. -/
theorem decodeWalksItsBits : Obligations.DecodeWalksItsBits := by
  unfold Obligations.DecodeWalksItsBits
  refine ⟨fun n bits => ?word, fun n bits s err phase pos most =>
      ⟨fun c syms => exec_decode_of_walk err phase pos most, fun j c syms lt walk free => ?null⟩,
    fun n bits pos most => raisesOutside_row (row := phaseTable[11]) (List.getElem_mem _) rfl
      (wellFormed_decode_iff.mpr ⟨pos, most⟩),
    raisesOnReserved_row (r := opcodeRows[7]) (List.getElem_mem _) rfl rfl, fun n bits s count err => ?count⟩
  case word =>
    rw [encode_eq_or, Instr.opcode, Instr.operand, BitVec.setWidth_append_eq_shiftLeft_setWidth_or,
      setWidth_zero_append 3 32 n, ← BitVec.or_assoc]
    rfl
  case null =>
    rw [take_operandBits lt] at walk
    exact exec_decode_of_null err phase pos most lt walk free
  case count =>
    have illegal : decode (0x07#8 ++ (0#3 ++ n ++ bits : BitVec 24)) = .error .decodeCount :=
      (decode_eq_decodeCount_iff _).mpr (by simpa using count)
    rw [engineStep_illegal illegal err, opcodeOf_append, operandOf_append]

/-- Settles O34: the two walks are the two parts of one. -/
theorem decodeInPiecesIsDecodeAtOnce : Obligations.DecodeInPiecesIsDecodeAtOnce := by
  unfold Obligations.DecodeInPiecesIsDecodeAtOnce
  intro a b bits s t u apos bpos fits err phase et tok eu uok
  obtain ⟨x, first, walk, rfl⟩ := decode_of_noError err phase apos (by omega) et tok
  obtain ⟨c, rest, walk', rfl⟩ := decode_of_noError (s := s.walked x first) err phase bpos (by omega) eu uok
  have sum : (a + b).toNat = a.toNat + b.toNat := BitVec.toNat_add_of_lt (by omega)
  have both : walkBits s.node s.root (operandBits (a + b) bits) s.cursor = some (c, first ++ rest) := by
    rw [operandBits_eq, sum, streamBits_add bits fits]
    exact walkBits_append_iff.mpr ⟨x, first, rest, walk, walk', rfl⟩
  rw [exec_decode_of_walk err phase (by omega) (by omega) both, walked_walked]

/-- Settles O35. -/
theorem decendChecksTheCursor : Obligations.DecendChecksTheCursor := by
  unfold Obligations.DecendChecksTheCursor
  exact ⟨rfl, fun s err phase => ⟨exec_decend_of_root err phase, exec_decend_of_inside err phase⟩,
    raisesOutside_row (row := phaseTable[12]) (List.getElem_mem _) rfl rfl,
    raisesOnReserved_row (r := opcodeRows[8]) (List.getElem_mem _) rfl rfl⟩

/-! ### Codes walked from the root (R202, 43_code_table.md R164) -/

section Job
variable {s : State} (good : GoodJob s) (phase : s.phase = .ready ∨ s.phase = .loaded)
include good phase

theorem GoodJob.root_internal : (nodeAt s.node s.root).kind = .internal :=
  (good.phased.walkable ((hasTree_iff _).mpr (.inr phase))).root.2

theorem GoodJob.tableMatchesTree : TableMatchesTree s := by
  obtain ready | loaded := phase
  · obtain ⟨-, -, -, -, -, table, -⟩ := (phaseInv_ready ready).mp good.phased
    exact table
  · obtain ⟨-, table, -⟩ := (phaseInv_loaded loaded).mp good.phased
    exact table

section Code
variable {sym : Symbol} (valid : s.cvalidAt sym = true)
include valid

theorem GoodJob.walkBits_code : walkBits s.node s.root (s.code sym) s.root = some (s.root, [sym]) :=
  walkBits_of_leadsTo (good.root_internal phase) (good.tableMatchesTree phase sym valid)

theorem GoodJob.code_ne_nil : s.code sym ≠ [] := fun nil => by
  have walk := good.walkBits_code phase valid
  rw [nil, walkBits] at walk
  cases walk

end Code

section Message
variable {msg : List Symbol}

theorem GoodJob.codes_ne_nil (nonempty : msg ≠ []) (valid : ∀ sym ∈ msg, s.cvalidAt sym = true) :
    (msg.map s.code).flatten ≠ [] := by
  obtain ⟨sym, msg, rfl⟩ := List.exists_cons_of_ne_nil nonempty
  rw [List.map_cons, List.flatten_cons]
  exact List.append_ne_nil_of_left_ne_nil (good.code_ne_nil phase (valid sym List.mem_cons_self)) _

theorem GoodJob.walkBits_codes (valid : ∀ sym ∈ msg, s.cvalidAt sym = true) :
    walkBits s.node s.root (msg.map s.code).flatten s.root = some (s.root, msg) := by
  induction msg with
  | nil => rfl
  | cons sym msg ih =>
    obtain ⟨here, later⟩ := List.forall_mem_cons.mp valid
    rw [List.map_cons, List.flatten_cons]
    exact walkBits_append_iff.mpr ⟨s.root, [sym], msg, good.walkBits_code phase here, ih later, rfl⟩

end Message

end Job

/-- Settles O36. -/
theorem decodingInvertsEncoding : Obligations.DecodingInvertsEncoding := by
  unfold Obligations.DecodingInvertsEncoding
  exact fun msg s good phase => good.walkBits_codes phase

/-- Settles O37: the operand's bits are the code. -/
theorem decodeOfOneCodeRecoversItsSymbol : Obligations.DecodeOfOneCodeRecoversItsSymbol := by
  unfold Obligations.DecodeOfOneCodeRecoversItsSymbol
  intro sym s good err phase valid cursor short n bits
  have count : n.toNat = (s.clenAt sym).toNat := by
    rw [BitVec.toNat_setWidth, Nat.mod_eq_of_lt (by omega)]
  have pos : 1 ≤ n.toNat := by
    rw [count, ← length_code]
    exact List.length_pos_iff.mpr (good.code_ne_nil phase valid)
  have code : operandBits n bits = s.code sym := by
    rw [operandBits_eq, count]
    exact streamBits_code _ short
  have walk : walkBits s.node s.root (operandBits n bits) s.cursor = some (s.cursor, [sym]) := by
    rw [code, cursor, good.walkBits_code phase valid]
  exact ⟨s.walked s.cursor [sym], exec_decode_of_walk err (.inr phase) pos (count ▸ short) walk, rfl,
    exec_decend_of_root (s := s.walked s.cursor [sym]) err (.inr phase) cursor⟩

/-! ### Feeding a bitstream (R202, 30_encoding.md R91) -/

theorem runCommands_append (first rest : List Instr) (s : State) :
    runCommands (first ++ rest) s = andThen (runCommands first s) (runCommands rest) := by
  induction first generalizing s with
  | nil => rfl
  | cons i first ih =>
    rw [List.cons_append, runCommands, runCommands]
    cases exec i s with
    | next t => exact ih t
    | fault | refused => rfl

/-- These commands are DECODEs that a word can spell, whose bits are together these bits. -/
inductive Feeds : List Instr → List Bool → Prop
  | nil : Feeds [] []
  | cons {n : BitVec 5} {bits : BitVec 16} {rest : List Instr} {more : List Bool} (pos : 1 ≤ n.toNat)
    (most : n.toNat ≤ 16) (h : Feeds rest more) : Feeds (.decode n bits :: rest) (operandBits n bits ++ more)

theorem Feeds.append {first rest : List Instr} {p q : List Bool} (h : Feeds first p) (h' : Feeds rest q) :
    Feeds (first ++ rest) (p ++ q) := by
  induction h with
  | nil => exact h'
  | cons pos most _ ih =>
    rw [List.append_assoc]
    exact .cons pos most ih

/-- Commands that feed bits do what the walk of those bits says. -/
theorem runCommands_of_feeds {cmds : List Instr} {bits : List Bool} (h : Feeds cmds bits) {s : State} (err : s.err = .noError)
    (phase : s.phase = .built ∨ s.phase = .ready ∨ s.phase = .loaded) {c : NodeIdx} {syms : List Symbol}
    (walk : walkBits s.node s.root bits s.cursor = some (c, syms)) : runCommands cmds s = .next (s.walked c syms) := by
  induction h generalizing s syms with
  | nil =>
    cases walk
    rw [walked_cursor_nil]
    rfl
  | cons pos most _ ih =>
    obtain ⟨x, first, rest, here, later, rfl⟩ := walkBits_append_iff.mp walk
    rw [runCommands, exec_decode_of_walk err phase pos most here, ← walked_walked]
    exact ih (s := s.walked x first) err phase later

theorem feeds_decode {n : BitVec 5} (bits : BitVec 16) {k : Nat} (count : n.toNat = k) (pos : 1 ≤ k) (most : k ≤ 16) :
    Feeds [.decode n bits] (streamBits bits k) := by
  subst count
  simpa [operandBits_eq] using Feeds.nil.cons (bits := bits) pos most

theorem feeds_dectail (w : Word) {k : Nat} (pos : 1 ≤ k) (most : k ≤ 32) : Feeds (dectail w k) (wordBits w k) := by
  have count {j : Nat} (small : j ≤ 16) : (BitVec.ofNat 5 j).toNat = j := Nat.mod_eq_of_lt (by omega)
  rw [dectail]
  split
  · next one =>
    rw [← streamBits_upper w one]
    exact feeds_decode _ (count one) pos one
  · next two =>
    obtain ⟨j, rfl⟩ : ∃ j, k = 16 + j := ⟨k - 16, by omega⟩
    rw [Nat.add_sub_cancel_left, ← wordBits_halves w (by omega)]
    exact (feeds_decode _ rfl (by decide) le_rfl).append
      (feeds_decode _ (count (by omega)) (by omega) (by omega))

theorem feeds_decw (w : Word) : Feeds (decw w) (wordBits w 32) := feeds_dectail w (k := 32) (by decide) le_rfl

theorem feed_cons (w : Word) {rest : List Word} (more : rest ≠ []) (k : Nat) : feed (w :: rest) k = decw w ++ feed rest k := by
  cases rest with
  | nil => exact absurd rfl more
  | cons => rfl

/-- R91 feeds all bits of the words before the last, and the first `k` of the last. -/
theorem feeds_feed (init : List Word) (w : Word) {k : Nat} (pos : 1 ≤ k) (most : k ≤ 32) :
    Feeds (feed (init ++ [w]) k) (wordsBits init ++ wordBits w k) := by
  induction init with
  | nil => exact feeds_dectail w pos most
  | cons v init ih =>
    rw [List.cons_append, feed_cons v (by simp), wordsBits, List.map_cons, List.flatten_cons, List.append_assoc]
    exact (feeds_decw v).append ih

/-! ### The round trip (R202) -/

/-- FLUSH changes nothing but the packer and OUT. -/
theorem flushEffect_frame (s : State) : flushEffect s = s.withPacker (flushEffect s).packer := by
  obtain e | e := flushEffect_cases s <;> rw [e] <;> rfl

/-- A message encoded and flushed. -/
theorem runCommands_encode_flush {msg : List Symbol} {s : State} (err : s.err = .noError)
    (phase : s.phase = .ready ∨ s.phase = .loaded) (valid : ∀ sym ∈ msg, s.cvalidAt sym = true) :
    runCommands (msg.map Instr.encode ++ [.flush]) s = .next (flushEffect (s.encoded msg)) := by
  rw [runCommands_append, runCommands_encode err phase valid, andThen, runCommands,
    exec_flush (s := s.encoded msg) err phase]
  rfl

/-- Once FLUSH has run, R91 feeds the words of OUT as exactly the stream. -/
theorem feeds_stream {s : State} (nonempty : s.packer.stream ≠ []) :
    Feeds (feed (flushEffect s).out (tailBits s.packer.stream.length)) s.packer.stream := by
  have lt := s.packcnt.isLt
  have length := length_stream s.packer
  rw [packer_out, packer_packcnt] at length
  by_cases empty : s.packcnt = 0#5
  · have whole : s.packer.stream = wordsBits s.out := by
      rw [stream_eq_wordsBits, packer_packcnt, empty]
      exact List.append_nil _
    rw [whole] at nonempty length ⊢
    obtain out | ⟨init, w, out⟩ := List.eq_nil_or_concat s.out
    · rw [out] at nonempty
      exact absurd rfl nonempty
    · rw [List.concat_eq_append] at out
      have tail : tailBits (wordsBits s.out).length = 32 := by rw [length_wordsBits, tailBits, if_pos (by omega)]
      rw [tail, flushEffect_of_empty empty, out, wordsBits_concat]
      exact feeds_feed init w (by decide) le_rfl
  · have pos : s.packcnt.toNat ≠ 0 := fun zero => empty (BitVec.eq_of_toNat_eq zero)
    have tail : tailBits s.packer.stream.length = s.packcnt.toNat := by
      rw [length, tailBits, if_neg (by omega)]
      omega
    rw [tail, flushEffect_of_pending empty]
    exact feeds_feed s.out s.packbuf (by omega) (by omega)

/-- Where the bits fed end a code, DECEND succeeds after them. -/
theorem runCommands_decend_of_feeds {cmds : List Instr} {bits : List Bool} (h : Feeds cmds bits) {s : State}
    (err : s.err = .noError) (phase : s.phase = .built ∨ s.phase = .ready ∨ s.phase = .loaded) {msg : List Symbol}
    (walk : walkBits s.node s.root bits s.cursor = some (s.root, msg)) :
    runCommands (cmds ++ [.decend]) s = .next (s.walked s.root msg) := by
  rw [runCommands_append, runCommands_of_feeds h err phase walk, andThen, runCommands,
    exec_decend_of_root (s := s.walked s.root msg) err phase rfl]
  rfl

/-- Settles O38: the DECODEs feed the stream, which is the codes, and their walk from the root recovers the message. -/
theorem roundTripInOneJob : Obligations.RoundTripInOneJob := by
  unfold Obligations.RoundTripInOneJob
  intro msg s good err phase nonempty valid cursor out packcnt
  have codes := stream_encoded msg out packcnt
  have feeds := feeds_stream (codes ▸ good.codes_ne_nil phase nonempty valid)
  have walk : walkBits s.node s.root (s.encoded msg).packer.stream s.cursor = some (s.root, msg) := by
    rw [codes, cursor, good.walkBits_codes phase valid]
  refine ⟨flushEffect (s.encoded msg), runCommands_encode_flush err phase valid, ?_⟩
  rw [← codes]
  have emptied : { flushEffect (s.encoded msg) with out := [] } =
      s.withPacker { (flushEffect (s.encoded msg)).packer with out := [] } := by
    rw [flushEffect_frame]
    rfl
  rw [emptied]
  exact ⟨_, runCommands_decend_of_feeds feeds (s := s.withPacker _) err (.inr phase) walk, rfl, err, rfl⟩

end Sys2Proof.Machine
end

section
/-! SUPPORT. The read-back commands READCODE, READFREQ and READNODE (46_readback.md R220 to R222), with the word of
a command whose operand is one field. -/

namespace Sys2Proof.Machine

/-- The word of a command whose operand is one field `x`, the bits in front of it 0 (30_encoding.md R81). -/
theorem encode_of_field {i : Instr} {op : BitVec 8} {v : Nat} {x : BitVec v} (opcode : i.opcode = op)
    (operand : i.operand.setWidth 32 = x.setWidth 32) : encode i = (op ++ 0#24) ||| x.setWidth 32 := by
  rw [encode_eq_or, opcode, operand]

/-- READCODE's effect in both cases, with or without a code. -/
theorem readcodeEffect_eq (sym : Symbol) (s : State) :
    readcodeEffect sym s = { s with
      result0 := if s.cvalidAt sym then 1#1 ++ 0#23 ++ s.clenAt sym else 0#32
      result1 := 0#32
      codew := codewOf (if s.cvalidAt sym then (s.cvalAt sym).setWidth 256 else 0#256) } := by
  rw [readcodeEffect]
  cases s.cvalidAt sym <;> rfl

/-- A node as READNODE shows it: a node that is no LEAF is INTERNAL. -/
theorem nodeWord_eq (r : Node) :
    nodeWord r = if r.kind = .leaf then 1#2 ++ 0#22 ++ r.sym else 2#2 ++ 0#12 ++ r.right ++ r.left := by
  rw [nodeWord]
  cases r.kind <;> rfl

theorem readnodeEffect_of_allocated {idx : NodeIdx} {s : State} (allocated : idx.toNat < s.next.toNat) :
    readnodeEffect idx s =
      { s with result0 := nodeWord (nodeAt s.node idx), result1 := (nodeAt s.node idx).weight } := if_pos allocated

theorem readnodeEffect_of_free {idx : NodeIdx} {s : State} (free : s.next.toNat ≤ idx.toNat) :
    readnodeEffect idx s = { s with result0 := 0#32, result1 := 0#32 } := if_neg free.not_gt

/-- Settles O39. -/
theorem readcodeShowsTheCode : Obligations.ReadcodeShowsTheCode := by
  unfold Obligations.ReadcodeShowsTheCode
  refine ⟨fun sym => encode_of_field (op := 0x0A#8) rfl (setWidth_zero_append 16 32 sym), fun sym s => ?shown,
    raisesOnReserved_row (r := opcodeRows[10]) (List.getElem_mem _) rfl rfl⟩
  case shown =>
    rw [exec_kept rfl s, effectOf, readcodeEffect_eq]
    exact ⟨_, rfl, rfl, cw_codewOf s _, rfl⟩

/-- Settles O40. -/
theorem readfreqShowsTheCount : Obligations.ReadfreqShowsTheCount := by
  unfold Obligations.ReadfreqShowsTheCount
  exact ⟨fun sym => encode_of_field (op := 0x0B#8) rfl (setWidth_zero_append 16 32 sym),
    fun sym s => exec_kept (i := .readfreq sym) rfl s,
    raisesOnReserved_row (r := opcodeRows[11]) (List.getElem_mem _) rfl rfl⟩

/-- Settles O41. -/
theorem readnodeShowsTheNode : Obligations.ReadnodeShowsTheNode := by
  unfold Obligations.ReadnodeShowsTheNode
  refine ⟨fun idx => encode_of_field (op := 0x0C#8) rfl (setWidth_zero_append 15 32 idx),
    fun idx s => ⟨fun allocated => ?node, fun free => ?noNode⟩,
    raisesOnReserved_row (r := opcodeRows[12]) (List.getElem_mem _) rfl rfl⟩
  case node => rw [exec_kept rfl s, effectOf, readnodeEffect_of_allocated allocated, nodeWord_eq]
  case noNode => rw [exec_kept rfl s, effectOf, readnodeEffect_of_free free]

end Sys2Proof.Machine
end

section
/-! SUPPORT. The error state and the commands that raise (60_exceptions.md R240 to R248): what runs while an error stands,
what an error leaves unchanged, how long it stands, and that no command or register access stops the machine. -/

namespace Sys2Proof.Machine

/-! ### A command in the error state (R243, 30_encoding.md R90) -/

theorem mem_keptCommands_iff (i : Instr) : i.mnemonic ∈ keptCommands ↔ keptInError i.opcode = true := by
  cases i <;> simp [keptCommands, keptInError, Instr.mnemonic, Instr.opcode]

theorem drops_of_error {s : State} (err : s.err ≠ .noError) (op : BitVec 8) : s.drops op = !keptInError op := by
  simp [State.drops, err]

theorem exec_dropped {i : Instr} {s : State} (err : s.err ≠ .noError) (dropped : keptInError i.opcode = false) :
    exec i s = .next s := by
  rw [exec_eq_command]
  exact command_dropped _ (by rw [drops_of_error err, dropped]; rfl)

/-- The same state without the error. -/
def State.errorFree (s : State) : State := { s with err := .noError, errinfo := 0#32 }

/-- The error record of `s` carried over to `t`. -/
def State.recordIn (s t : State) : State := { t with err := s.err, errinfo := s.errinfo }

/-- A kept command other than CLEAR and ACKERR neither reads nor writes the error record. -/
theorem effectOf_recordIn {i : Instr} (kept : keptInError i.opcode = true) (returns : ¬ (i = .clear ∨ i = .ackerr))
    (s : State) : effectOf i s = s.recordIn (effectOf i s.errorFree) := by
  cases i with
  | nop | readfreq => rfl
  | clear => exact absurd (.inl rfl) returns
  | ackerr => exact absurd (.inr rfl) returns
  | readcode sym =>
    rw [effectOf, readcodeEffect_eq, readcodeEffect_eq]
    rfl
  | readnode idx =>
    obtain allocated | free := Nat.lt_or_ge idx.toNat s.next.toNat
    · rw [effectOf, readnodeEffect_of_allocated allocated, readnodeEffect_of_allocated (s := s.errorFree) allocated]
      rfl
    · rw [effectOf, readnodeEffect_of_free free, readnodeEffect_of_free (s := s.errorFree) free]
      rfl
  | _ => cases kept

/-- CLEAR and ACKERR overwrite the error record, whatever it is. -/
theorem effectOf_errorFree {i : Instr} (returns : i = .clear ∨ i = .ackerr) (s : State) :
    effectOf i s = effectOf i s.errorFree := by
  obtain rfl | rfl := returns <;> rfl

/-- Settles O8. -/
theorem errorStateDropsCommands : Obligations.ErrorStateDropsCommands := by
  unfold Obligations.ErrorStateDropsCommands
  refine fun s err => ⟨fun i other => ?dropped, fun w e illegal => engineStep_illegal_of_error illegal err,
    fun i kept => ?kept⟩
  case dropped => exact exec_dropped err (Bool.eq_false_iff.mpr (mt (mem_keptCommands_iff i).mpr other))
  case kept =>
    rw [mem_keptCommands_iff] at kept
    refine ⟨effectOf i s.errorFree, exec_kept kept _, (exec_kept kept s).trans (congrArg _ ?_)⟩
    split
    · next returns => exact effectOf_errorFree returns s
    · next stays => exact effectOf_recordIn kept stays s

/-! ### How long an error stands (R241, R248) -/

theorem Recorded.eq_of_error {s t : State} (r : Recorded s t) (err : s.err ≠ .noError) : t = s :=
  r.resolve_right fun ⟨noError, _⟩ => err noError

/-- A command run in the error state leaves the error record, unless it is one of the two returns. -/
theorem exec_keeps_error {i : Instr} {s t : State} (e : exec i s = .next t) (err : s.err ≠ .noError)
    (returns : ¬ (i = .clear ∨ i = .ackerr)) : t.err = s.err ∧ t.errinfo = s.errinfo := by
  obtain r | ⟨kept, -, -, rfl⟩ := exec_cases e
  · rw [r.eq_of_error err]
    exact ⟨rfl, rfl⟩
  · rw [drops_of_error err, Bool.not_eq_false'] at kept
    rw [effectOf_recordIn kept returns]
    exact ⟨rfl, rfl⟩

/-- Settles O11. -/
theorem errorStandsUntilTheHostActs : Obligations.ErrorStandsUntilTheHostActs := by
  unfold Obligations.ErrorStandsUntilTheHostActs
  intro s t e err
  cases step_kind e with
  | idle rest result => rw [result]; exact .inl ⟨rfl, rfl⟩
  | reads rest idx result => rw [result, hostRead_frame]; exact .inl ⟨rfl, rfl⟩
  | writes rest idx v result => rw [result, regWrite_frame]; exact .inl ⟨rfl, rfl⟩
  | resets rest scheduled _ => exact .inr (.inr (.inr scheduled))
  | illegal rest w result =>
    rw [result, (illegalWord_recorded w (s.consumed rest)).eq_of_error err]
    exact .inl ⟨rfl, rfl⟩
  | runs rest w i turn _ _ result =>
    by_cases returns : i = .clear ∨ i = .ackerr
    · obtain rfl | rfl := returns
      · exact .inr (.inl turn)
      · exact .inr (.inr (.inl turn))
    · exact .inl (exec_keeps_error (s := s.consumed rest) result err returns)

/-! ### A command that raises (R242, R247) -/

theorem Recorded.frame {s t : State} (r : Recorded s t) : t = { s with err := t.err, errinfo := t.errinfo } := by
  obtain rfl | ⟨-, e, info, -, rfl⟩ := r <;> rfl

/-- An effect other than DECODE's that leaves an error did nothing else. -/
theorem effectOf_recorded {i : Instr} {s : State} (other : ∀ n bits, i ≠ .decode n bits) (err : s.err = .noError)
    (raised : (effectOf i s).err ≠ .noError) : Recorded s (effectOf i s) := by
  cases i with
  | nop | gen | readfreq => exact absurd err raised
  | clear | ackerr => exact absurd rfl raised
  | count sym => exact (countEffect_cases sym s).resolve_right fun ⟨_, e⟩ => raised ((congrArg State.err e).trans err)
  | build => exact (buildEffect_cases s).resolve_right fun ⟨_, e⟩ => raised ((congrArg State.err e).trans err)
  | encode sym => exact (encodeEffect_cases sym s).resolve_right fun e => raised ((congrArg State.err e).trans err)
  | flush =>
    obtain e | e := flushEffect_cases s
    · exact .inl e
    · exact absurd ((congrArg State.err e).trans err) raised
  | decode n bits => exact absurd rfl (other n bits)
  | decend => exact decendEffect_recorded s
  | loadcode sym len =>
    exact (loadcodeEffect_cases sym len s).resolve_right fun ⟨_, _, _, _, _, _, e⟩ =>
      raised ((congrArg State.err e).trans err)
  | readcode sym => exact absurd ((congrArg State.err (readcodeEffect_eq sym s)).trans err) raised
  | readnode idx => exact absurd ((congrArg State.err (readnodeEffect_frame idx s)).trans err) raised

theorem exec_recorded {i : Instr} {s t : State} (e : exec i s = .next t) (other : ∀ n bits, i ≠ .decode n bits)
    (err : s.err = .noError) (raised : t.err ≠ .noError) : Recorded s t := by
  obtain r | ⟨-, -, -, rfl⟩ := exec_cases e
  · exact r
  · exact effectOf_recorded other err raised

/-- An ill-formed command, executed with no error recorded, raises IllegalCommand (log 18). -/
theorem exec_illFormed {i : Instr} {s : State} (illFormed : i.wellFormed = false) (err : s.err = .noError) :
    exec i s = .next { s with err := .illegalCommand, errinfo := i.opcode ++ i.operand } := by
  rw [exec_eq_command, ← raise_of_noError err]
  simp [command, drops_of_noError err, illFormed]

/-- A DECODE that raises either never began its walk, or met a NULL child in it and stands at the node before. -/
theorem exec_decode_raised {n : BitVec 5} {bits : BitVec 16} {s t : State} (e : exec (.decode n bits) s = .next t)
    (err : s.err = .noError) (raised : t.err ≠ .noError) :
    (t.err ≠ .corruptTree ∧ t = { s with err := t.err, errinfo := t.errinfo }) ∨
    ∃ j c syms info, j < n.toNat ∧ walkBits s.node s.root (streamBits bits j) s.cursor = some (c, syms) ∧
      child s.node c (streamBit bits j) = NULL ∧ t = { s.walked c syms with err := .corruptTree, errinfo := info } := by
  cases wf : (Instr.decode n bits).wellFormed with
  | false =>
    cases e.symm.trans (exec_illFormed wf err)
    exact .inl ⟨by simp, rfl⟩
  | true =>
  cases legal : legalIn (.decode n bits) s.phase with
  | false =>
    cases e.symm.trans (exec_outside wf err legal)
    exact .inl ⟨by simp, rfl⟩
  | true =>
    obtain ⟨pos, most⟩ := wellFormed_decode_iff.mp wf
    have phase := (hasTree_iff s.phase).mp legal
    obtain ⟨c, syms, walk⟩ | ⟨j, c, syms, lt, walk, free⟩ := walkBits_or_null s.node s.root s.cursor bits n.toNat
    · cases e.symm.trans (exec_decode_of_walk err phase pos most walk)
      exact absurd err raised
    · cases e.symm.trans (exec_decode_of_null err phase pos most lt walk free)
      exact .inr ⟨j, c, syms, _, lt, walk, free, rfl⟩

/-- Settles O10. -/
theorem raisingCommandChangesOnlyTheErrorRecord : Obligations.RaisingCommandChangesOnlyTheErrorRecord := by
  unfold Obligations.RaisingCommandChangesOnlyTheErrorRecord
  intro i s t e err raised
  by_cases decodes : ∃ n bits, i = .decode n bits
  · obtain ⟨n, bits, rfl⟩ := decodes
    obtain ⟨other, frame⟩ | ⟨j, c, syms, info, lt, walk, free, rfl⟩ := exec_decode_raised e err raised
    · refine ⟨by rw [frame], fun no => absurd rfl (no n bits), ?_⟩
      rintro _ _ ⟨⟩
      exact ⟨by rw [frame], fun corrupt => absurd corrupt other, fun _ => by rw [frame]; exact ⟨rfl, rfl⟩⟩
    · refine ⟨rfl, fun no => absurd rfl (no n bits), ?_⟩
      rintro _ _ ⟨⟩
      rw [← take_operandBits lt] at walk
      exact ⟨rfl, fun _ => ⟨j, syms, lt, walk, rfl, free⟩, fun other => absurd rfl other⟩
  · have other (n bits) : i ≠ .decode n bits := fun h => decodes ⟨n, bits, h⟩
    have frame := (exec_recorded e other err raised).frame
    exact ⟨by rw [frame], fun _ => frame, fun n bits h => absurd h (other n bits)⟩

/-! ### What stops the machine (R240, R247, 20_memory.md R56) -/

/-- A bus access answers a next state, or stops at a misaligned offset or past the register map. -/
theorem busAccess_next_or_stops (off : BitVec 32) (access : BitVec 6 → State → State) (s : State) :
    (∃ t, busAccess off access s = .next t) ∨
      (off.toNat % 4 ≠ 0 ∧ busAccess off access s = .refused .misalignedOffset) ∨
      (off.toNat % 4 = 0 ∧ 256 ≤ off.toNat ∧ busAccess off access s = .fault .outsideRegisterMap) := by
  obtain misaligned | past | ⟨-, -, e⟩ := busAccess_cases off access s
  · exact .inr (.inl misaligned)
  · exact .inr (.inr past)
  · exact .inl ⟨_, e⟩

/-- Settles O12. -/
theorem onlyTheBusStopsTheMachine : Obligations.OnlyTheBusStopsTheMachine := by
  unfold Obligations.OnlyTheBusStopsTheMachine
  intro s
  obtain ⟨-, e⟩ | ⟨event, rest, scheduled, e⟩ := step_cases s <;> rw [e]
  · exact .inl (engineTurn_next s)
  cases event with
  | engine => exact .inl (engineTurn_next _)
  | read | write | reset => exact .inl ⟨_, rfl⟩
  | busRead off =>
    exact (busAccess_next_or_stops off hostRead _).imp_right fun stops => ⟨off, rest, .inl scheduled, stops⟩
  | busWrite off v =>
    exact (busAccess_next_or_stops off (fun idx => regWrite idx v) _).imp_right fun stops =>
      ⟨off, rest, .inr ⟨v, scheduled⟩, stops⟩

end Sys2Proof.Machine
end

section
/-! SUPPORT. Reset with its internal CLEAR, and a Host that drains while it polls (70_reset_and_hazards.md R270 to R272,
R277). -/

namespace Sys2Proof.Machine

/-! ### A Host that drains while it polls (R277, 30_encoding.md R91) -/

/-- A turn of the Engine leaves no command pending, or changes nothing because OUT has no room for the command. -/
theorem engineTurn_completes_or_waits (s : State) :
    (∃ t, engineTurn s = .next t ∧ t.pending = none) ∨
      ∃ w, s.pending = some w ∧ s.roomFor w = false ∧ engineTurn s = .next s := by
  cases pending : s.pending with
  | none => exact .inl ⟨s, by simp [engineTurn, pending], pending⟩
  | some w =>
    cases room : s.roomFor w with
    | false => exact .inr ⟨w, rfl, room, engineTurn_of_full pending room⟩
    | true =>
      rw [engineTurn_of_room pending room]
      exact .inl (engineStep_consumes w s)

/-- A command waits only for words to be taken from OUT: none waits for an empty OUT. -/
theorem out_ne_nil_of_full {s : State} {w : Word} (depth : s.params.legal) (full : s.roomFor w = false) : s.out ≠ [] := by
  intro empty
  have fits : need w ≤ s.params.fifoDepth := (need_le w).trans depth
  exact Bool.false_ne_true (full.symm.trans ((roomFor_iff s w).mpr (by simpa [empty] using fits)))

/-- What the Host does in a round of POLL before the Engine's turn: STATUS and OUT_COUNT read, and the oldest word of OUT, if
any, taken. -/
def drainedOnce (s : State) : State :=
  let counted := hostRead (Reg.outCount).idx (hostRead (Reg.status).idx s)
  if counted.out.isEmpty then counted else hostRead (Reg.outData).idx counted

theorem poll_of_busy {s : State} (busy : s.pending ≠ none) (rounds : Nat) :
    poll (rounds + 1) s = andThen (engineTurn (drainedOnce s)) (poll rounds) := by
  rw [poll, busy_eq, decide_eq_true busy, if_pos rfl]
  rfl

theorem poll_of_free {s : State} (free : s.pending = none) (rounds : Nat) :
    ∃ t, poll rounds s = .next t ∧ t.pending = none := by
  cases rounds with
  | zero => exact ⟨s, rfl, free⟩
  | succ rounds =>
    refine ⟨hostRead (Reg.status).idx s, ?_, (undisturbed_hostRead _ s).pending.trans free⟩
    simp [poll, State.busy, free]

theorem Undisturbed.trans {s t u : State} (h : Undisturbed s t) (h' : Undisturbed t u) : Undisturbed s u :=
  ⟨h'.pending.trans h.pending, h'.codew.trans h.codew, h'.params.trans h.params, h'.out.trans h.out⟩

theorem undisturbed_drainedOnce (s : State) : Undisturbed s (drainedOnce s) := by
  have counted := (undisturbed_hostRead (Reg.status).idx s).trans (undisturbed_hostRead (Reg.outCount).idx _)
  rw [drainedOnce]
  split
  · exact counted
  · exact counted.trans (undisturbed_hostRead _ _)

theorem length_out_drainedOnce (s : State) : (drainedOnce s).out.length = s.out.length - 1 := by
  have counted : (hostRead (Reg.outCount).idx (hostRead (Reg.status).idx s)).out = s.out := by
    rw [hostRead_of_ne (by decide), hostRead_of_ne (by decide)]
  rw [drainedOnce]
  cases out : s.out with
  | nil => simp [counted, out]
  | cons w rest =>
    have taken : (hostRead 12#6 (hostRead (Reg.outCount).idx (hostRead (Reg.status).idx s))).out = rest := by
      rw [hostRead, regRead_outData_of_cons (counted.trans out)]
    simp [counted, out, taken, show (Reg.outData).idx = 12#6 from rfl]

/-- POLL ends with no command pending, given more rounds than OUT has words: in each round the command completes, or one word
fewer is in its way. -/
theorem poll_completes (rounds : Nat) {s : State} (depth : s.params.legal) (enough : s.out.length < rounds) :
    ∃ t, poll rounds s = .next t ∧ t.pending = none := by
  induction rounds generalizing s with
  | zero => omega
  | succ rounds ih =>
    by_cases free : s.pending = none
    · exact poll_of_free free _
    rw [poll_of_busy free]
    obtain ⟨t, turn, done⟩ | ⟨w, -, full, turn⟩ := engineTurn_completes_or_waits (drainedOnce s) <;> rw [turn]
    · exact poll_of_free done rounds
    · have depth' : (drainedOnce s).params.legal := (undisturbed_drainedOnce s).params ▸ depth
      have wordsLeft := List.length_pos_iff.mpr (out_ne_nil_of_full depth' full)
      have oneFewer := length_out_drainedOnce s
      exact ih depth' (by omega)

/-- Settles O50. -/
theorem issueAlwaysCompletes : Obligations.IssueAlwaysCompletes := by
  unfold Obligations.IssueAlwaysCompletes
  intro w s depth free
  rw [issue, Reg.idx, regWrite_cmd_free w free]
  exact poll_completes _ depth (Nat.lt_add_of_pos_right (by decide))

/-! ### Reset and its internal CLEAR (R270 to R272) -/

/-- With CLEAR pending and the Engine's turn next, the step is CLEAR: it waits for no room. -/
theorem step_of_clear_pending {s : State} {rest : List Event} (pending : s.pending = some 0x01000000#32)
    (empty : s.out = []) (scheduled : s.schedule = .engine :: rest) :
    step s = .next (clearEffect (s.consumed rest)) := by
  have room : { s with schedule := rest }.roomFor 0x01000000#32 = true :=
    (roomFor_iff _ _).mpr (by simp [empty, show need 0x01000000#32 = 0 by decide])
  rw [step_of_cons scheduled, happen, engineTurn_of_room (s := { s with schedule := rest }) pending room,
    engineStep_of_ok (i := .clear) rfl, exec_kept rfl]
  rfl

/-- Settles O52: the two runs of CLEAR start from states that differ only in what CLEAR overwrites, and in NODE, CLEN and
CVAL. -/
theorem resetThenClearIsClear : Obligations.ResetThenClearIsClear := by
  unfold Obligations.ResetThenClearIsClear
  intro s rest scheduled
  exact ⟨resetInput { s with schedule := .engine :: rest }, _, step_of_cons scheduled, rfl, rfl, rfl, rfl, rfl, rfl, rfl,
    step_of_clear_pending rfl rfl rfl, _, exec_kept (i := .clear) rfl _, rfl⟩

/-- Settles O53. -/
theorem writeBeforeInternalClearIsDropped : Obligations.WriteBeforeInternalClearIsDropped := by
  unfold Obligations.WriteBeforeInternalClearIsDropped
  intro v
  have dropped : step { State.reset with schedule := [.write 2#6 v, .engine] } =
      .next { State.reset with schedule := [.engine], overrun := true } := by
    rw [step_of_cons rfl, happen, regWrite_busy v (.inl rfl) (by simp [State.reset])]
  exact ⟨_, _, dropped, by decide, rfl, step_of_clear_pending rfl rfl rfl, by decide⟩

end Sys2Proof.Machine
end
